-- ==== Sys2Proof/Word.lean ====
section
/-! DEFINITION. The block's units of data: the byte, the 32-bit register word, the 64-bit index, the pixel
(spec/00_scope.md R5 to R8). -/

namespace Sys2Proof

/-- A `u8`: one byte of a stream, or one channel of a pixel (R5, R7). -/
abbrev Byte := BitVec 8

/-- A `u32`: one register of the host's register space, a width or a height (R5, R37). -/
abbrev Word := BitVec 32

/-- A `u64`: a byte offset, a pixel index, a counter or a length (R5, D5). -/
abbrev Index := BitVec 64

/-- A pixel: four independent 8-bit channels; equality is exact and component-wise (R8). -/
structure Pixel where
  r : Byte
  g : Byte
  b : Byte
  a : Byte
deriving DecidableEq, Repr, Inhabited

/-- The seed of `prev`, opaque black `(0,0,0,255)` (spec/10_state.md R30). -/
def Pixel.seed : Pixel := ⟨0, 0, 0, 255⟩

/-- The start value of every cache entry, `(0,0,0,0)` (spec/10_state.md R31). -/
def Pixel.zero : Pixel := ⟨0, 0, 0, 0⟩

end Sys2Proof
end

