-- ==== Sys2Proof/Config.lean ====
section
/-! DEFINITION. What is fixed for one block (spec/00_scope.md R5) and the values the spec leaves free
(spec/93_implementation_defined.md K-12, K-13, K-14). -/

namespace Sys2Proof

/-- The parameter `DELTA_ARITH` (R5, D8, K-6): how ENC takes a channel difference (spec/42_encoder.md R169). -/
inductive DeltaArith where
  /-- `INT`: the plain integer difference, the spec's default. -/
  | int
  /-- `WRAP8`: the difference modulo 256, read as a signed byte. -/
  | wrap8
deriving DecidableEq, Repr

namespace Config

/-- `HEADER_LEN` (R5). -/
def headerLen : Nat := 14

/-- `MARKER_LEN` (R5). -/
def markerLen : Nat := 8

/-- `RUN_MAX` (R5): the longest run one RUN opcode holds. -/
def runMax : Nat := 62

/-- The magic "qoif" (spec/41_serdes.md R143). -/
def magic : List Byte := [0x71, 0x6F, 0x69, 0x66]

/-- The end marker (spec/41_serdes.md R150). -/
def endMarker : List Byte := [0, 0, 0, 0, 0, 0, 0, 1]

/-- FREE VALUE (log 6): what a host read of a counter or header register returns before R76 guarantees it, from the
register's offset, the number of the unit's pass and the counter or header field behind the register: one value as long as no
step changes that field (spec/20_memory.md R70, spec/10_state.md R57). -/
opaque freeWord : Nat → Nat → Index → Word

/-- FREE VALUE (log 6): what a host read of `OUT` returns where no rule gives the byte (K-13, K-14). -/
opaque freeByte : Nat → Byte

/-- FREE VALUE (log 6): what a host read of `PIXOUT` returns where no rule gives the pixel (K-13, K-14). -/
opaque freePixel : Nat → Pixel

end Config

end Sys2Proof
end

