-- ==== Sys2Proof/Syntax.lean ====
section
/-! DEFINITION. The instructions: the six opcodes of spec/opcode_table.json, one constructor a row, with the operands
of spec/30_encoding.md R100 as the values they stand for (biases removed). -/

namespace Sys2Proof

/-- One opcode of the stream. -/
inductive Instr where
  /-- RGBA (R96): four raw channels. -/
  | rgba (r g b a : Byte)
  /-- RGB (R96): three raw channels; alpha is the previous pixel's. -/
  | rgb (r g b : Byte)
  /-- INDEX (R91): a cache slot. -/
  | index (idx : BitVec 6)
  /-- DIFF (R92): three signed deltas, each in [-2, 1]. -/
  | diff (dr dg db : Int)
  /-- LUMA (R94): the green delta in [-32, 31], and the residuals `dr - dg` and `db - dg` in [-8, 7]. -/
  | luma (dg drDg dbDg : Int)
  /-- RUN (R95): a run length in [1, 62]. -/
  | run (len : Nat)
deriving DecidableEq, Repr

/-- One line of this spec's assembler (R105): a directive or an opcode. -/
inductive AsmLine where
  /-- `.header W, H, C, S`. -/
  | header (w h c s : Nat)
  /-- An opcode line. -/
  | op (i : Instr)
  /-- `.end`. -/
  | endMarker
deriving DecidableEq, Repr

end Sys2Proof
end

