-- ==== Sys2Proof/WellFormed.lean ====
section
/-! DEFINITION. The operand checks of spec/30_encoding.md R100 and R105: which terms of `Instr` and of `AsmLine` stand for an opcode. -/

namespace Sys2Proof

/-- `x in [lo, hi]`, both bounds included (spec/00_scope.md R7). -/
def inRange (lo hi x : Int) : Bool := decide (lo ≤ x) && decide (x ≤ hi)

/-- The operand ranges of R100. -/
def Instr.wf : Instr → Bool
  | .rgba _ _ _ _ => true
  | .rgb _ _ _ => true
  | .index _ => true
  | .diff dr dg db => inRange (-2) 1 dr && inRange (-2) 1 dg && inRange (-2) 1 db
  | .luma dg drDg dbDg => inRange (-32) 31 dg && inRange (-8) 7 drDg && inRange (-8) 7 dbDg
  | .run len => decide (1 ≤ len) && decide (len ≤ 62)

/-- The operand checks of an assembler line (R105). -/
def AsmLine.wf : AsmLine → Bool
  | .header w h c s => decide (w < 2 ^ 32) && decide (h < 2 ^ 32) && decide (c < 256) && decide (s < 256)
  | .op i => i.wf
  | .endMarker => true

end Sys2Proof
end

