-- ==== Sys2Proof/Decode.lean ====
section
/-! DEFINITION. The encoding of spec/30_encoding.md both ways: the decoder, total on any bytes, the encoder written from the
emit table of R101, and the assembler of R105. -/

namespace Sys2Proof

/-- The 2-bit tag of a first byte, bits [7:6] (R98). -/
def tag (b0 : Byte) : BitVec 2 := b0.extractLsb' 6 2

/-- The payload of a first byte, bits [5:0]. -/
def payload (b0 : Byte) : BitVec 6 := b0.extractLsb' 0 6

/-- A field of `n` bits from bit `lo` up, less its bias (R100). -/
def biasedField (b : Byte) (lo n : Nat) (bias : Int) : Int := (b.extractLsb' lo n).toNat - bias

/-- The length of an opcode from its first byte, total over all 256 values (R97). -/
def oplen (b0 : Byte) : Nat :=
  if b0 = 0xFF then 5 else if b0 = 0xFE then 4 else if tag b0 = 2 then 2 else 1

/-- Why bytes are no opcode. R102: no first byte is illegal, so an opcode can only be cut short. -/
inductive DecodeError where
  /-- There is no first byte. -/
  | empty
  /-- The operand bytes are not all there (R203's TRUNCATED). -/
  | truncated
deriving DecidableEq, Repr

/-- The opcode at the head of `bytes`, and the bytes after it: the dispatch order of R98 and the fields of R91 to R96. -/
def decode (bytes : List Byte) : Except DecodeError (Instr × List Byte) :=
  match bytes with
  | [] => .error .empty
  | b0 :: rest =>
    if b0 = 0xFF then
      match rest with
      | r :: g :: b :: a :: t => .ok (.rgba r g b a, t)
      | _ => .error .truncated
    else if b0 = 0xFE then
      match rest with
      | r :: g :: b :: t => .ok (.rgb r g b, t)
      | _ => .error .truncated
    else if tag b0 = 0 then .ok (.index (payload b0), rest)
    else if tag b0 = 1 then .ok (.diff (biasedField b0 4 2 2) (biasedField b0 2 2 2) (biasedField b0 0 2 2), rest)
    else if tag b0 = 2 then
      match rest with
      | b1 :: t => .ok (.luma (biasedField b0 0 6 32) (biasedField b1 4 4 8) (biasedField b1 0 4 8), t)
      | [] => .error .truncated
    else .ok (.run ((payload b0).toNat + 1), rest)

/-- A signed operand plus its bias, as a byte (R101). -/
def biased (bias d : Int) : Byte := BitVec.ofInt 8 (d + bias)

/-- The bytes of an instruction: the emit table of R101. -/
def encode (i : Instr) : List Byte :=
  match i with
  | .rgba r g b a => [0xFF, r, g, b, a]
  | .rgb r g b => [0xFE, r, g, b]
  | .index idx => [0x00 ||| idx.setWidth 8]
  | .diff dr dg db => [0x40 ||| biased 2 dr <<< 4 ||| biased 2 dg <<< 2 ||| biased 2 db]
  | .luma dg drDg dbDg => [0x80 ||| biased 32 dg, biased 8 drDg <<< 4 ||| biased 8 dbDg]
  | .run len => [0xC0 ||| BitVec.ofNat 8 (len - 1)]

/-- How many bytes the opcode takes (R90's table). -/
def Instr.length (i : Instr) : Nat :=
  match i with
  | .rgba _ _ _ _ => 5
  | .rgb _ _ _ => 4
  | .index _ => 1
  | .diff _ _ _ => 1
  | .luma _ _ _ => 2
  | .run _ => 1

/-- The four bytes of a 32-bit value, most significant first (spec/41_serdes.md R140). -/
def be32 (v : Word) : List Byte := [v.extractLsb' 24 8, v.extractLsb' 16 8, v.extractLsb' 8 8, v.extractLsb' 0 8]

/-- Bytes read as one big-endian unsigned number (spec/00_scope.md R10). -/
def beNat (bs : List Byte) : Nat := bs.foldl (fun n b => n * 256 + b.toNat) 0

/-- The 14 header bytes of the given fields (spec/41_serdes.md R144). -/
def headerBytes (w h : Word) (c s : Byte) : List Byte := Config.magic ++ be32 w ++ be32 h ++ [c, s]

/-- The assembler (R105): it refuses an operand outside its range and never wraps it. -/
def assembleLine (l : AsmLine) : Option (List Byte) :=
  if l.wf then
    match l with
    | .header w h c s => some (headerBytes (BitVec.ofNat 32 w) (BitVec.ofNat 32 h) (BitVec.ofNat 8 c) (BitVec.ofNat 8 s))
    | .op i => some (encode i)
    | .endMarker => some Config.endMarker
  else none

/-- A whole source, line after line. -/
def assemble : List AsmLine → Option (List Byte)
  | [] => some []
  | l :: ls =>
    match assembleLine l, assemble ls with
    | some bs, some rest => some (bs ++ rest)
    | _, _ => none

/-- The bytes of a table word: bit 0 is the least significant bit of the first byte and later bytes count on from it;
every bit from `nbits` up is 0. Five bytes, the longest opcode. -/
def tableBytes (nbits w : Nat) : List Byte :=
  let v := w % 2 ^ nbits
  [BitVec.ofNat 8 v, BitVec.ofNat 8 (v / 2 ^ 8), BitVec.ofNat 8 (v / 2 ^ 16), BitVec.ofNat 8 (v / 2 ^ 24),
   BitVec.ofNat 8 (v / 2 ^ 32)]

/-- The instruction the decoder reads from a table word. -/
def decodeTableWord (nbits w : Nat) : Option Instr :=
  match decode (tableBytes nbits w) with
  | .ok (i, _) => some i
  | .error _ => none

end Sys2Proof
end

