-- ==== Sys2Proof/Machine/State.lean ====
section
/-! DEFINITION. Everything the spec gives the machine, as plain data (spec/10_state.md R20, R21, spec/20_memory.md R60), the
host's moves (spec/70_reset_and_hazards.md section 3), the reasons a step can stop, and the state after reset (R55). -/

namespace Sys2Proof.Machine

/-- A buffer as a list of (index, element) pairs, indices strictly rising; an index not listed holds no value (log 1).
`Memory Byte` is a list of `Host.Cell`. -/
abbrev Memory (α : Type) := List (Nat × α)

/-- A pixel cache: exactly 64 entries (R33). -/
abbrev Cache := Vector Pixel 64

/-- Every entry `(0,0,0,0)` (R31). -/
def Cache.clear : Cache := Vector.replicate 64 Pixel.zero

/-- `ENC.phase` (R22). -/
inductive EncPhase where
  | idle
  | pix
  | done
  | error
deriving DecidableEq, Repr

/-- `DEC.phase` (R23). -/
inductive DecPhase where
  | idle
  | ops
  | done
  | error
deriving DecidableEq, Repr

/-- The encoder unit's state (R20). -/
structure Enc where
  phase : EncPhase
  /-- The register ENC_WIDTH (R40). -/
  width : Word
  /-- The register ENC_HEIGHT (R41). -/
  height : Word
  /-- ENC_CHANNELS[7:0] (R42). -/
  channels : Byte
  /-- ENC_COLORSPACE[7:0] (R43). -/
  colorspace : Byte
  cfgWidth : Word
  cfgHeight : Word
  cfgChannels : Byte
  cfgColorspace : Byte
  npix : Index
  prev : Pixel
  run : BitVec 6
  cache : Cache
  /-- The encoder's program counter: the next pixel to read (R25). -/
  i : Index
  outlen : Index
  errcode : BitVec 4
  errdetail : BitVec 4
deriving DecidableEq, Repr

/-- The decoder unit's state (R21). -/
structure Dec where
  phase : DecPhase
  /-- DEC_LEN_HI || DEC_LEN_LO (R48). -/
  len : Index
  cfgLen : Index
  prev : Pixel
  cache : Cache
  /-- The decoder's program counter: the next opcode's first byte (R24). -/
  pos : Index
  pixcnt : Index
  hdrWidth : Word
  hdrHeight : Word
  hdrChannels : Byte
  hdrColorspace : Byte
  errcode : BitVec 4
  errdetail : BitVec 4
deriving DecidableEq, Repr

/-- The three agents that take steps (spec/00_scope.md R11). -/
inductive Agent where
  | host
  | enc
  | dec
deriving DecidableEq, Repr

/-- The two units (spec/60_exceptions.md R257). -/
inductive UnitId where
  | enc
  | dec
deriving DecidableEq, Repr

/-- The error kinds of spec/60_exceptions.md R240. -/
inductive ErrorKind where
  | format
  | channel
  | size
  | corruptOpcode
  | io
deriving DecidableEq, Repr

/-- The registers of the host's register space, in the order of R37's map. -/
inductive Reg where
  | encCtrl
  | encStatus
  | encWidth
  | encHeight
  | encChannels
  | encColorspace
  | encPixidxLo
  | encPixidxHi
  | encOutlenLo
  | encOutlenHi
  | decCtrl
  | decStatus
  | decLenLo
  | decLenHi
  | decWidth
  | decHeight
  | decChannels
  | decColorspace
  | decPosLo
  | decPosHi
  | decPixcntLo
  | decPixcntHi
deriving DecidableEq, Repr

/-- The width of a register access; only whole words are part of the interface (R37, D33). -/
inductive AccessSize where
  | byte
  | half
  | word
deriving DecidableEq, Repr

/-- What the host, or the platform, does in one move (spec/70_reset_and_hazards.md section 3). -/
inductive HostMove where
  /-- Read the register space at a byte offset. -/
  | regRead (size : AccessSize) (offset : Nat)
  /-- Write the register space at a byte offset. -/
  | regWrite (size : AccessSize) (offset : Nat) (v : Word)
  /-- Place pixels in `PIXIN` from an index on (R274). -/
  | putPixIn (start : Index) (ps : List Pixel)
  /-- Place bytes in `IN` from an offset on (R275). -/
  | putIn (start : Index) (bs : List Byte)
  /-- Provide `OUT` with room for so many bytes (R274, R282). -/
  | provideOut (room : Index)
  /-- Provide `PIXOUT` with room for so many pixels (R275, R282). -/
  | providePixOut (room : Index)
  /-- Hand the bytes of `OUT` to DEC as its `IN` (R281). -/
  | outToIn
  /-- Read one byte of `OUT` (R283). -/
  | readOut (a : Index)
  /-- Read one pixel of `PIXOUT` (R283). -/
  | readPixOut (i : Index)
  /-- Power-on reset, asserted by the platform (R270). -/
  | powerOnReset
deriving DecidableEq, Repr

/-- What a read of the host returned. -/
inductive Reply where
  | word (offset : Nat) (v : Word)
  | outByte (a : Index) (b : Byte)
  | pixel (i : Index) (p : Pixel)
deriving DecidableEq, Repr

/-- Why the machine stops: a unit that is stuck (R72, R181, R282), or an access outside an address space. -/
inductive Fault where
  /-- ENC would write `OUT` past the room the host declared: no step (R282, K-15). Raised by ENC's start, pixel and
  finish steps. Safe: the model stops. -/
  | outRoom
  /-- DEC would write `PIXOUT` past the room the host declared: no step (R282, K-15). Raised by every opcode. Safe. -/
  | pixOutRoom
  /-- ENC would read an entry of `PIXIN` that holds no value: no step (R181, R280). Raised by ENC's pixel step. Safe. -/
  | pixInAbsent
  /-- DEC would read a byte of `IN` that holds no value: no step (R281). Raised by DEC's opcode step. Safe. -/
  | inAbsent
  /-- The host places data past the last 64-bit index of a buffer (R60). Raised by the host's moves. Safe. -/
  | outsideBuffer
deriving DecidableEq, Repr

/-- Why the model takes no step: host moves the spec tells a model to refuse. -/
inductive Refusal where
  /-- An instruction with no meaning yet, by its mnemonic; raised by `exec` alone. Safe. -/
  | notModelled (mnemonic : String)
  /-- A partial-word register access (R37, K-11). Raised by the host's register moves. Safe. -/
  | partialAccess
  /-- A write to `PIXIN` or `IN` while its unit is busy (R280, R281, K-16). Raised by the host's moves. Safe. -/
  | inputWhileBusy
  /-- A change of the room for `OUT` or `PIXOUT` while its unit is busy (R281, R282). Raised by the host's moves. Safe. -/
  | roomWhileBusy
  /-- A start whose input is not present (R280, R281, K-16). Raised by the start commands. Safe. -/
  | launchInputAbsent
  /-- A start whose output length or pixel count could not be held in 64 bits (R284). Raised by the start commands. Safe. -/
  | launchTooLarge
  /-- `OUT` handed to DEC before the host has read ENC's DONE (R281, R283). Raised by the host's move. Safe. -/
  | outputNotReady
deriving DecidableEq, Repr

/-- The whole machine. -/
structure State where
  enc : Enc
  dec : Dec
  pixIn : Memory Pixel
  outBuf : Memory Byte
  inBuf : Memory Byte
  pixOut : Memory Pixel
  /-- How many bytes `OUT` has room for (R282). -/
  outRoom : Index
  /-- How many pixels `PIXOUT` has room for (R282). -/
  pixOutRoom : Index
  /-- The host has read ENC_STATUS with DONE or ERR since the pass began (R76). -/
  encSeen : Bool
  /-- The host has read DEC_STATUS with DONE or ERR since the pass began (R76). -/
  decSeen : Bool
  /-- How many bytes of `OUT` the host is guaranteed: ENC's `outlen` once it has read DONE (R76), 0 from the next start on. -/
  outValid : Index
  /-- How many pixels of `PIXOUT` the host is guaranteed: DEC's `pixcnt` once it has read DONE (R76), 0 from the next start on. -/
  pixOutValid : Index
  /-- How many passes of ENC have begun: it numbers the free values of ENC's registers (log 6). -/
  encPass : Nat
  /-- How many passes of DEC have begun: it numbers the free values of DEC's registers (log 6). -/
  decPass : Nat
  /-- The parameter DELTA_ARITH (log 5); no step writes it. -/
  deltaArith : DeltaArith
  /-- The host's moves to come, oldest first (log 3). -/
  host : List HostMove
  /-- What the host's reads returned, newest first (log 3). -/
  replies : List Reply
  /-- The agents that take the next steps (log 2). -/
  turns : List Agent
  /-- The number of the next free value of an output buffer (log 6). -/
  free : Nat
deriving DecidableEq, Repr

/-- What every step answers. -/
abbrev Result := Host.Outcome State Fault Refusal

/-- ENC after power-on reset (R55). -/
def Enc.reset : Enc where
  phase := .idle
  width := 0
  height := 0
  channels := 0
  colorspace := 0
  cfgWidth := 0
  cfgHeight := 0
  cfgChannels := 0
  cfgColorspace := 0
  npix := 0
  prev := Pixel.seed
  run := 0
  cache := Cache.clear
  i := 0
  outlen := 0
  errcode := 0
  errdetail := 0

/-- DEC after power-on reset (R55). -/
def Dec.reset : Dec where
  phase := .idle
  len := 0
  cfgLen := 0
  prev := Pixel.seed
  cache := Cache.clear
  pos := 0
  pixcnt := 0
  hdrWidth := 0
  hdrHeight := 0
  hdrChannels := 0
  hdrColorspace := 0
  errcode := 0
  errdetail := 0

/-- The machine right after power-on reset: both units as R55 says, nothing in any buffer, no host move pending. -/
def State.reset : State where
  enc := Enc.reset
  dec := Dec.reset
  pixIn := []
  outBuf := []
  inBuf := []
  pixOut := []
  outRoom := 0
  pixOutRoom := 0
  encSeen := false
  decSeen := false
  outValid := 0
  pixOutValid := 0
  encPass := 0
  decPass := 0
  deltaArith := .int
  host := []
  replies := []
  turns := []
  free := 0

end Sys2Proof.Machine
end

