-- ==== Sys2Proof/Machine/Flags.lean ====
section
/-! DEFINITION. The flags: the block's only ones are the STATUS bits BUSY, DONE and ERR, functions of a unit's phase
(spec/10_state.md R39, R47, R53), with the error code and detail beside them. No opcode reads or writes a flag. -/

namespace Sys2Proof.Machine

/-- The STATUS layout of R39 and R47: bit 0 BUSY, bit 1 DONE, bit 2 ERR, bits [7:4] ERRCODE, bits [11:8] ERRDETAIL. -/
def statusWord (busy done err : Bool) (errcode errdetail : BitVec 4) : Word :=
  0#20 ++ errdetail ++ errcode ++ 0#1 ++ BitVec.ofBool err ++ BitVec.ofBool done ++ BitVec.ofBool busy

/-- ENC_STATUS.BUSY (R39). -/
def encBusy (e : Enc) : Bool := e.phase == .pix

/-- DEC_STATUS.BUSY (R47). -/
def decBusy (d : Dec) : Bool := d.phase == .ops

/-- A pass of ENC has ended: DONE or ERR is 1 (spec/70_reset_and_hazards.md R292). -/
def encEnded (e : Enc) : Bool := e.phase == .done || e.phase == .error

/-- A pass of DEC has ended: DONE or ERR is 1 (spec/70_reset_and_hazards.md R292). -/
def decEnded (d : Dec) : Bool := d.phase == .done || d.phase == .error

/-- ENC_STATUS (R39). -/
def encStatus (e : Enc) : Word :=
  statusWord (e.phase == .pix) (e.phase == .done) (e.phase == .error) e.errcode e.errdetail

/-- DEC_STATUS (R47). -/
def decStatus (d : Dec) : Word :=
  statusWord (d.phase == .ops) (d.phase == .done) (d.phase == .error) d.errcode d.errdetail

end Sys2Proof.Machine
end

