-- ==== Sys2Proof/Machine/Operands.lean ====
section
/-! DEFINITION. The operand forms: pixel words, channel arithmetic, deltas, the hash of a pixel
(spec/00_scope.md R7, R8; spec/40_hash_cache.md R120; spec/42_encoder.md R169; spec/43_decoder.md R206 to R210). -/

namespace Sys2Proof.Machine

/-- A pixel as a 32-bit word, `r || g || b || a` (R8, D3). -/
def pixelWord (p : Pixel) : Word := p.r ++ p.g ++ p.b ++ p.a

/-- The pixel a 32-bit word holds (R8, D3). -/
def wordPixel (w : Word) : Pixel :=
  ⟨w.extractLsb' 24 8, w.extractLsb' 16 8, w.extractLsb' 8 8, w.extractLsb' 0 8⟩

/-- `hash(p)`: (3R + 5G + 7B + 11A) mod 64 (R120). -/
def pixelHash (p : Pixel) : BitVec 6 :=
  BitVec.ofNat 6 ((3 * p.r.toNat + 5 * p.g.toNat + 7 * p.b.toNat + 11 * p.a.toNat) % 64)

/-- `trunc8(v)`: v mod 256 (R7). -/
def trunc8 (v : Int) : Byte := BitVec.ofInt 8 v

/-- `s8(v)`: the two's-complement reading of trunc8(v), in [-128, 127] (R7). -/
def s8 (v : Int) : Int := (trunc8 v).toInt

/-- A channel changed by a signed delta, modulo 256 (R210). -/
def addChannel (c : Byte) (d : Int) : Byte := trunc8 (c.toNat + d)

/-- The previous pixel changed by three deltas, alpha copied (R206, R207). -/
def addDeltas (prev : Pixel) (dr dg db : Int) : Pixel :=
  ⟨addChannel prev.r dr, addChannel prev.g dg, addChannel prev.b db, prev.a⟩

/-- One channel's delta in the encoder, pixel minus previous (R169). -/
def channelDelta (mode : DeltaArith) (x y : Byte) : Int :=
  match mode with
  | .int => x.toNat - y.toNat
  | .wrap8 => s8 (x.toNat - y.toNat)

/-- The alpha ENC sees: 255 for a 3-channel image whatever `PIXIN` holds (R164, D7). -/
def implicitAlpha (channels : Byte) (p : Pixel) : Pixel :=
  if channels = 3 then { p with a := 255 } else p

end Sys2Proof.Machine
end

