-- ==== Sys2Proof/Machine/Ops.lean ====
section
/-! DEFINITION. The shared operations: buffers, caches, producing a pixel, emitting bytes, taking an error and leaving one
(spec/00_scope.md R10; spec/20_memory.md; spec/40_hash_cache.md R122, R123; spec/43_decoder.md R211;
spec/60_exceptions.md R247, R251). -/

namespace Sys2Proof.Machine

/-! ## Buffers -/

/-- One element of a buffer, if it holds a value. -/
def Memory.read {α : Type} (m : Memory α) (a : Nat) : Option α :=
  match m with
  | [] => none
  | (b, v) :: t => if b = a then some v else Memory.read t a

/-- The buffer with one element written, in the canonical form. -/
def Memory.write {α : Type} (m : Memory α) (a : Nat) (v : α) : Memory α :=
  match m with
  | [] => [(a, v)]
  | (b, w) :: t =>
    if a < b then (a, v) :: (b, w) :: t
    else if a = b then (a, v) :: t
    else (b, w) :: Memory.write t a v

/-- The canonical form: indices strictly rising, each from `lo` up. -/
def Memory.wfFrom {α : Type} (lo : Nat) (m : Memory α) : Bool :=
  match m with
  | [] => true
  | (a, _) :: t => decide (lo ≤ a) && Memory.wfFrom (a + 1) t

/-- The canonical form of a buffer (an index not listed holds no value, so no entry equals what it reads as). -/
def Memory.wf {α : Type} (m : Memory α) : Bool := Memory.wfFrom 0 m

/-- The elements written at successive indices. -/
def Memory.writeAll {α : Type} (m : Memory α) (a : Nat) (vs : List α) : Memory α :=
  match vs with
  | [] => m
  | v :: t => Memory.writeAll (Memory.write m a v) (a + 1) t

/-- `n` successive elements, if all hold values. -/
def Memory.readAll {α : Type} (m : Memory α) (a n : Nat) : Option (List α) :=
  match n with
  | 0 => some []
  | k + 1 =>
    match Memory.read m a, Memory.readAll m (a + 1) k with
    | some v, some vs => some (v :: vs)
    | _, _ => none

/-- The first index from `k` on that holds no value. -/
def Memory.filledTo {α : Type} (k : Nat) (m : Memory α) : Nat :=
  match m with
  | [] => k
  | (a, _) :: t => if a = k then Memory.filledTo (k + 1) t else k

/-- Every index below `n` holds a value (the host duties R280, R281). -/
def Memory.present {α : Type} (m : Memory α) (n : Nat) : Bool := decide (n ≤ Memory.filledTo 0 m)

/-- `MemRead(addr, n)`: bytes as one big-endian number (spec/00_scope.md R10). -/
def memRead (m : Memory Byte) (a n : Nat) : Option Nat := (Memory.readAll m a n).map beNat

/-- `read32(addr)` (spec/41_serdes.md R141). -/
def read32 (m : Memory Byte) (a : Nat) : Option Word := (memRead m a 4).map (BitVec.ofNat 32)

/-- `write32(addr, v)` (spec/41_serdes.md R140). -/
def write32 (m : Memory Byte) (a : Nat) (v : Word) : Memory Byte := Memory.writeAll m a (be32 v)

/-! ## Caches -/

/-- `CacheRead(k)` (R122). -/
def cacheRead (c : Cache) (k : BitVec 6) : Pixel := c.get ⟨k.toNat, k.isLt⟩

/-- `CacheWrite(p)`: `cache[hash(p)] <- p`, the other 63 entries unchanged (R123). -/
def cacheWrite (c : Cache) (p : Pixel) : Cache := c.set (pixelHash p).toNat p (pixelHash p).isLt

/-! ## Errors -/

/-- ERRCODE of a kind (R240). -/
def ErrorKind.code : ErrorKind → BitVec 4
  | .format => 1
  | .channel => 2
  | .size => 3
  | .corruptOpcode => 4
  | .io => 5

/-- ERRDETAIL SHORT of FormatError (R246). -/
def detailShort : BitVec 4 := 1
/-- ERRDETAIL MAGIC of FormatError (R246). -/
def detailMagic : BitVec 4 := 2
/-- ERRDETAIL MARKER of FormatError (R246). -/
def detailMarker : BitVec 4 := 3
/-- ERRDETAIL TRUNCATED of CorruptOpcodeError (R246). -/
def detailTruncated : BitVec 4 := 1
/-- ERRDETAIL UNRECOGNIZED of CorruptOpcodeError, never raised (R216, R246). -/
def detailUnrecognized : BitVec 4 := 2

/-- Taking an error, `raise E(d)` in a step of unit `u` (R247): the code, the detail and the phase; everything the step did
before stays done. -/
def raiseError (u : UnitId) (e : ErrorKind) (d : BitVec 4) (s : State) : State :=
  match u with
  | .enc => { s with enc := { s.enc with errcode := e.code, errdetail := d, phase := .error } }
  | .dec => { s with dec := { s.dec with errcode := e.code, errdetail := d, phase := .error } }

/-- Leaving an error: there is no return, only a fresh pass (R251), which begins so in ENC: the latch of R34 and the
initial state of R30 to R32, with the error registers cleared (spec/42_encoder.md R161, down to the channel check). -/
def encBegin (s : State) : State :=
  { s with
    encSeen := false
    outValid := 0
    encPass := s.encPass + 1
    enc := { s.enc with
      cfgWidth := s.enc.width
      cfgHeight := s.enc.height
      cfgChannels := s.enc.channels
      cfgColorspace := s.enc.colorspace
      npix := s.enc.width.setWidth 64 * s.enc.height.setWidth 64
      prev := Pixel.seed
      run := 0
      cache := Cache.clear
      i := 0
      outlen := 0
      errcode := 0
      errdetail := 0 } }

/-- How a fresh pass begins in DEC (spec/43_decoder.md R201, down to the header checks). -/
def decBegin (s : State) : State :=
  { s with
    decSeen := false
    pixOutValid := 0
    decPass := s.decPass + 1
    dec := { s.dec with
      cfgLen := s.dec.len
      prev := Pixel.seed
      cache := Cache.clear
      pos := 0
      pixcnt := 0
      errcode := 0
      errdetail := 0
      hdrWidth := 0
      hdrHeight := 0
      hdrChannels := 0
      hdrColorspace := 0 } }

/-! ## Producing pixels (DEC) -/

/-- `produce(p)` (R211): `PixWrite(p)`, the cache write at `hash(p)`, `prev <- p`. -/
def produce (p : Pixel) (s : State) : State :=
  { s with
    pixOut := Memory.write s.pixOut s.dec.pixcnt.toNat p
    dec := { s.dec with pixcnt := s.dec.pixcnt + 1, cache := cacheWrite s.dec.cache p, prev := p } }

/-- `repeat n times: produce(p)`. -/
def produceN (n : Nat) (p : Pixel) (s : State) : State :=
  match n with
  | 0 => s
  | k + 1 => produceN k p (produce p s)

/-- `pos <- pos + n`, the end of an opcode step (R203). -/
def advance (n : Nat) (s : State) : State :=
  { s with dec := { s.dec with pos := s.dec.pos + BitVec.ofNat 64 n } }

/-- `PIXOUT` has room for `n` more pixels (R282). -/
def pixOutHasRoom (n : Nat) (s : State) : Bool := decide (s.dec.pixcnt.toNat + n ≤ s.pixOutRoom.toNat)

/-- An opcode of `len` bytes that yields `p` `count` times; without room the unit is stuck (R282). -/
def yieldPixels (len count : Nat) (p : Pixel) (s : State) : Result :=
  if pixOutHasRoom count s then .next (advance len (produceN count p s)) else .fault .pixOutRoom

/-! ## Emitting bytes (ENC) -/

/-- `Emit(v8)` (R10). -/
def emit (b : Byte) (s : State) : State :=
  { s with
    outBuf := Memory.write s.outBuf s.enc.outlen.toNat b
    enc := { s.enc with outlen := s.enc.outlen + 1 } }

/-- `Emit` of each byte in turn. -/
def emitAll (bs : List Byte) (s : State) : State :=
  match bs with
  | [] => s
  | b :: t => emitAll t (emit b s)

/-- `OUT` has room for `n` more bytes (R282). -/
def outHasRoom (n : Nat) (s : State) : Bool := decide (s.enc.outlen.toNat + n ≤ s.outRoom.toNat)

/-- A step of ENC that emits these bytes; without room the unit is stuck (R282). -/
def emitBytes (bs : List Byte) (s : State) : Result :=
  if outHasRoom bs.length s then .next (emitAll bs s) else .fault .outRoom

/-! ## The model's own fields -/

/-- The turn at the head has been taken. -/
def popTurn (s : State) : State := { s with turns := s.turns.tail }

end Sys2Proof.Machine
end

