-- ==== Sys2Proof/Machine/Delta.lean ====
section
/-! DEFINITION. The delta opcodes DIFF and LUMA (spec/43_decoder.md R206, R207). -/

namespace Sys2Proof.Machine

/-- DIFF (R206): three deltas added to the previous pixel modulo 256, alpha copied. -/
def execDiff (dr dg db : Int) (s : State) : Result := yieldPixels 1 1 (addDeltas s.dec.prev dr dg db) s

/-- LUMA (R207): `dg` for green, `dg` plus a residual for red and for blue, modulo 256, alpha copied. -/
def execLuma (dg drDg dbDg : Int) (s : State) : Result :=
  yieldPixels 2 1 (addDeltas s.dec.prev (dg + drDg) dg (dg + dbDg)) s

end Sys2Proof.Machine
end

