-- ==== Sys2Proof/Machine/Recall.lean ====
section
/-! DEFINITION. The opcodes that recall a pixel: INDEX from the cache, RUN from the previous pixel
(spec/43_decoder.md R204, R205). -/

namespace Sys2Proof.Machine

/-- INDEX (R204): the pixel in the slot, verbatim; the write of R211 goes to its hash, not to the slot. -/
def execIndex (idx : BitVec 6) (s : State) : Result := yieldPixels 1 1 (cacheRead s.dec.cache idx) s

/-- RUN (R205): the previous pixel as it was before the opcode, `len` times. -/
def execRun (len : Nat) (s : State) : Result := yieldPixels 1 len s.dec.prev s

end Sys2Proof.Machine
end

