-- ==== Sys2Proof/Machine/Verbatim.lean ====
section
/-! DEFINITION. The verbatim opcodes RGBA and RGB (spec/43_decoder.md R208, R209). -/

namespace Sys2Proof.Machine

/-- RGBA (R209): the four operand bytes are the pixel. -/
def execRgba (r g b a : Byte) (s : State) : Result := yieldPixels 5 1 ⟨r, g, b, a⟩ s

/-- RGB (R208): the three operand bytes, alpha copied from the previous pixel. -/
def execRgb (r g b : Byte) (s : State) : Result := yieldPixels 4 1 ⟨r, g, b, s.dec.prev.a⟩ s

end Sys2Proof.Machine
end

