-- ==== Sys2Proof/Machine/Decoder.lean ====
section
/-! DEFINITION. The decoder unit's steps (spec/43_decoder.md R200 to R203, R212): start with its header checks, the opcode step
(fetch, length check, dispatch), finish. -/

namespace Sys2Proof.Machine

/-- How many pixels the opcode with this first byte yields (R204 to R209). -/
def opcodeCount (b0 : Byte) : Nat := if tag b0 = 3 ∧ b0 ≠ 0xFE ∧ b0 ≠ 0xFF then (payload b0).toNat + 1 else 1

/-- How many pixels the opcodes from offset `pos` to `stop` yield, up to the first one that is cut short or absent. -/
def streamYield (m : Memory Byte) (stop pos fuel : Nat) : Nat :=
  match fuel with
  | 0 => 0
  | k + 1 =>
    match Memory.read m pos with
    | none => 0
    | some b0 => if pos + oplen b0 ≤ stop then opcodeCount b0 + streamYield m stop (pos + oplen b0) k else 0

/-- A launch whose stream yields 2^64 or more pixels (spec/70_reset_and_hazards.md R284); no stream does whose length keeps
the bound `62 * (LEN - 22)` of R275 below that. -/
def decTooLarge (m : Memory Byte) (len : Nat) : Bool :=
  if 62 * (len - 22) < 2 ^ 64 then false else decide (2 ^ 64 ≤ streamYield m (len - 8) 14 (len - 22))

/-- The header checks on a stream that is present (R202): the detail of the FormatError, if one is raised. -/
def headerCheck (m : Memory Byte) (len : Nat) : Option (BitVec 4) :=
  if len < 14 then some detailShort
  else if memRead m 0 4 ≠ some 0x716F6966 then some detailMagic
  else if len < 22 ∨ memRead m (len - 8) 8 ≠ some 1 then some detailMarker
  else none

/-- Header field extraction (spec/41_serdes.md R148), then `pos <- 14` and `phase <- OPS` (R201). -/
def decEnter (w h : Word) (c cs : Byte) (s : State) : State :=
  { s with
    dec := { s.dec with
      hdrWidth := w
      hdrHeight := h
      hdrChannels := c
      hdrColorspace := cs
      pos := 14
      phase := .ops } }

/-- The start step after the header checks. -/
def decLaunch (s : State) : Result :=
  if decTooLarge s.inBuf s.dec.cfgLen.toNat then .refused .launchTooLarge
  else
    match read32 s.inBuf 4, read32 s.inBuf 8, Memory.read s.inBuf 12, Memory.read s.inBuf 13 with
    | some w, some h, some c, some cs => .next (decEnter w h c cs s)
    | _, _, _, _ => .refused .launchInputAbsent

/-- The start step (R201, R202). DESIGN CHOICE (log 9): the spec gives the refused launches no order against the header checks;
here a length below 14 is a FormatError whatever `IN` holds, then `IN[0 .. LEN-1]` must be present (R281), then come the other
header checks, then the size (R284). -/
def decStart (s : State) : Result :=
  let t := decBegin s
  let n := t.dec.cfgLen.toNat
  if 14 ≤ n ∧ Memory.present t.inBuf n = false then .refused .launchInputAbsent
  else
    match headerCheck t.inBuf n with
    | some d => .next (raiseError .dec .format d t)
    | none => decLaunch t

/-- What the fetch of an opcode step finds (R203). -/
inductive Fetched where
  /-- An opcode whose bytes all lie before the end marker. -/
  | opcode (i : Instr)
  /-- An opcode that would run into the end marker. -/
  | truncated
  /-- A first byte the decoder does not classify; never found (R216). -/
  | unrecognized
  /-- A byte of the opcode holds no value (a broken host duty, R281). -/
  | absent
deriving DecidableEq, Repr

/-- Fetch and length check (R203), for the opcode at `pos` in a stream of `len` bytes. -/
def fetch (m : Memory Byte) (pos len : Nat) : Fetched :=
  match Memory.read m pos with
  | none => .absent
  | some b0 =>
    if len < pos + oplen b0 + 8 then .truncated
    else
      match Memory.readAll m pos (oplen b0) with
      | none => .absent
      | some bytes =>
        match decode bytes with
        | .ok (i, _) => .opcode i
        | .error _ => .unrecognized

/-- The opcode step (R203). -/
def decOpcode (s : State) : Result :=
  match fetch s.inBuf s.dec.pos.toNat s.dec.cfgLen.toNat with
  | .opcode i => exec i s
  | .truncated => .next (raiseError .dec .corruptOpcode detailTruncated s)
  | .unrecognized => .next (raiseError .dec .corruptOpcode detailUnrecognized s)
  | .absent => .fault .inAbsent

/-- The finish step (R212). -/
def decFinish (s : State) : State := { s with dec := { s.dec with phase := .done } }

/-- DEC's turn (R200): the one step that is enabled, or none. -/
def decMove (s : State) : Result :=
  match s.dec.phase with
  | .ops =>
    if s.dec.pos.toNat + 8 < s.dec.cfgLen.toNat then decOpcode s
    else if s.dec.pos.toNat + 8 = s.dec.cfgLen.toNat then .next (decFinish s)
    else .next s
  | .idle => .next s
  | .done => .next s
  | .error => .next s

end Sys2Proof.Machine
end

