-- ==== Sys2Proof/Machine/Encoder.lean ====
section
/-! DEFINITION. The encoder unit's steps (spec/42_encoder.md R160 to R181): start, pixel, finish. The bytes it emits are the
encodings of the same instructions the decoder runs (spec/30_encoding.md R101). -/

namespace Sys2Proof.Machine

/-- Only 3 and 4 are legal channel counts on encode (R162). -/
def channelsLegal (c : Byte) : Bool := c == 3 || c == 4

/-- A launch whose output could exceed 2^64 - 1 bytes (spec/70_reset_and_hazards.md R284, with the bound of R179). -/
def encTooLarge (npix : Index) : Bool := decide (2 ^ 64 ≤ 22 + 5 * npix.toNat)

/-- The start step (R161 to R163). DESIGN CHOICE (log 9): the spec gives the two refused launches no order, against each other
or against the channel check; here the channel check comes first, then the size (R284), then the presence of the input
(R280). -/
def encStart (s : State) : Result :=
  let t := encBegin s
  if channelsLegal t.enc.cfgChannels then
    if encTooLarge t.enc.npix then .refused .launchTooLarge
    else if Memory.present t.pixIn t.enc.npix.toNat then
      emitBytes (headerBytes t.enc.cfgWidth t.enc.cfgHeight t.enc.cfgChannels t.enc.cfgColorspace)
        { t with enc := { t.enc with phase := .pix } }
    else .refused .launchInputAbsent
  else .next (raiseError .enc .channel 0 t)

/-- Small diff selection (R170). -/
def diffFits (dr dg db : Int) : Bool := inRange (-2) 1 dr && inRange (-2) 1 dg && inRange (-2) 1 db

/-- Luma diff selection (R171). -/
def lumaFits (dr dg db : Int) : Bool := inRange (-32) 31 dg && inRange (-8) 7 (dr - dg) && inRange (-8) 7 (db - dg)

/-- Step 4 for an unchanged alpha: DIFF, then LUMA, then RGB (R170 to R172), from the deltas. -/
def selectDelta (px : Pixel) (dr dg db : Int) : Instr :=
  if diffFits dr dg db then .diff dr dg db
  else if lumaFits dr dg db then .luma dg (dr - dg) (db - dg)
  else .rgb px.r px.g px.b

/-- The opcode of a pixel that is not in a run, the first that applies (R168 to R173, R180). -/
def selectOpcode (mode : DeltaArith) (cache : Cache) (prev px : Pixel) : Instr :=
  if cacheRead cache (pixelHash px) = px then .index (pixelHash px)
  else if px.a = prev.a then
    selectDelta px (channelDelta mode px.r prev.r) (channelDelta mode px.g prev.g) (channelDelta mode px.b prev.b)
  else .rgba px.r px.g px.b px.a

/-- The RUN opcode of a pending run, if there is one (R167). -/
def flushBytes (run : BitVec 6) : List Byte := if run = 0 then [] else encode (.run run.toNat)

/-- `i <- i + 1`. -/
def encTake (s : State) : State := { s with enc := { s.enc with i := s.enc.i + 1 } }

/-- `run <- r`. -/
def encSetRun (r : BitVec 6) (s : State) : State := { s with enc := { s.enc with run := r } }

/-- The update after every opcode that is not a run (R174). -/
def encRecord (px : Pixel) (s : State) : State :=
  { s with enc := { s.enc with cache := cacheWrite s.enc.cache px, prev := px } }

/-- A pixel equal to `prev` (R165, R166, R175): the run grows, and is flushed at 62 or on the last pixel. -/
def encAbsorb (last : Bool) (s : State) : Result :=
  let run := s.enc.run + 1
  if run = 62 ∨ last then emitBytes (encode (.run run.toNat)) (encSetRun 0 s) else .next (encSetRun run s)

/-- A pixel that differs from `prev` (R167 to R174): any pending run, then the pixel's own opcode. -/
def encLiteral (px : Pixel) (s : State) : Result :=
  emitBytes (flushBytes s.enc.run ++ encode (selectOpcode s.deltaArith s.enc.cache s.enc.prev px))
    (encRecord px (encSetRun 0 s))

/-- The pixel step on the pixel `PIXIN[i]` (R164). -/
def encPixelOf (p : Pixel) (s : State) : Result :=
  let px := implicitAlpha s.enc.cfgChannels p
  if px = s.enc.prev then encAbsorb (s.enc.i == s.enc.npix - 1) (encTake s) else encLiteral px (encTake s)

/-- The pixel step (R164); without the input pixel the unit is stuck (R181). -/
def encPixel (s : State) : Result :=
  match Memory.read s.pixIn s.enc.i.toNat with
  | some p => encPixelOf p s
  | none => .fault .pixInAbsent

/-- The finish step (R176): the end marker, then DONE. -/
def encFinish (s : State) : Result :=
  emitBytes Config.endMarker { s with enc := { s.enc with phase := .done } }

/-- ENC's turn (R160): the one step that is enabled, or none. -/
def encMove (s : State) : Result :=
  match s.enc.phase with
  | .pix =>
    if s.enc.i.toNat < s.enc.npix.toNat then encPixel s
    else if s.enc.i = s.enc.npix then encFinish s
    else .next s
  | .idle => .next s
  | .done => .next s
  | .error => .next s

end Sys2Proof.Machine
end

