-- ==== Sys2Proof/Machine/Registers.lean ====
section
/-! DEFINITION. The host's register space (spec/10_state.md R37 to R57) and the start commands
(spec/60_exceptions.md R258). -/

namespace Sys2Proof.Machine

/-- The register at a byte offset (R37's map); every other offset is reserved. -/
def regAt (offset : Nat) : Option Reg :=
  match offset with
  | 0x00 => some .encCtrl
  | 0x04 => some .encStatus
  | 0x08 => some .encWidth
  | 0x0C => some .encHeight
  | 0x10 => some .encChannels
  | 0x14 => some .encColorspace
  | 0x18 => some .encPixidxLo
  | 0x1C => some .encPixidxHi
  | 0x20 => some .encOutlenLo
  | 0x24 => some .encOutlenHi
  | 0x40 => some .decCtrl
  | 0x44 => some .decStatus
  | 0x48 => some .decLenLo
  | 0x4C => some .decLenHi
  | 0x50 => some .decWidth
  | 0x54 => some .decHeight
  | 0x58 => some .decChannels
  | 0x5C => some .decColorspace
  | 0x60 => some .decPosLo
  | 0x64 => some .decPosHi
  | 0x68 => some .decPixcntLo
  | 0x6C => some .decPixcntHi
  | _ => none

/-- Bits [31:0] of a 64-bit value, its `_LO` register (R37). -/
def lo32 (v : Index) : Word := v.extractLsb' 0 32

/-- Bits [63:32] of a 64-bit value, its `_HI` register (R37). -/
def hi32 (v : Index) : Word := v.extractLsb' 32 32

/-- What each register holds (R38 to R52); CTRL reads 0 and reserved bits read 0. -/
def regValue (r : Reg) (s : State) : Word :=
  match r with
  | .encCtrl => 0
  | .encStatus => encStatus s.enc
  | .encWidth => s.enc.width
  | .encHeight => s.enc.height
  | .encChannels => s.enc.channels.setWidth 32
  | .encColorspace => s.enc.colorspace.setWidth 32
  | .encPixidxLo => lo32 s.enc.i
  | .encPixidxHi => hi32 s.enc.i
  | .encOutlenLo => lo32 s.enc.outlen
  | .encOutlenHi => hi32 s.enc.outlen
  | .decCtrl => 0
  | .decStatus => decStatus s.dec
  | .decLenLo => lo32 s.dec.len
  | .decLenHi => hi32 s.dec.len
  | .decWidth => s.dec.hdrWidth
  | .decHeight => s.dec.hdrHeight
  | .decChannels => s.dec.hdrChannels.setWidth 32
  | .decColorspace => s.dec.hdrColorspace.setWidth 32
  | .decPosLo => lo32 s.dec.pos
  | .decPosHi => hi32 s.dec.pos
  | .decPixcntLo => lo32 s.dec.pixcnt
  | .decPixcntHi => hi32 s.dec.pixcnt

/-- ENC's counters are settled for the host: no pass has begun since reset, or the host has read its end (R76). -/
def encSettled (s : State) : Bool := s.enc.phase == .idle || (encEnded s.enc && s.encSeen)

/-- DEC's counters and header registers are settled for the host (R76). -/
def decSettled (s : State) : Bool := s.dec.phase == .idle || (decEnded s.dec && s.decSeen)

/-- A read of this register is guaranteed its current value (R76): a register a pass writes, once it is settled;
any other, always. -/
def regSettled (r : Reg) (s : State) : Bool :=
  match r with
  | .encPixidxLo => encSettled s
  | .encPixidxHi => encSettled s
  | .encOutlenLo => encSettled s
  | .encOutlenHi => encSettled s
  | .decWidth => decSettled s
  | .decHeight => decSettled s
  | .decChannels => decSettled s
  | .decColorspace => decSettled s
  | .decPosLo => decSettled s
  | .decPosHi => decSettled s
  | .decPixcntLo => decSettled s
  | .decPixcntHi => decSettled s
  | .encCtrl => true
  | .encStatus => true
  | .encWidth => true
  | .encHeight => true
  | .encChannels => true
  | .encColorspace => true
  | .decCtrl => true
  | .decStatus => true
  | .decLenLo => true
  | .decLenHi => true

/-- The host's read of STATUS with DONE = 1 or ERR = 1 orders its later reads after the pass (R76); with DONE = 1 the output of
the pass is guaranteed to it too. -/
def acquire (r : Reg) (s : State) : State :=
  match r with
  | .encStatus =>
    { s with
      encSeen := s.encSeen || encEnded s.enc
      outValid := if s.enc.phase == .done then s.enc.outlen else s.outValid }
  | .decStatus =>
    { s with
      decSeen := s.decSeen || decEnded s.dec
      pixOutValid := if s.dec.phase == .done then s.dec.pixcnt else s.pixOutValid }
  | _ => s

/-- What a read returned, recorded. -/
def reply (a : Reply) (s : State) : State := { s with replies := a :: s.replies }

/-- The bits of a register that are not reserved (R38 to R52); a reserved bit reads 0 in every state (R37, D33). -/
def implementedBits (r : Reg) : Word :=
  match r with
  | .encCtrl | .decCtrl => 0
  | .encStatus | .decStatus => 0x00000FF7
  | .encChannels | .encColorspace | .decChannels | .decColorspace => 0x000000FF
  | .encWidth | .encHeight | .encPixidxLo | .encPixidxHi | .encOutlenLo | .encOutlenHi => 0xFFFFFFFF
  | .decLenLo | .decLenHi | .decWidth | .decHeight | .decPosLo | .decPosHi | .decPixcntLo | .decPixcntHi => 0xFFFFFFFF

/-- The number of the pass whose steps write the register. -/
def regPass (r : Reg) (s : State) : Nat :=
  match r with
  | .encCtrl | .encStatus | .encWidth | .encHeight | .encChannels | .encColorspace => s.encPass
  | .encPixidxLo | .encPixidxHi | .encOutlenLo | .encOutlenHi => s.encPass
  | .decCtrl | .decStatus | .decLenLo | .decLenHi | .decWidth | .decHeight | .decChannels | .decColorspace => s.decPass
  | .decPosLo | .decPosHi | .decPixcntLo | .decPixcntHi => s.decPass

/-- The counter or header field behind a register: for a half of a pair the whole 64 bits (R57), else what it holds. -/
def regField (r : Reg) (s : State) : Index :=
  match r with
  | .encPixidxLo | .encPixidxHi => s.enc.i
  | .encOutlenLo | .encOutlenHi => s.enc.outlen
  | .decLenLo | .decLenHi => s.dec.len
  | .decPosLo | .decPosHi => s.dec.pos
  | .decPixcntLo | .decPixcntHi => s.dec.pixcnt
  | .encCtrl | .encStatus | .encWidth | .encHeight | .encChannels | .encColorspace => (regValue r s).setWidth 64
  | .decCtrl | .decStatus | .decWidth | .decHeight | .decChannels | .decColorspace => (regValue r s).setWidth 64

/-- What a read returns before R76 settles the register: a free value in its implemented bits, the same at every read for as
long as no step changes the register or the pair it is a half of (R57, spec/20_memory.md R70; log 6). -/
def unsettledValue (offset : Nat) (r : Reg) (s : State) : Word :=
  Config.freeWord offset (regPass r s) (regField r s) &&& implementedBits r

/-- What a whole-word read of a register returns (R37): its value, or a free one before R76 settles it. -/
def readValue (offset : Nat) (r : Reg) (s : State) : Word :=
  if regSettled r s then regValue r s else unsettledValue offset r s

/-- A whole-word read (R37): no side effect on the block (spec/20_memory.md R70). -/
def readReg (offset : Nat) (s : State) : State :=
  match regAt offset with
  | none => reply (.word offset 0) s
  | some r =>
    acquire r (reply (.word offset (readValue offset r s)) s)

/-- A configuration register of ENC written, unless ENC is busy (R56). -/
def writeEncConfig (f : Enc → Enc) (s : State) : State := if encBusy s.enc then s else { s with enc := f s.enc }

/-- A half of DEC_LEN written, unless DEC is busy (R56). -/
def writeDecLen (v : Index) (s : State) : State := if decBusy s.dec then s else { s with dec := { s.dec with len := v } }

/-- The ENC start command, ignored while busy (R258). -/
def encCommand (v : Word) (s : State) : Result :=
  if v.getLsbD 0 && !encBusy s.enc then encStart s else .next s

/-- The DEC start command, ignored while busy (R258). -/
def decCommand (v : Word) (s : State) : Result :=
  if v.getLsbD 0 && !decBusy s.dec then decStart s else .next s

/-- A whole-word write of a register (R37 to R56): read-only registers and reserved bits ignore it. -/
def writeReg (r : Reg) (v : Word) (s : State) : Result :=
  match r with
  | .encCtrl => encCommand v s
  | .encStatus => .next s
  | .encWidth => .next (writeEncConfig (fun e => { e with width := v }) s)
  | .encHeight => .next (writeEncConfig (fun e => { e with height := v }) s)
  | .encChannels => .next (writeEncConfig (fun e => { e with channels := v.extractLsb' 0 8 }) s)
  | .encColorspace => .next (writeEncConfig (fun e => { e with colorspace := v.extractLsb' 0 8 }) s)
  | .encPixidxLo => .next s
  | .encPixidxHi => .next s
  | .encOutlenLo => .next s
  | .encOutlenHi => .next s
  | .decCtrl => decCommand v s
  | .decStatus => .next s
  | .decLenLo => .next (writeDecLen (hi32 s.dec.len ++ v) s)
  | .decLenHi => .next (writeDecLen (v ++ lo32 s.dec.len) s)
  | .decWidth => .next s
  | .decHeight => .next s
  | .decChannels => .next s
  | .decColorspace => .next s
  | .decPosLo => .next s
  | .decPosHi => .next s
  | .decPixcntLo => .next s
  | .decPixcntHi => .next s

/-- A whole-word write at an offset; a reserved offset ignores it (R37). -/
def writeAt (offset : Nat) (v : Word) (s : State) : Result :=
  match regAt offset with
  | none => .next s
  | some r => writeReg r v s

end Sys2Proof.Machine
end

