-- ==== Sys2Proof/Machine/HostMoves.lean ====
section
/-! DEFINITION. The host's moves and the platform's reset (spec/70_reset_and_hazards.md R270 to R286): every interaction of its
table, and the ones a model refuses. -/

namespace Sys2Proof.Machine

/-- Data placed at 64-bit indices: the last one exists (spec/20_memory.md R60). -/
def insideBuffer (start : Index) (n : Nat) : Bool := decide (start.toNat + n ≤ 2 ^ 64)

/-- Pixels placed in `PIXIN`, never during a pass of ENC (R280, K-16). -/
def placePixIn (start : Index) (ps : List Pixel) (s : State) : Result :=
  if encBusy s.enc then .refused .inputWhileBusy
  else if insideBuffer start ps.length then .next { s with pixIn := Memory.writeAll s.pixIn start.toNat ps }
  else .fault .outsideBuffer

/-- Bytes placed in `IN`, never during a pass of DEC (R281, K-16). -/
def placeIn (start : Index) (bs : List Byte) (s : State) : Result :=
  if decBusy s.dec then .refused .inputWhileBusy
  else if insideBuffer start bs.length then .next { s with inBuf := Memory.writeAll s.inBuf start.toNat bs }
  else .fault .outsideBuffer

/-- A new buffer for ENC's output, holding nothing (R274, R282, log 12). -/
def provideOut (room : Index) (s : State) : Result :=
  if encBusy s.enc then .refused .roomWhileBusy else .next { s with outBuf := [], outRoom := room, outValid := 0 }

/-- A new buffer for DEC's output, holding nothing (R275, R282, log 12). -/
def providePixOut (room : Index) (s : State) : Result :=
  if decBusy s.dec then .refused .roomWhileBusy else .next { s with pixOut := [], pixOutRoom := room, pixOutValid := 0 }

/-- The bytes ENC wrote handed to DEC as its `IN`: only after the host has read ENC's DONE, and not during a pass of DEC
(R281, R283). DESIGN CHOICE (log 14): `IN` then holds those bytes and nothing else; what it held before is gone, and past the
bytes ENC wrote, where K-14 allows any value, it holds no value. -/
def outToIn (s : State) : Result :=
  if decBusy s.dec then .refused .inputWhileBusy
  else if s.outValid = 0 then .refused .outputNotReady
  else .next { s with inBuf := s.outBuf.filter (fun c => decide (c.1 < s.outValid.toNat)) }

/-- The byte of `OUT` the host is guaranteed, if any (R76, R249, K-13, K-14); power-on reset takes nothing from it (R270). -/
def settledOut (a : Index) (s : State) : Option Byte :=
  if a.toNat < s.outValid.toNat then Memory.read s.outBuf a.toNat else none

/-- The pixel of `PIXOUT` the host is guaranteed, if any (R76, R249, K-13, K-14); power-on reset takes nothing from it (R270). -/
def settledPixOut (i : Index) (s : State) : Option Pixel :=
  if i.toNat < s.pixOutValid.toNat then Memory.read s.pixOut i.toNat else none

/-- A free value of an output buffer has been used. -/
def useFree (s : State) : State := { s with free := s.free + 1 }

/-- The host reads a byte of `OUT`; where no rule gives it, a free value. -/
def readOut (a : Index) (s : State) : State :=
  match settledOut a s with
  | some b => reply (.outByte a b) s
  | none => reply (.outByte a (Config.freeByte s.free)) (useFree s)

/-- The host reads a pixel of `PIXOUT`; where no rule gives it, a free value. -/
def readPixOut (i : Index) (s : State) : State :=
  match settledPixOut i s with
  | some p => reply (.pixel i p) s
  | none => reply (.pixel i (Config.freePixel s.free)) (useFree s)

/-- Power-on reset (R270): both units as R55 says; no buffer is written, so an output whose DONE the host has read stays
guaranteed; of a pass that is not at its end the host is guaranteed nothing since its start (R271, K-14). -/
def powerOnReset (s : State) : State :=
  { s with enc := Enc.reset, dec := Dec.reset, encSeen := false, decSeen := false }

/-- One move of the host. -/
def perform (m : HostMove) (s : State) : Result :=
  match m with
  | .regRead .word offset => .next (readReg offset s)
  | .regRead .byte _ => .refused .partialAccess
  | .regRead .half _ => .refused .partialAccess
  | .regWrite .word offset v => writeAt offset v s
  | .regWrite .byte _ _ => .refused .partialAccess
  | .regWrite .half _ _ => .refused .partialAccess
  | .putPixIn start ps => placePixIn start ps s
  | .putIn start bs => placeIn start bs s
  | .provideOut room => provideOut room s
  | .providePixOut room => providePixOut room s
  | .outToIn => outToIn s
  | .readOut a => .next (readOut a s)
  | .readPixOut i => .next (readPixOut i s)
  | .powerOnReset => .next (powerOnReset s)

/-- The host's turn: its oldest pending move, if there is one. -/
def hostMove (s : State) : Result :=
  match s.host with
  | [] => .next s
  | m :: rest => perform m { s with host := rest }

end Sys2Proof.Machine
end

