-- ==== Sys2Proof/Machine/Schedule.lean ====
section
/-! DEFINITION. Which agent takes the next step (spec/00_scope.md R11, R12), and the stream the instruction fetch of a test
word needs. -/

namespace Sys2Proof.Machine

/-- The agent whose turn it is: the head of `turns`; when they have run out, a unit in a pass before the host, DEC
before ENC (log 2). -/
def nextAgent (s : State) : Agent :=
  match s.turns with
  | a :: _ => a
  | [] => if decBusy s.dec then .dec else if encBusy s.enc then .enc else .host

/-- The step of one agent. -/
def agentMove (a : Agent) (s : State) : Result :=
  match a with
  | .host => hostMove s
  | .enc => encMove s
  | .dec => decMove s

/-- Where DEC fetches its next opcode: `pos` in a pass that leaves room for the longest opcode and the marker, otherwise 14,
where every pass starts (spec/43_decoder.md R201). -/
def fetchPos (s : State) : Index :=
  if s.dec.phase = .ops ∧ s.dec.pos.toNat + 13 < 2 ^ 64 then s.dec.pos else 14

/-- A pixel counter from which the longest run still fits 64 bits. -/
def fetchPixcnt (s : State) : Index :=
  if s.dec.pixcnt.toNat + 62 < 2 ^ 64 then s.dec.pixcnt else 0

/-- The larger of two indices. -/
def maxIndex (x y : Index) : Index := if x.toNat ≤ y.toNat then y else x

/-- The machine in a pass of DEC, its turn next, these bytes at the opcode fetch, at least 13 bytes of stream from there,
and room in `PIXOUT` for the longest run (log 11). -/
def placeOpcode (bytes : List Byte) (s : State) : State :=
  let pos := fetchPos s
  let cnt := fetchPixcnt s
  { s with
    inBuf := Memory.writeAll s.inBuf pos.toNat bytes
    pixOutRoom := maxIndex s.pixOutRoom (cnt + 62)
    turns := .dec :: s.turns
    dec := { s.dec with phase := .ops, pos := pos, pixcnt := cnt, cfgLen := maxIndex s.dec.cfgLen (pos + 13) } }

end Sys2Proof.Machine
end

