-- ==== Sys2Proof/Machine/Step.lean ====
section
/-! DEFINITION. One step of the machine: one atomic step of one agent (spec/00_scope.md R12). -/

namespace Sys2Proof.Machine

/-- One step: the agent whose turn it is moves, and the turn is used up. -/
def step (s : State) : Host.Outcome State Fault Refusal := agentMove (nextAgent s) (popTurn s)

/-- `s` with the instruction of a table word where DEC fetches its next opcode, and a pass of DEC running it next (log 11). -/
def State.withFetchWord (s : State) (nbits w : Nat) : State := placeOpcode (tableBytes nbits w) s

end Sys2Proof.Machine
end

