-- ==== Sys2Proof/Safety.lean ====
section
/-! DEFINITION. What counts as a safe state and as the end of a pass, in the terms claims use: the invariants the spec states or
derives, the repetition of one unit's move, and what a finished pass shows (spec/70_reset_and_hazards.md R292). -/

namespace Sys2Proof.Machine

/-- The four buffers are in their canonical form. -/
def BuffersCanonical (s : State) : Prop :=
  Memory.wf s.pixIn = true ∧ Memory.wf s.outBuf = true ∧ Memory.wf s.inBuf = true ∧ Memory.wf s.pixOut = true

/-- R32: between steps `run` lies in [0, 61], and in a pass that has taken all its pixels it is 0; R25: `i` stops at `npix`. -/
def RunBounded (s : State) : Prop :=
  s.enc.run.toNat ≤ 61 ∧
  (s.enc.phase = .pix → s.enc.i.toNat ≤ s.enc.npix.toNat ∧ (s.enc.i = s.enc.npix → s.enc.run = 0))

/-- spec/40_hash_cache.md R125: every entry of ENC's cache is `(0,0,0,0)` or a pixel that hashes to its index. -/
def EncCacheSelfIndexed (s : State) : Prop :=
  ∀ k : BitVec 6, cacheRead s.enc.cache k = Pixel.zero ∨ pixelHash (cacheRead s.enc.cache k) = k

/-- In a pass of ENC: the latched channel count is 3 or 4 (spec/42_encoder.md R162), and with 3 channels the previous pixel
is opaque (R177). -/
def EncAlphaOpaque (s : State) : Prop :=
  s.enc.phase = .pix →
    (s.enc.cfgChannels = 3 ∨ s.enc.cfgChannels = 4) ∧ (s.enc.cfgChannels = 3 → s.enc.prev.a = 255)

/-- spec/60_exceptions.md R246, spec/10_state.md R36: the only error codes and details that stand, and they are 0 in every
phase but ERROR. -/
def ErrorRegistersLegal (s : State) : Prop :=
  (s.enc.phase = .error → s.enc.errcode = 2 ∧ s.enc.errdetail = 0) ∧
  (s.enc.phase ≠ .error → s.enc.errcode = 0 ∧ s.enc.errdetail = 0) ∧
  (s.dec.phase = .error →
    (s.dec.errcode = 1 ∧ (s.dec.errdetail = 1 ∨ s.dec.errdetail = 2 ∨ s.dec.errdetail = 3)) ∨
    (s.dec.errcode = 4 ∧ s.dec.errdetail = 1)) ∧
  (s.dec.phase ≠ .error → s.dec.errcode = 0 ∧ s.dec.errdetail = 0)

/-- spec/10_state.md R24, R51: in a pass of DEC `pos` lies in the opcode region or at its end; after DONE it is `LEN - 8`. -/
def PosInRegion (s : State) : Prop :=
  (s.dec.phase = .ops → 14 ≤ s.dec.pos.toNat ∧ s.dec.pos.toNat + 8 ≤ s.dec.cfgLen.toNat) ∧
  (s.dec.phase = .done → s.dec.pos.toNat + 8 = s.dec.cfgLen.toNat)

/-- The byte a pending run will cost. -/
def pendingRunByte (e : Enc) : Nat := if e.run = 0 then 0 else 1

/-- spec/42_encoder.md R179: what a pass of ENC has written, with a pending run's byte, is at most 14 + 5 bytes a pixel taken
(14 + 4 for 3 channels), and a finished pass at most 22 + 5 (22 + 4) a pixel. -/
def OutputBounded (s : State) : Prop :=
  (s.enc.phase = .pix →
    s.enc.outlen.toNat + pendingRunByte s.enc ≤ 14 + 5 * s.enc.i.toNat ∧
    (s.enc.cfgChannels = 3 → s.enc.outlen.toNat + pendingRunByte s.enc ≤ 14 + 4 * s.enc.i.toNat)) ∧
  (s.enc.phase = .done →
    s.enc.outlen.toNat ≤ 22 + 5 * s.enc.npix.toNat ∧
    (s.enc.cfgChannels = 3 → s.enc.outlen.toNat ≤ 22 + 4 * s.enc.npix.toNat))

/-- Every invariant together: what holds of the machine between steps. -/
structure Inv (s : State) : Prop where
  buffers : BuffersCanonical s
  run : RunBounded s
  cache : EncCacheSelfIndexed s
  alpha : EncAlphaOpaque s
  errors : ErrorRegistersLegal s
  pos : PosInRegion s
  output : OutputBounded s

/-- How many pixels an opcode yields (spec/43_decoder.md R204 to R209). -/
def yieldedCount (i : Instr) : Nat :=
  match i with
  | .run len => len
  | .rgba _ _ _ _ => 1
  | .rgb _ _ _ => 1
  | .index _ => 1
  | .diff _ _ _ => 1
  | .luma _ _ _ => 1

/-- The pixel an opcode yields in a state of DEC (spec/43_decoder.md R204 to R210). -/
def yieldedPixel (i : Instr) (d : Dec) : Pixel :=
  match i with
  | .rgba r g b a => ⟨r, g, b, a⟩
  | .rgb r g b => ⟨r, g, b, d.prev.a⟩
  | .index idx => cacheRead d.cache idx
  | .diff dr dg db => addDeltas d.prev dr dg db
  | .luma dg drDg dbDg => addDeltas d.prev (dg + drDg) dg (dg + dbDg)
  | .run _ => d.prev

/-- `n` moves of one agent, one after another, stopping at the first fault or refusal. -/
def moves (f : State → Result) : Nat → State → Result
  | 0, s => .next s
  | n + 1, s =>
    match f s with
    | .next t => moves f n t
    | .fault r => .fault r
    | .refused r => .refused r

/-- The stream a finished pass of ENC shows (R292): `OUT[0 .. outlen-1]`, for DONE only. -/
def encOutput (s : State) : Option (List Byte) :=
  if s.enc.phase = .done then Memory.readAll s.outBuf 0 s.enc.outlen.toNat else none

/-- The pixels a finished pass of DEC shows (R292): `PIXOUT[0 .. pixcnt-1]`, for DONE only. -/
def decOutput (s : State) : Option (List Pixel) :=
  if s.dec.phase = .done then Memory.readAll s.pixOut 0 s.dec.pixcnt.toNat else none

end Sys2Proof.Machine
end

