-- ==== Sys2Proof/Certificates/Slice0/Obligations.lean ====
section
/-! DEFINITION. The statements about the QOI core block, for the provers: one `def Obligations.<Name> : Prop` each, from the
numbered rules of spec/ named in its docstring. -/

open Sys2Proof Sys2Proof.Machine

namespace Sys2Proof.Claims

/-- From `s` to `t` DEC produced the pixel `p` `n` times and moved `len` bytes on (spec/43_decoder.md R211, R203): the pixels
stand in `PIXOUT` at the indices from `pixcnt` on, every other entry of `PIXOUT` reads as before, the cache entry at the
pixel's hash is the pixel and the other 63 are as before, `prev` is the pixel; and NOTHING ELSE of the machine changed: not
ENC, not `IN`, `OUT`, `PIXIN`, not DEC's phase, latched length, header or error registers. -/
def Produced (len n : Nat) (p : Pixel) (s t : State) : Prop :=
  t.dec.prev = p ∧
  cacheRead t.dec.cache (pixelHash p) = p ∧
  (∀ k, k ≠ pixelHash p → cacheRead t.dec.cache k = cacheRead s.dec.cache k) ∧
  t.dec.pixcnt.toNat = s.dec.pixcnt.toNat + n ∧
  t.dec.pos = s.dec.pos + BitVec.ofNat 64 len ∧
  (∀ j, j < n → Memory.read t.pixOut (s.dec.pixcnt.toNat + j) = some p) ∧
  (∀ a, a < s.dec.pixcnt.toNat ∨ s.dec.pixcnt.toNat + n ≤ a → Memory.read t.pixOut a = Memory.read s.pixOut a) ∧
  t = { s with
        pixOut := t.pixOut
        dec := { s.dec with prev := t.dec.prev, cache := t.dec.cache, pixcnt := t.dec.pixcnt, pos := t.dec.pos } }

/-- From `s` to `t` ENC wrote the bytes `bs` at the offsets of `OUT` from `outlen` on (spec/00_scope.md R10) and every other
byte of `OUT` reads as before. -/
def Emitted (bs : List Byte) (s t : State) : Prop :=
  t.enc.outlen.toNat = s.enc.outlen.toNat + bs.length ∧
  (∀ k, k < bs.length → Memory.read t.outBuf (s.enc.outlen.toNat + k) = bs[k]?) ∧
  (∀ a, a < s.enc.outlen.toNat ∨ s.enc.outlen.toNat + bs.length ≤ a → Memory.read t.outBuf a = Memory.read s.outBuf a)

/-- It is DEC's turn: the next turn is its own, or no turn is set and it is in a pass (log 2). -/
def DecsTurn (s : State) : Prop := s.turns.head? = some .dec ∨ (s.turns = [] ∧ s.dec.phase = .ops)

/-- What DEC's start step leaves when a check of the header fails with this detail (spec/43_decoder.md R201, R202,
spec/60_exceptions.md R247). -/
def afterFormatError (d : BitVec 4) (s : State) : State :=
  { s with
    decSeen := false
    pixOutValid := 0
    decPass := s.decPass + 1
    dec := { s.dec with
      phase := .error
      cfgLen := s.dec.len
      prev := ⟨0, 0, 0, 255⟩
      cache := Vector.replicate 64 ⟨0, 0, 0, 0⟩
      pos := 0
      pixcnt := 0
      hdrWidth := 0
      hdrHeight := 0
      hdrChannels := 0
      hdrColorspace := 0
      errcode := 1
      errdetail := d } }

/-- A channel's delta as spec/42_encoder.md R169 gives it: with INT the plain integer difference, with WRAP8 the same modulo 256,
read in [-128, 127]. -/
def specDelta (mode : DeltaArith) (x y : Byte) : Int :=
  match mode with
  | .int => (x.toNat : Int) - y.toNat
  | .wrap8 => ((x.toNat : Int) - y.toNat + 128) % 256 - 128

/-- The priority of spec/42_encoder.md R180 (R168 to R173), as a relation: what the opcode of a pixel outside a run must be. -/
def Chosen (mode : DeltaArith) (cache : Cache) (prev px : Pixel) (op : Instr) : Prop :=
  let dr := specDelta mode px.r prev.r
  let dg := specDelta mode px.g prev.g
  let db := specDelta mode px.b prev.b
  let small : Prop := -2 ≤ dr ∧ dr ≤ 1 ∧ -2 ≤ dg ∧ dg ≤ 1 ∧ -2 ≤ db ∧ db ≤ 1
  let medium : Prop := -32 ≤ dg ∧ dg ≤ 31 ∧ -8 ≤ dr - dg ∧ dr - dg ≤ 7 ∧ -8 ≤ db - dg ∧ db - dg ≤ 7
  (cacheRead cache (pixelHash px) = px → op = .index (pixelHash px)) ∧
  (cacheRead cache (pixelHash px) ≠ px → px.a ≠ prev.a → op = .rgba px.r px.g px.b px.a) ∧
  (cacheRead cache (pixelHash px) ≠ px → px.a = prev.a → small → op = .diff dr dg db) ∧
  (cacheRead cache (pixelHash px) ≠ px → px.a = prev.a → ¬ small → medium → op = .luma dg (dr - dg) (db - dg)) ∧
  (cacheRead cache (pixelHash px) ≠ px → px.a = prev.a → ¬ small → ¬ medium → op = .rgb px.r px.g px.b)

/-- The pixel ENC encodes for a pixel of `PIXIN`: alpha 255 when the image has 3 channels (spec/42_encoder.md R164). -/
def asEncoded (channels : Byte) (p : Pixel) : Pixel := if channels = 3 then ⟨p.r, p.g, p.b, 255⟩ else p

/-- The bytes of a pending run before another opcode: its RUN byte, or none (spec/42_encoder.md R167). -/
def pendingBytes (e : Enc) : List Byte := if e.run = 0 then [] else [BitVec.ofNat 8 (0xC0 + (e.run.toNat - 1))]

/-- In `t` a whole-word read at this offset returns this word (spec/10_state.md R37). -/
def Reads (off : Nat) (v : Word) (t : State) : Prop :=
  ∃ u, perform (.regRead .word off) t = .next u ∧ u.replies = .word off v :: t.replies

/-- The opcode region of a stream in `IN` is these opcodes, one after another, and then at most one that is cut short. -/
def RegionIs (m : Memory Byte) (len : Nat) (ops : List Instr) : Prop :=
  ∃ rest e, Memory.readAll m 14 (len - 22) = some (ops.flatMap encode ++ rest) ∧
    (∀ i ∈ ops, i.wf = true) ∧ decode rest = .error e

/-- How many pixels these opcodes yield together (spec/43_decoder.md R204 to R209). -/
def totalYield (ops : List Instr) : Nat := (ops.map yieldedCount).sum

/-- The DEC side of a round trip: what ENC wrote is DEC's input, its length is in DEC_LEN, and `PIXOUT` is a new buffer. -/
def handOver (room : Index) (t : State) : State :=
  { t with
    inBuf := t.outBuf.filter (fun c => decide (c.1 < t.enc.outlen.toNat))
    pixOut := []
    pixOutRoom := room
    dec := { t.dec with len := t.enc.outlen } }

end Sys2Proof.Claims

open Sys2Proof.Claims

/-! ## Encoding -/

/-- R100, R101: decoding the bytes the encoder writes for a well-formed instruction gives the instruction back, with every
operand at every value the encoding admits, and leaves the bytes after it alone. -/
def Obligations.DecodingUndoesEncoding : Prop :=
  ∀ (i : Instr) (rest : List Byte), i.wf = true → decode (encode i ++ rest) = .ok (i, rest)

/-- R100 to R105: whatever bytes the decoder accepts, the instruction it reads is well-formed and its encoding is exactly the
bytes it took ("disassembly then assembly is the identity on every opcode"). -/
def Obligations.EncodingUndoesDecoding : Prop :=
  ∀ (bytes rest : List Byte) (i : Instr), decode bytes = .ok (i, rest) → i.wf = true ∧ encode i ++ rest = bytes

/-- R97: the length of an opcode from its first byte, for all 256 values; and the decoder takes exactly that many bytes
whenever they are there. -/
def Obligations.LengthFromFirstByte : Prop :=
  (∀ b0 : Byte, oplen b0 =
    if b0.toNat = 0xFF then 5 else if b0.toNat = 0xFE then 4
    else if 0x80 ≤ b0.toNat ∧ b0.toNat ≤ 0xBF then 2 else 1) ∧
  (∀ (b0 : Byte) (ops rest : List Byte), ops.length + 1 = oplen b0 →
    ∃ i, decode (b0 :: ops ++ rest) = .ok (i, rest))

/-- R99: the opcode map of the first byte. Every one of the 256 values is an opcode, with the payload the map gives. -/
def Obligations.FirstByteMap : Prop :=
  ∀ (b0 b1 b2 b3 b4 : Byte) (rest : List Byte),
    (b0.toNat ≤ 0x3F → decode (b0 :: rest) = .ok (.index (BitVec.ofNat 6 b0.toNat), rest)) ∧
    (0x40 ≤ b0.toNat → b0.toNat ≤ 0x7F → ∃ ur ug ub : Nat, ur < 4 ∧ ug < 4 ∧ ub < 4 ∧
      b0.toNat - 0x40 = ur * 16 + ug * 4 + ub ∧
      decode (b0 :: rest) = .ok (.diff (ur - 2) (ug - 2) (ub - 2), rest)) ∧
    (0x80 ≤ b0.toNat → b0.toNat ≤ 0xBF → ∃ urg ubg : Nat, urg < 16 ∧ ubg < 16 ∧ b1.toNat = urg * 16 + ubg ∧
      decode (b0 :: b1 :: rest) = .ok (.luma ((b0.toNat : Int) - 0x80 - 32) (urg - 8) (ubg - 8), rest)) ∧
    (0xC0 ≤ b0.toNat → b0.toNat ≤ 0xFD → decode (b0 :: rest) = .ok (.run (b0.toNat - 0xC0 + 1), rest)) ∧
    (b0.toNat = 0xFE → decode (b0 :: b1 :: b2 :: b3 :: rest) = .ok (.rgb b1 b2 b3, rest)) ∧
    (b0.toNat = 0xFF → decode (b0 :: b1 :: b2 :: b3 :: b4 :: rest) = .ok (.rgba b1 b2 b3 b4, rest))

/-- A few words written out from the encodings of R91 to R96, one a family. -/
def Obligations.WrittenOutWordsDecode : Prop :=
  decode [0b11111111, 10, 20, 30, 255] = .ok (.rgba 10 20 30 255, []) ∧
  decode [0b11111110, 200, 10, 10] = .ok (.rgb 200 10 10, []) ∧
  decode [0b00001011] = .ok (.index 11, []) ∧
  decode [0b01110011] = .ok (.diff 1 (-2) 1, []) ∧
  decode [0b10100010, 0b01111001] = .ok (.luma 2 (-1) 1, []) ∧
  decode [0b11111101] = .ok (.run 62, [])

/-- R105: the assembler refuses an operand outside its range rather than wrapping it, and what it accepts decodes back. -/
def Obligations.AssemblerRefusesRatherThanWraps : Prop :=
  (∀ dr dg db : Int, (assembleLine (.op (.diff dr dg db)) = none ↔
    ¬ (-2 ≤ dr ∧ dr ≤ 1 ∧ -2 ≤ dg ∧ dg ≤ 1 ∧ -2 ≤ db ∧ db ≤ 1))) ∧
  (∀ dg x y : Int, (assembleLine (.op (.luma dg x y)) = none ↔
    ¬ (-32 ≤ dg ∧ dg ≤ 31 ∧ -8 ≤ x ∧ x ≤ 7 ∧ -8 ≤ y ∧ y ≤ 7))) ∧
  (∀ len : Nat, (assembleLine (.op (.run len)) = none ↔ ¬ (1 ≤ len ∧ len ≤ 62))) ∧
  (∀ w h c s : Nat, (assembleLine (.header w h c s) = none ↔ ¬ (w < 2 ^ 32 ∧ h < 2 ^ 32 ∧ c < 256 ∧ s < 256))) ∧
  (∀ (i : Instr) (bytes : List Byte), assembleLine (.op i) = some bytes → decode bytes = .ok (i, []))

/-! ## Words, pixels, hash, cache -/

/-- R8: a pixel packed as `r || g || b || a`, red in bits [31:24] and alpha in bits [7:0]; word equality and component-wise
equality coincide. -/
def Obligations.PixelWordEqualityIsComponentwise : Prop :=
  ∀ p q : Pixel,
    (pixelWord p).toNat = p.r.toNat * 2 ^ 24 + p.g.toNat * 2 ^ 16 + p.b.toNat * 2 ^ 8 + p.a.toNat ∧
    (pixelWord p = pixelWord q ↔ p.r = q.r ∧ p.g = q.g ∧ p.b = q.b ∧ p.a = q.a) ∧
    wordPixel (pixelWord p) = p

/-- R142: reading back the four bytes `write32` wrote gives the value written; R140: its bytes are most significant first
and no other byte changes. -/
def Obligations.Read32UndoesWrite32 : Prop :=
  ∀ (m : Memory Byte) (addr : Nat) (v : Word),
    read32 (write32 m addr v) addr = some v ∧
    (∀ k, k < 4 → (Memory.read (write32 m addr v) (addr + k)).map BitVec.toNat = some (v.toNat / 256 ^ (3 - k) % 256)) ∧
    (∀ a, a < addr ∨ addr + 4 ≤ a → Memory.read (write32 m addr v) a = Memory.read m a)

/-- R120: the hash is the weighted sum modulo 64, with the rule's own values. -/
def Obligations.HashIsWeightedSum : Prop :=
  (∀ p : Pixel, (pixelHash p).toNat = (3 * p.r.toNat + 5 * p.g.toNat + 7 * p.b.toNat + 11 * p.a.toNat) % 64) ∧
  pixelHash ⟨0, 0, 0, 0⟩ = 0 ∧ pixelHash ⟨0, 0, 0, 255⟩ = 53 ∧ pixelHash ⟨255, 255, 255, 255⟩ = 38 ∧ pixelHash ⟨10, 10, 10, 255⟩ = 11

/-- R123: a cache write stands at the pixel's hash, whatever the entry held, and the other 63 entries are unchanged. -/
def Obligations.CacheWriteTouchesOneEntry : Prop :=
  ∀ (c : Cache) (p : Pixel),
    cacheRead (cacheWrite c p) (pixelHash p) = p ∧
    ∀ k : BitVec 6, k ≠ pixelHash p → cacheRead (cacheWrite c p) k = cacheRead c k

/-- R124: after a pass's start, in either unit, the one entry that equals a pixel hashing to its own index is entry 0; so the
first pixel ENC can find in the cache is `(0,0,0,0)`. -/
def Obligations.FreshCacheHoldsOneSelfHashedEntry : Prop :=
  (∀ s t : State, encStart s = .next t →
    (∀ k, pixelHash (cacheRead t.enc.cache k) = k ↔ k = 0) ∧
    ∀ px, cacheRead t.enc.cache (pixelHash px) = px ↔ px = ⟨0, 0, 0, 0⟩) ∧
  (∀ s t : State, decStart s = .next t → ∀ k, pixelHash (cacheRead t.dec.cache k) = k ↔ k = 0)

/-- R30, R31, R272: whatever the previous pass left, a start step of either unit sets every cache entry to `(0,0,0,0)` and
`prev` to `(0,0,0,255)`, and ENC's `run` to 0. -/
def Obligations.EveryStartReinitializes : Prop :=
  (∀ s t : State, encStart s = .next t →
    (∀ k, cacheRead t.enc.cache k = ⟨0, 0, 0, 0⟩) ∧ t.enc.prev = ⟨0, 0, 0, 255⟩ ∧ t.enc.run = 0) ∧
  (∀ s t : State, decStart s = .next t →
    (∀ k, cacheRead t.dec.cache k = ⟨0, 0, 0, 0⟩) ∧ t.dec.prev = ⟨0, 0, 0, 255⟩)

/-! ## The opcodes: result, frame and completion -/

/-- R209: RGBA takes its four operand bytes as the pixel, and completes wherever `PIXOUT` has room: it produces that pixel. -/
def Obligations.RgbaProducesItsBytes : Prop :=
  (∀ (r g b a : Byte) (rest : List Byte), decode (0xFF :: r :: g :: b :: a :: rest) = .ok (.rgba r g b a, rest)) ∧
  ∀ (r g b a : Byte) (s : State), s.dec.pixcnt.toNat + 1 ≤ s.pixOutRoom.toNat →
    ∃ t, exec (.rgba r g b a) s = .next t ∧ Produced 5 1 ⟨r, g, b, a⟩ s t

/-- R208: RGB takes three operand bytes and the previous alpha as the pixel, and completes wherever `PIXOUT` has room: it
produces that pixel. -/
def Obligations.RgbKeepsAlpha : Prop :=
  (∀ (r g b : Byte) (rest : List Byte), decode (0xFE :: r :: g :: b :: rest) = .ok (.rgb r g b, rest)) ∧
  ∀ (r g b : Byte) (s : State), s.dec.pixcnt.toNat + 1 ≤ s.pixOutRoom.toNat →
    ∃ t, exec (.rgb r g b) s = .next t ∧ Produced 4 1 ⟨r, g, b, s.dec.prev.a⟩ s t

/-- R204: INDEX takes bits [5:0] as a slot, and completes wherever `PIXOUT` has room: it produces the pixel in the slot; the
cache write goes to that pixel's hash, which need not be the slot. -/
def Obligations.IndexProducesCachedPixel : Prop :=
  (∀ (b0 : Byte) (rest : List Byte), b0.extractLsb' 6 2 = 0 →
    decode (b0 :: rest) = .ok (.index (b0.extractLsb' 0 6), rest)) ∧
  ∀ (idx : BitVec 6) (s : State), s.dec.pixcnt.toNat + 1 ≤ s.pixOutRoom.toNat →
    ∃ t, exec (.index idx) s = .next t ∧ Produced 1 1 (cacheRead s.dec.cache idx) s t

/-- R206, R210: DIFF takes bits [5:4], [3:2], [1:0], each less 2, as deltas, and completes wherever `PIXOUT` has room: each colour
channel is the previous one plus its delta modulo 256, alpha is the previous alpha. That `exec` does so for deltas outside
[-2, 1] too, which no byte encodes, is the model's choice (log 15). -/
def Obligations.DiffAddsModulo256 : Prop :=
  (∀ (b0 : Byte) (rest : List Byte), b0.extractLsb' 6 2 = 1 →
    decode (b0 :: rest) = .ok (.diff ((b0.extractLsb' 4 2).toNat - 2) ((b0.extractLsb' 2 2).toNat - 2)
      ((b0.extractLsb' 0 2).toNat - 2), rest)) ∧
  ∀ (dr dg db : Int) (s : State), s.dec.pixcnt.toNat + 1 ≤ s.pixOutRoom.toNat →
    ∃ t p, exec (.diff dr dg db) s = .next t ∧ Produced 1 1 p s t ∧
      (p.r.toNat : Int) = (s.dec.prev.r.toNat + dr) % 256 ∧
      (p.g.toNat : Int) = (s.dec.prev.g.toNat + dg) % 256 ∧
      (p.b.toNat : Int) = (s.dec.prev.b.toNat + db) % 256 ∧
      p.a = s.dec.prev.a

/-- R207, R210: LUMA takes bits [5:0] less 32 as the green delta and the nibbles of its second byte, each less 8, as residuals, and
completes wherever `PIXOUT` has room: green changes by `dg`, red and blue by `dg` plus their residuals, modulo 256, alpha is
the previous alpha. That `exec` does so for operands outside their ranges too, which no bytes encode, is the model's choice
(log 15). -/
def Obligations.LumaAddsResiduals : Prop :=
  (∀ (b0 b1 : Byte) (rest : List Byte), b0.extractLsb' 6 2 = 2 →
    decode (b0 :: b1 :: rest) = .ok (.luma ((b0.extractLsb' 0 6).toNat - 32) ((b1.extractLsb' 4 4).toNat - 8)
      ((b1.extractLsb' 0 4).toNat - 8), rest)) ∧
  ∀ (dg drDg dbDg : Int) (s : State), s.dec.pixcnt.toNat + 1 ≤ s.pixOutRoom.toNat →
    ∃ t p, exec (.luma dg drDg dbDg) s = .next t ∧ Produced 2 1 p s t ∧
      (p.r.toNat : Int) = (s.dec.prev.r.toNat + (dg + drDg)) % 256 ∧
      (p.g.toNat : Int) = (s.dec.prev.g.toNat + dg) % 256 ∧
      (p.b.toNat : Int) = (s.dec.prev.b.toNat + (dg + dbDg)) % 256 ∧
      p.a = s.dec.prev.a

/-- R205 with R211: RUN completes wherever `PIXOUT` has room for the whole run, and produces the previous pixel as it was
before the opcode, `len` times. -/
def Obligations.RunRepeatsPreviousPixel : Prop :=
  ∀ (len : Nat) (s : State), 1 ≤ len → len ≤ 62 → s.dec.pixcnt.toNat + len ≤ s.pixOutRoom.toNat →
    ∃ t, exec (.run len) s = .next t ∧ Produced 1 len s.dec.prev s t

/-- R282, K-15: without room for ALL the pixels of an opcode DEC is stuck, and this is the only way an opcode stops. That a
stuck unit is a named fault of the step is the model's choice (log 4). That `exec` does the same on terms outside the operand
ranges, which no bytes encode, is the model's choice too (log 15). -/
def Obligations.OpcodeStopsExactlyWithoutRoom : Prop :=
  ∀ (i : Instr) (s : State),
    (exec i s = .fault .pixOutRoom ↔ s.pixOutRoom.toNat < s.dec.pixcnt.toNat + yieldedCount i) ∧
    (∀ f, exec i s = .fault f → f = .pixOutRoom) ∧ (∀ r, exec i s ≠ .refused r)

/-! ## The decoder's steps -/

/-- R203: on DEC's turn, when the bytes at `pos` are those of a well-formed opcode that ends before the end marker, the step is
exactly that opcode's meaning (the turn used up; the advance of `pos` is part of the meaning). Whose turn it is, is the
model's choice (log 2). -/
def Obligations.StepRunsDecodedOpcode : Prop :=
  ∀ (s : State) (i : Instr), DecsTurn s → s.dec.phase = .ops → i.wf = true →
    (∀ k, k < (encode i).length → Memory.read s.inBuf (s.dec.pos.toNat + k) = (encode i)[k]?) →
    s.dec.pos.toNat + (encode i).length + 8 ≤ s.dec.cfgLen.toNat →
    step s = exec i { s with turns := s.turns.tail }

/-- R203, R243: an opcode whose length would carry it into the end marker raises CorruptOpcodeError (4) with detail TRUNCATED
(1); `pos` keeps the opcode's offset, no pixel is written, nothing else changes. Whose turn it is, is the model's choice
(log 2). -/
def Obligations.TruncatedOpcodeRaises : Prop :=
  ∀ (s : State) (b0 : Byte), DecsTurn s → s.dec.phase = .ops →
    Memory.read s.inBuf s.dec.pos.toNat = some b0 →
    s.dec.pos.toNat + 8 < s.dec.cfgLen.toNat → s.dec.cfgLen.toNat < s.dec.pos.toNat + oplen b0 + 8 →
    step s = .next { s with
      turns := s.turns.tail
      dec := { s.dec with phase := .error, errcode := 4, errdetail := 1 } }

/-- R216: the fetch never meets a byte it cannot classify, whatever the stream. -/
def Obligations.NoByteIsUnrecognized : Prop :=
  ∀ (m : Memory Byte) (pos len : Nat), fetch m pos len ≠ .unrecognized

/-- R212: when 8 bytes remain DEC's step is the finish step: DONE, and nothing else. Whose turn it is, is the model's choice
(log 2). -/
def Obligations.DecFinishSetsDone : Prop :=
  ∀ s : State, DecsTurn s → s.dec.phase = .ops → s.dec.pos.toNat + 8 = s.dec.cfgLen.toNat →
    step s = .next { s with turns := s.turns.tail, dec := { s.dec with phase := .done } }

/-- R202, R241: the header checks in order SHORT, MAGIC, MARKER, on a stream that is present (R281; the order of that check
against these is the model's choice, log 9); each leaves `pos`, `pixcnt` and every header register 0 and writes no pixel.
`decSeen`, `pixOutValid` and `decPass` are the model's own (log 7, log 6). -/
def Obligations.HeaderChecksInOrder : Prop :=
  ∀ s : State,
    (s.dec.len.toNat < 14 → decStart s = .next (afterFormatError 1 s)) ∧
    (14 ≤ s.dec.len.toNat → Memory.present s.inBuf s.dec.len.toNat = true →
      Memory.readAll s.inBuf 0 4 ≠ some [0x71, 0x6F, 0x69, 0x66] → decStart s = .next (afterFormatError 2 s)) ∧
    (14 ≤ s.dec.len.toNat → Memory.present s.inBuf s.dec.len.toNat = true →
      Memory.readAll s.inBuf 0 4 = some [0x71, 0x6F, 0x69, 0x66] →
      (s.dec.len.toNat < 22 ∨ Memory.readAll s.inBuf (s.dec.len.toNat - 8) 8 ≠ some [0, 0, 0, 0, 0, 0, 0, 1]) →
      decStart s = .next (afterFormatError 3 s))

/-- R201, R148: a stream that is present, framed right, and whose pixels fit 64 bits (R284: it keeps R275's bound, or its opcodes
yield fewer than 2^64 pixels) starts a pass: the header registers are the fields of the 14 bytes, `pos` is 14, the running
state is fresh, nothing is written. `decSeen`, `pixOutValid` and `decPass` are the model's own (log 7, log 6). -/
def Obligations.DecStartBeginsPass : Prop :=
  ∀ (s : State) (w h : Word) (c cs : Byte),
    22 ≤ s.dec.len.toNat →
    (62 * (s.dec.len.toNat - 22) < 2 ^ 64 ∨
      ∃ ops, RegionIs s.inBuf s.dec.len.toNat ops ∧ totalYield ops < 2 ^ 64) →
    Memory.present s.inBuf s.dec.len.toNat = true →
    Memory.readAll s.inBuf 0 14 = some (headerBytes w h c cs) →
    Memory.readAll s.inBuf (s.dec.len.toNat - 8) 8 = some [0, 0, 0, 0, 0, 0, 0, 1] →
    decStart s = .next { s with
      decSeen := false
      pixOutValid := 0
      decPass := s.decPass + 1
      dec := { s.dec with
        phase := .ops
        cfgLen := s.dec.len
        prev := ⟨0, 0, 0, 255⟩
        cache := Vector.replicate 64 ⟨0, 0, 0, 0⟩
        pos := 14
        pixcnt := 0
        hdrWidth := w
        hdrHeight := h
        hdrChannels := c
        hdrColorspace := cs
        errcode := 0
        errdetail := 0 } }

/-! ## The encoder's steps -/

/-- R162, R242: a channel count that is neither 3 nor 4 makes the start step raise ChannelError (2, detail 0) after the latch
and the initial state and before any byte. That it comes before the launch checks of R280 and R284 is the model's choice
(log 9). `encSeen`, `outValid` and `encPass` are the model's own (log 7, log 6). -/
def Obligations.BadChannelCountRaises : Prop :=
  ∀ s : State, s.enc.channels ≠ 3 → s.enc.channels ≠ 4 →
    ∃ n : Index, n.toNat = s.enc.width.toNat * s.enc.height.toNat ∧
      encStart s = .next { s with
        encSeen := false
        outValid := 0
        encPass := s.encPass + 1
        enc := { s.enc with
          phase := .error
          cfgWidth := s.enc.width
          cfgHeight := s.enc.height
          cfgChannels := s.enc.channels
          cfgColorspace := s.enc.colorspace
          npix := n
          prev := ⟨0, 0, 0, 255⟩
          run := 0
          cache := Vector.replicate 64 ⟨0, 0, 0, 0⟩
          i := 0
          outlen := 0
          errcode := 2
          errdetail := 0 } }

/-- R161, R163, R144: a legal start whose input is present, whose output fits 64 bits and whose header has room begins a pass:
configuration latched, the exact pixel count, the running state fresh, the 14 header bytes in `OUT`, and no other byte of
`OUT` and no other state of the machine changed, but for the model's own `encSeen`, `outValid` (log 7) and `encPass` (log 6). -/
def Obligations.EncStartWritesHeader : Prop :=
  ∀ s : State, s.enc.channels = 3 ∨ s.enc.channels = 4 →
    22 + 5 * (s.enc.width.toNat * s.enc.height.toNat) < 2 ^ 64 →
    Memory.present s.pixIn (s.enc.width.toNat * s.enc.height.toNat) = true → 14 ≤ s.outRoom.toNat →
    ∃ (t : State) (n : Index), encStart s = .next t ∧ n.toNat = s.enc.width.toNat * s.enc.height.toNat ∧
      Memory.readAll t.outBuf 0 14 = some (headerBytes s.enc.width s.enc.height s.enc.channels s.enc.colorspace) ∧
      (∀ a, 14 ≤ a → Memory.read t.outBuf a = Memory.read s.outBuf a) ∧
      t = { s with
        encSeen := false
        outValid := 0
        encPass := s.encPass + 1
        outBuf := t.outBuf
        enc := { s.enc with
          phase := .pix
          cfgWidth := s.enc.width
          cfgHeight := s.enc.height
          cfgChannels := s.enc.channels
          cfgColorspace := s.enc.colorspace
          npix := n
          prev := ⟨0, 0, 0, 255⟩
          run := 0
          cache := Vector.replicate 64 ⟨0, 0, 0, 0⟩
          i := 0
          outlen := 14
          errcode := 0
          errdetail := 0 } }

/-- R165, R166, R175: a pixel equal to `prev` extends the run and does nothing else, unless the run reaches 62 or the pixel is
the last: then one RUN byte `0xC0 | (len - 1)` is emitted and the run is 0. No cache and no `prev` write. -/
def Obligations.RunPixelIsAbsorbedOrFlushed : Prop :=
  ∀ (s : State) (p : Pixel), s.enc.phase = .pix → s.enc.i.toNat < s.enc.npix.toNat → s.enc.run.toNat ≤ 61 →
    Memory.read s.pixIn s.enc.i.toNat = some p → asEncoded s.enc.cfgChannels p = s.enc.prev →
    (s.enc.run.toNat < 61 → s.enc.i.toNat + 1 < s.enc.npix.toNat →
      encMove s = .next { s with enc := { s.enc with i := s.enc.i + 1, run := s.enc.run + 1 } }) ∧
    (s.enc.run.toNat = 61 ∨ s.enc.i.toNat + 1 = s.enc.npix.toNat →
      s.enc.outlen.toNat + 1 ≤ s.outRoom.toNat →
      ∃ t, encMove s = .next t ∧ Emitted [BitVec.ofNat 8 (0xC0 + s.enc.run.toNat)] s t ∧
        t = { s with
          outBuf := t.outBuf
          enc := { s.enc with i := s.enc.i + 1, run := 0, outlen := t.enc.outlen } })

/-- R164, R167 to R174, R180, R282: a pixel that differs from `prev` has one opcode, the one the priority gives. With room for
exactly its bytes it is encoded: first the pending run if there is one, then that opcode, then the cache and `prev` are the
pixel; nothing else changes. Without that room ENC is stuck (a named fault by the model's choice, log 4). -/
def Obligations.LiteralPixelEmitsChosenOpcode : Prop :=
  ∀ (s : State) (p px : Pixel), s.enc.phase = .pix → s.enc.i.toNat < s.enc.npix.toNat →
    s.enc.run.toNat ≤ 62 →
    Memory.read s.pixIn s.enc.i.toNat = some p → px = asEncoded s.enc.cfgChannels p → px ≠ s.enc.prev →
    ∃ op, Chosen s.deltaArith s.enc.cache s.enc.prev px op ∧
      (s.enc.outlen.toNat + (pendingBytes s.enc ++ encode op).length ≤ s.outRoom.toNat →
        ∃ t, encMove s = .next t ∧ Emitted (pendingBytes s.enc ++ encode op) s t ∧
          t.enc.prev = px ∧ cacheRead t.enc.cache (pixelHash px) = px ∧
          (∀ k, k ≠ pixelHash px → cacheRead t.enc.cache k = cacheRead s.enc.cache k) ∧
          t = { s with
            outBuf := t.outBuf
            enc := { s.enc with
              i := s.enc.i + 1, run := 0, prev := t.enc.prev, cache := t.enc.cache, outlen := t.enc.outlen } }) ∧
      (s.outRoom.toNat < s.enc.outlen.toNat + (pendingBytes s.enc ++ encode op).length →
        encMove s = .fault .outRoom)

/-- R169: with INT a channel's delta is the plain integer difference, pixel minus previous; with WRAP8 it is congruent to that
difference modulo 256 and lies in [-128, 127]. -/
def Obligations.DeltaIsPixelMinusPrevious : Prop :=
  ∀ x y : Byte,
    channelDelta .int x y = (x.toNat : Int) - y.toNat ∧
    -128 ≤ channelDelta .wrap8 x y ∧ channelDelta .wrap8 x y ≤ 127 ∧
    channelDelta .wrap8 x y % 256 = ((x.toNat : Int) - y.toNat) % 256

/-- R100, R169 to R173: whatever the pixel, the previous pixel, the cache and the delta mode, the opcode ENC chooses has every
operand inside its field. -/
def Obligations.ChosenOpcodeIsWellFormed : Prop :=
  ∀ (mode : DeltaArith) (cache : Cache) (prev px : Pixel), (selectOpcode mode cache prev px).wf = true

/-- R169, R210: in BOTH delta modes the opcode ENC chooses makes DEC produce the very pixel, from the same previous pixel and
any cache that holds the pixel wherever ENC's does. -/
def Obligations.ChosenOpcodeRebuildsPixel : Prop :=
  ∀ (mode : DeltaArith) (cache : Cache) (px : Pixel) (d : Dec),
    (cacheRead cache (pixelHash px) = px → cacheRead d.cache (pixelHash px) = px) →
    yieldedPixel (selectOpcode mode cache d.prev px) d = px

/-- R176, R150: with all pixels taken and room for it, ENC's step writes the end marker and enters DONE; nothing else changes. -/
def Obligations.EncFinishWritesMarker : Prop :=
  ∀ s : State, s.enc.phase = .pix → s.enc.i = s.enc.npix → s.enc.outlen.toNat + 8 ≤ s.outRoom.toNat →
    ∃ t, encMove s = .next t ∧ Emitted [0, 0, 0, 0, 0, 0, 0, 1] s t ∧
      t = { s with outBuf := t.outBuf, enc := { s.enc with phase := .done, outlen := t.enc.outlen } }

/-- R178: an image with no pixels gives the 22-byte stream of header and marker: start, then finish. -/
def Obligations.EmptyImageIsHeaderAndMarker : Prop :=
  ∀ s : State, s.enc.width = 0 ∨ s.enc.height = 0 → s.enc.channels = 3 ∨ s.enc.channels = 4 → 22 ≤ s.outRoom.toNat →
    ∃ t u, encStart s = .next t ∧ encMove t = .next u ∧ u.enc.phase = .done ∧ u.enc.outlen.toNat = 22 ∧
      encOutput u = some (headerBytes s.enc.width s.enc.height s.enc.channels s.enc.colorspace ++
        [0, 0, 0, 0, 0, 0, 0, 1])

/-! ## Where the units stop -/

/-- R181, R282, R281, K-15: ENC's pixel and finish steps and DEC's steps stop exactly when an input element is absent or the
output lacks room; never otherwise, and never with a refusal. (A pixel that differs from `prev`: LiteralPixelEmitsChosenOpcode;
an opcode: OpcodeStopsExactlyWithoutRoom.) That a stuck unit is a named fault is the model's choice (log 4). -/
def Obligations.UnitStepsStopExactly : Prop :=
  ∀ s : State,
    (encMove s = .fault .pixInAbsent ↔
      s.enc.phase = .pix ∧ s.enc.i.toNat < s.enc.npix.toNat ∧ Memory.read s.pixIn s.enc.i.toNat = none) ∧
    (∀ p, s.enc.phase = .pix → s.enc.i.toNat < s.enc.npix.toNat → s.enc.run.toNat ≤ 61 →
      Memory.read s.pixIn s.enc.i.toNat = some p → asEncoded s.enc.cfgChannels p = s.enc.prev →
      (encMove s = .fault .outRoom ↔
        (s.enc.run.toNat = 61 ∨ s.enc.i.toNat + 1 = s.enc.npix.toNat) ∧ s.outRoom.toNat < s.enc.outlen.toNat + 1)) ∧
    (s.enc.phase = .pix → s.enc.i = s.enc.npix →
      (encMove s = .fault .outRoom ↔ s.outRoom.toNat < s.enc.outlen.toNat + 8)) ∧
    (∀ f, encMove s = .fault f → f = .pixInAbsent ∨ f = .outRoom) ∧ (∀ r, encMove s ≠ .refused r) ∧
    (s.dec.phase = .ops → s.dec.pos.toNat + 8 < s.dec.cfgLen.toNat →
      (decMove s = .fault .inAbsent ↔
        Memory.read s.inBuf s.dec.pos.toNat = none ∨
        ∃ b0, Memory.read s.inBuf s.dec.pos.toNat = some b0 ∧
          s.dec.pos.toNat + oplen b0 + 8 ≤ s.dec.cfgLen.toNat ∧
          ∃ k, k < oplen b0 ∧ Memory.read s.inBuf (s.dec.pos.toNat + k) = none)) ∧
    (∀ f, decMove s = .fault f → f = .inAbsent ∨ f = .pixOutRoom) ∧ (∀ r, decMove s ≠ .refused r)

/-- R280, R281, R284, R282: a start whose input is not all present, or whose output length or pixel count would not fit 64 bits,
is refused; ENC's start without room for the header is stuck; a start stops in no other way. Where two of these meet, or one
meets an error of the start step, the order is the model's choice (log 9); the named fault is too (log 4). -/
def Obligations.StartsAreRefusedOrStuck : Prop :=
  ∀ s : State,
    (s.enc.channels = 3 ∨ s.enc.channels = 4 →
      (2 ^ 64 ≤ 22 + 5 * (s.enc.width.toNat * s.enc.height.toNat) → encStart s = .refused .launchTooLarge) ∧
      (22 + 5 * (s.enc.width.toNat * s.enc.height.toNat) < 2 ^ 64 →
        ((∃ a, a < s.enc.width.toNat * s.enc.height.toNat ∧ Memory.read s.pixIn a = none) →
          encStart s = .refused .launchInputAbsent) ∧
        (Memory.present s.pixIn (s.enc.width.toNat * s.enc.height.toNat) = true → s.outRoom.toNat < 14 →
          encStart s = .fault .outRoom))) ∧
    (∀ f, encStart s = .fault f → f = .outRoom) ∧
    (∀ r, encStart s = .refused r → r = .launchTooLarge ∨ r = .launchInputAbsent) ∧
    (14 ≤ s.dec.len.toNat → (∃ a, a < s.dec.len.toNat ∧ Memory.read s.inBuf a = none) →
      decStart s = .refused .launchInputAbsent) ∧
    (∀ (w h : Word) (c cs : Byte) (ops : List Instr), 22 ≤ s.dec.len.toNat →
      Memory.present s.inBuf s.dec.len.toNat = true →
      Memory.readAll s.inBuf 0 14 = some (headerBytes w h c cs) →
      Memory.readAll s.inBuf (s.dec.len.toNat - 8) 8 = some [0, 0, 0, 0, 0, 0, 0, 1] →
      RegionIs s.inBuf s.dec.len.toNat ops → 2 ^ 64 ≤ totalYield ops → decStart s = .refused .launchTooLarge) ∧
    (∀ f, decStart s ≠ .fault f) ∧
    (∀ r, decStart s = .refused r → r = .launchTooLarge ∨ r = .launchInputAbsent)

/-! ## Errors, commands, registers, reset -/

/-- R247, R240: taking an error sets the code, the detail and the phase of its unit and changes nothing else. -/
def Obligations.ErrorEntryRecordsKind : Prop :=
  ∀ (e : ErrorKind) (d : BitVec 4) (s : State),
    raiseError .enc e d s = { s with enc := { s.enc with errcode := e.code, errdetail := d, phase := .error } } ∧
    raiseError .dec e d s = { s with dec := { s.dec with errcode := e.code, errdetail := d, phase := .error } } ∧
    ErrorKind.format.code = 1 ∧ ErrorKind.channel.code = 2 ∧ ErrorKind.size.code = 3 ∧
    ErrorKind.corruptOpcode.code = 4 ∧ ErrorKind.io.code = 5

/-- R251, R248: a step of the machine takes a unit out of ERROR only by the host's start command for that unit or power-on
reset. -/
def Obligations.ErrorLeftOnlyByStartOrReset : Prop :=
  ∀ s t : State, step s = .next t →
    (s.enc.phase = .error → t.enc.phase ≠ .error →
      ∃ m rest, s.host = m :: rest ∧
        (m = .powerOnReset ∨ ∃ v : Word, m = .regWrite .word 0x00 v ∧ v.getLsbD 0 = true)) ∧
    (s.dec.phase = .error → t.dec.phase ≠ .error →
      ∃ m rest, s.host = m :: rest ∧
        (m = .powerOnReset ∨ ∃ v : Word, m = .regWrite .word 0x40 v ∧ v.getLsbD 0 = true))

/-- R258: START written to a busy unit is ignored; a write with START = 0 does nothing; otherwise START runs the start step. -/
def Obligations.StartCommandOnlyWhenNotBusy : Prop :=
  ∀ (v : Word) (s : State),
    (s.enc.phase = .pix → perform (.regWrite .word 0x00 v) s = .next s) ∧
    (s.dec.phase = .ops → perform (.regWrite .word 0x40 v) s = .next s) ∧
    (v.getLsbD 0 = false →
      perform (.regWrite .word 0x00 v) s = .next s ∧ perform (.regWrite .word 0x40 v) s = .next s) ∧
    (v.getLsbD 0 = true → s.enc.phase ≠ .pix → perform (.regWrite .word 0x00 v) s = encStart s) ∧
    (v.getLsbD 0 = true → s.dec.phase ≠ .ops → perform (.regWrite .word 0x40 v) s = decStart s)

/-- R39, R47: the STATUS words bit by bit; at most one of BUSY, DONE, ERR is set, none in IDLE. -/
def Obligations.StatusWordLayout : Prop :=
  (∀ e : Enc,
    (encStatus e).getLsbD 0 = decide (e.phase = .pix) ∧ (encStatus e).getLsbD 1 = decide (e.phase = .done) ∧
    (encStatus e).getLsbD 2 = decide (e.phase = .error) ∧ (encStatus e).getLsbD 3 = false ∧
    (encStatus e).extractLsb' 4 4 = e.errcode ∧ (encStatus e).extractLsb' 8 4 = e.errdetail ∧
    (encStatus e).extractLsb' 12 20 = 0) ∧
  (∀ d : Dec,
    (decStatus d).getLsbD 0 = decide (d.phase = .ops) ∧ (decStatus d).getLsbD 1 = decide (d.phase = .done) ∧
    (decStatus d).getLsbD 2 = decide (d.phase = .error) ∧ (decStatus d).getLsbD 3 = false ∧
    (decStatus d).extractLsb' 4 4 = d.errcode ∧ (decStatus d).extractLsb' 8 4 = d.errdetail ∧
    (decStatus d).extractLsb' 12 20 = 0)

/-- R56: a configuration write is ignored while its unit is busy and takes effect at once in every other phase, on the bits
the register has (R42, R43). -/
def Obligations.ConfigurationWritesIgnoredWhileBusy : Prop :=
  ∀ (v : Word) (s : State),
    (s.enc.phase = .pix → ∀ off ∈ [0x08, 0x0C, 0x10, 0x14], perform (.regWrite .word off v) s = .next s) ∧
    (s.dec.phase = .ops → ∀ off ∈ [0x48, 0x4C], perform (.regWrite .word off v) s = .next s) ∧
    (s.enc.phase ≠ .pix →
      perform (.regWrite .word 0x08 v) s = .next { s with enc := { s.enc with width := v } } ∧
      perform (.regWrite .word 0x0C v) s = .next { s with enc := { s.enc with height := v } } ∧
      perform (.regWrite .word 0x10 v) s = .next { s with enc := { s.enc with channels := v.setWidth 8 } } ∧
      perform (.regWrite .word 0x14 v) s = .next { s with enc := { s.enc with colorspace := v.setWidth 8 } }) ∧
    (s.dec.phase ≠ .ops →
      (∃ n : Index, n.toNat = s.dec.len.toNat / 2 ^ 32 * 2 ^ 32 + v.toNat ∧
        perform (.regWrite .word 0x48 v) s = .next { s with dec := { s.dec with len := n } }) ∧
      (∃ n : Index, n.toNat = v.toNat * 2 ^ 32 + s.dec.len.toNat % 2 ^ 32 ∧
        perform (.regWrite .word 0x4C v) s = .next { s with dec := { s.dec with len := n } }))

/-- R37, K-10, K-11: an offset outside the map reads 0 and ignores writes, a read-only register ignores writes, a partial-word
access is refused; the reserved bits [31:8] of the four 8-bit registers read 0 in every state. That an offset inside the map but
no multiple of 4 counts as outside it is the model's reading (log 10). -/
def Obligations.ReservedAndReadOnlyIgnoreWrites : Prop :=
  ∀ (off : Nat) (v : Word) (s : State),
    (off ∈ [0x10, 0x14, 0x58, 0x5C] → ∃ b : Byte, Reads off (b.setWidth 32) s) ∧
    (0x6C < off ∨ off % 4 ≠ 0 ∨ (0x24 < off ∧ off < 0x40) →
      perform (.regRead .word off) s = .next { s with replies := .word off 0 :: s.replies } ∧
      perform (.regWrite .word off v) s = .next s) ∧
    (off ∈ [0x04, 0x18, 0x1C, 0x20, 0x24, 0x44, 0x50, 0x54, 0x58, 0x5C, 0x60, 0x64, 0x68, 0x6C] →
      perform (.regWrite .word off v) s = .next s) ∧
    (∀ size, size ≠ .word →
      perform (.regRead size off) s = .refused .partialAccess ∧
      perform (.regWrite size off v) s = .refused .partialAccess)

/-- R70: a register read always answers, the same read repeated answers the same, and it has no effect on the block: both units,
the four buffers and the room for them are as before. (Before R76 settles a register the value is free, log 6.) -/
def Obligations.RegisterReadsHaveNoSideEffect : Prop :=
  ∀ (off : Nat) (s : State), ∃ t v, perform (.regRead .word off) s = .next t ∧
    t.replies = .word off v :: s.replies ∧ Reads off v t ∧
    t.enc = s.enc ∧ t.dec = s.dec ∧ t.pixIn = s.pixIn ∧ t.outBuf = s.outBuf ∧ t.inBuf = s.inBuf ∧
    t.pixOut = s.pixOut ∧ t.outRoom = s.outRoom ∧ t.pixOutRoom = s.pixOutRoom ∧ t.deltaArith = s.deltaArith

/-- R38 to R43, R46 to R48: what a read of each register returns that R76 does not hold back: CTRL reads 0, STATUS its word, the
configuration registers what they hold, in every phase. -/
def Obligations.ControlAndConfigurationReadBack : Prop :=
  ∀ s : State,
    Reads 0x00 0 s ∧ Reads 0x40 0 s ∧ Reads 0x04 (encStatus s.enc) s ∧ Reads 0x44 (decStatus s.dec) s ∧
    Reads 0x08 s.enc.width s ∧ Reads 0x0C s.enc.height s ∧
    Reads 0x10 (BitVec.ofNat 32 s.enc.channels.toNat) s ∧ Reads 0x14 (BitVec.ofNat 32 s.enc.colorspace.toNat) s ∧
    Reads 0x48 (BitVec.ofNat 32 s.dec.len.toNat) s ∧ Reads 0x4C (BitVec.ofNat 32 (s.dec.len.toNat / 2 ^ 32)) s

/-- R76, R44, R45, R49 to R52: once the host has read STATUS with DONE = 1 or ERR = 1, its reads give the unit's counters and
header registers; after DONE = 1 they give the stream's bytes and the pixels too. How the model records that the host has read
STATUS is its reading of R76 (log 7). -/
def Obligations.ReadsAfterDoneAreGuaranteed : Prop :=
  ∀ s : State,
    (s.enc.phase = .done ∨ s.enc.phase = .error →
      ∃ t, perform (.regRead .word 0x04) s = .next t ∧
        t.replies = .word 0x04 (encStatus s.enc) :: s.replies ∧
        Reads 0x18 (BitVec.ofNat 32 s.enc.i.toNat) t ∧ Reads 0x1C (BitVec.ofNat 32 (s.enc.i.toNat / 2 ^ 32)) t ∧
        Reads 0x20 (BitVec.ofNat 32 s.enc.outlen.toNat) t ∧ Reads 0x24 (BitVec.ofNat 32 (s.enc.outlen.toNat / 2 ^ 32)) t ∧
        (s.enc.phase = .done →
          ∀ (a : Index) (b : Byte), a.toNat < s.enc.outlen.toNat → Memory.read s.outBuf a.toNat = some b →
            ∃ u, perform (.readOut a) t = .next u ∧ u.replies = .outByte a b :: t.replies)) ∧
    (s.dec.phase = .done ∨ s.dec.phase = .error →
      ∃ t, perform (.regRead .word 0x44) s = .next t ∧
        t.replies = .word 0x44 (decStatus s.dec) :: s.replies ∧
        Reads 0x50 s.dec.hdrWidth t ∧ Reads 0x54 s.dec.hdrHeight t ∧
        Reads 0x58 (BitVec.ofNat 32 s.dec.hdrChannels.toNat) t ∧ Reads 0x5C (BitVec.ofNat 32 s.dec.hdrColorspace.toNat) t ∧
        Reads 0x60 (BitVec.ofNat 32 s.dec.pos.toNat) t ∧ Reads 0x64 (BitVec.ofNat 32 (s.dec.pos.toNat / 2 ^ 32)) t ∧
        Reads 0x68 (BitVec.ofNat 32 s.dec.pixcnt.toNat) t ∧ Reads 0x6C (BitVec.ofNat 32 (s.dec.pixcnt.toNat / 2 ^ 32)) t ∧
        (s.dec.phase = .done →
          ∀ (i : Index) (p : Pixel), i.toNat < s.dec.pixcnt.toNat → Memory.read s.pixOut i.toNat = some p →
            ∃ u, perform (.readPixOut i) t = .next u ∧ u.replies = .pixel i p :: t.replies))

/-- R270, R76: power-on reset writes no buffer, so the output of a pass whose DONE = 1 the host has read is still guaranteed to it
after the reset, whatever else the reset clears. (Of a pass it cuts short nothing is: R271, K-14.) How the model records that
the host has read STATUS is its reading of R76 (log 7). -/
def Obligations.ResetKeepsGuaranteedOutput : Prop :=
  ∀ s : State,
    (s.enc.phase = .done →
      ∃ t u, perform (.regRead .word 0x04) s = .next t ∧ perform .powerOnReset t = .next u ∧ u.outBuf = s.outBuf ∧
        ∀ (a : Index) (b : Byte), a.toNat < s.enc.outlen.toNat → Memory.read s.outBuf a.toNat = some b →
          ∃ v, perform (.readOut a) u = .next v ∧ v.replies = .outByte a b :: u.replies) ∧
    (s.dec.phase = .done →
      ∃ t u, perform (.regRead .word 0x44) s = .next t ∧ perform .powerOnReset t = .next u ∧ u.pixOut = s.pixOut ∧
        ∀ (i : Index) (p : Pixel), i.toNat < s.dec.pixcnt.toNat → Memory.read s.pixOut i.toNat = some p →
          ∃ v, perform (.readPixOut i) u = .next v ∧ v.replies = .pixel i p :: u.replies)

/-- R270, R55: power-on reset, in any state, puts both units into their reset values and writes no buffer. -/
def Obligations.PowerOnResetValues : Prop :=
  ∀ s : State, ∃ t, perform .powerOnReset s = .next t ∧
    t.enc = { phase := .idle, width := 0, height := 0, channels := 0, colorspace := 0, cfgWidth := 0, cfgHeight := 0,
              cfgChannels := 0, cfgColorspace := 0, npix := 0, prev := ⟨0, 0, 0, 255⟩, run := 0,
              cache := Vector.replicate 64 ⟨0, 0, 0, 0⟩, i := 0, outlen := 0, errcode := 0, errdetail := 0 } ∧
    t.dec = { phase := .idle, len := 0, cfgLen := 0, prev := ⟨0, 0, 0, 255⟩,
              cache := Vector.replicate 64 ⟨0, 0, 0, 0⟩, pos := 0, pixcnt := 0, hdrWidth := 0, hdrHeight := 0,
              hdrChannels := 0, hdrColorspace := 0, errcode := 0, errdetail := 0 } ∧
    t.enc = State.reset.enc ∧ t.dec = State.reset.dec ∧
    t.pixIn = s.pixIn ∧ t.outBuf = s.outBuf ∧ t.inBuf = s.inBuf ∧ t.pixOut = s.pixOut ∧
    (∀ off, regAt off ≠ none → ∃ u, perform (.regRead .word off) t = .next u ∧ u.replies = .word off 0 :: t.replies)

/-- R280, R281, R282, K-16: while a unit is busy no move of the host changes that unit's buffers or the room for its output
(the model refuses such moves, log 4). -/
def Obligations.BuffersAreFixedDuringAPass : Prop :=
  ∀ s t : State, hostMove s = .next t →
    (s.enc.phase = .pix → t.pixIn = s.pixIn ∧ t.outBuf = s.outBuf ∧ t.outRoom = s.outRoom) ∧
    (s.dec.phase = .ops → t.inBuf = s.inBuf ∧ t.pixOut = s.pixOut ∧ t.pixOutRoom = s.pixOutRoom)

/-! ## Invariants that every step keeps -/

/-- Every invariant holds in the state after reset. -/
def Obligations.ResetMeetsEveryInvariant : Prop := Inv State.reset

/-- Every step keeps the four buffers in their canonical form. -/
def Obligations.EveryStepKeepsBuffersCanonical : Prop :=
  ∀ s t : State, BuffersCanonical s → step s = .next t → BuffersCanonical t

/-- R32, R25: every step keeps `run` in [0, 61] and 0 once all pixels are taken, and `i` at most `npix`. -/
def Obligations.EveryStepKeepsRunBounded : Prop :=
  ∀ s t : State, RunBounded s → step s = .next t → RunBounded t

/-- R125: every step keeps ENC's cache self-indexed. -/
def Obligations.EveryStepKeepsEncCacheSelfIndexed : Prop :=
  ∀ s t : State, EncCacheSelfIndexed s → step s = .next t → EncCacheSelfIndexed t

/-- R177: every step keeps the alpha of a 3-channel pass opaque, so no pixel of such a pass is ever given RGBA. -/
def Obligations.ThreeChannelPassNeverEmitsRgba : Prop :=
  (∀ s t : State, EncAlphaOpaque s → step s = .next t → EncAlphaOpaque t) ∧
  (∀ (s : State) (p : Pixel) (r g b a : Byte), EncAlphaOpaque s → s.enc.phase = .pix → s.enc.cfgChannels = 3 →
    selectOpcode s.deltaArith s.enc.cache s.enc.prev (implicitAlpha s.enc.cfgChannels p) ≠ .rgba r g b a)

/-- R246, R36, R216: every step keeps the error registers at a combination the spec lists, 0 outside ERROR; UNRECOGNIZED
never stands there. -/
def Obligations.EveryStepKeepsErrorRegistersLegal : Prop :=
  ∀ s t : State, ErrorRegistersLegal s → step s = .next t → ErrorRegistersLegal t

/-- R24, R51: every step keeps DEC's `pos` in the opcode region or at its end, so it never wraps, and at `LEN - 8` after DONE. -/
def Obligations.EveryStepKeepsPosInRegion : Prop :=
  ∀ s t : State, PosInRegion s → step s = .next t → PosInRegion t

/-- R179: every step keeps ENC's output within 5 bytes a pixel (4 for 3 channels) beside header and marker. -/
def Obligations.EveryStepKeepsOutputBounded : Prop :=
  ∀ s t : State, RunBounded s → EncAlphaOpaque s → OutputBounded s → step s = .next t → OutputBounded t

/-! ## The whole machine -/

/-- R11, R75: ENC and DEC share no state and their steps commute. -/
def Obligations.UnitStepsCommute : Prop :=
  ∀ s t u : State, encMove s = .next t → decMove s = .next u →
    (t.dec = s.dec ∧ t.inBuf = s.inBuf ∧ t.pixOut = s.pixOut) ∧
    (u.enc = s.enc ∧ u.pixIn = s.pixIn ∧ u.outBuf = s.outBuf) ∧
    ∃ v, decMove t = .next v ∧ encMove u = .next v

/-- R291: with its input present and room for R179's bound, a pass of ENC ends in DONE after exactly one step a pixel and the
finish step: it is still in its pass after every smaller number of steps. -/
def Obligations.EncPassEndsInDone : Prop :=
  ∀ s : State, s.enc.phase = .pix → RunBounded s → EncAlphaOpaque s → OutputBounded s →
    Memory.present s.pixIn s.enc.npix.toNat = true → 22 + 5 * s.enc.npix.toNat ≤ s.outRoom.toNat →
    (∀ m, m ≤ s.enc.npix.toNat - s.enc.i.toNat → ∃ t, moves encMove m s = .next t ∧ t.enc.phase = .pix) ∧
    ∃ t, moves encMove (s.enc.npix.toNat - s.enc.i.toNat + 1) s = .next t ∧ t.enc.phase = .done

/-- R291: with its input present and room for the longest runs, a pass of DEC ends in DONE or ERROR after at most one step for
each byte of the opcode region that is left, and one more. -/
def Obligations.DecPassEnds : Prop :=
  ∀ s : State, s.dec.phase = .ops → PosInRegion s → Memory.present s.inBuf s.dec.cfgLen.toNat = true →
    s.dec.pixcnt.toNat + 62 * (s.dec.cfgLen.toNat - 8 - s.dec.pos.toNat) ≤ s.pixOutRoom.toNat →
    ∃ n t, n ≤ s.dec.cfgLen.toNat - 8 - s.dec.pos.toNat + 1 ∧ moves decMove n s = .next t ∧
      (t.dec.phase = .done ∨ t.dec.phase = .error)

/-- R215: DEC's pass on the bytes an ENC pass wrote ends in DONE with ENC's configuration in its header registers, the same
pixel count, and the same pixels (alpha 255 for 3 channels), in either delta mode. -/
def Obligations.DecodingAnEncodedImageGivesItBack : Prop :=
  ∀ (s e t d : State) (room : Index),
    encStart s = .next e → e.enc.phase = .pix → moves encMove (e.enc.npix.toNat + 1) e = .next t →
    e.enc.npix.toNat ≤ room.toNat → decStart (handOver room t) = .next d →
    ∃ n u, moves decMove n d = .next u ∧ u.dec.phase = .done ∧
      u.dec.hdrWidth = s.enc.width ∧ u.dec.hdrHeight = s.enc.height ∧
      u.dec.hdrChannels = s.enc.channels ∧ u.dec.hdrColorspace = s.enc.colorspace ∧
      u.dec.pixcnt = e.enc.npix ∧
      ∀ j, j < e.enc.npix.toNat → ∃ p, Memory.read s.pixIn j = some p ∧
        Memory.read u.pixOut j = some (asEncoded s.enc.channels p)
end

