-- ==== Sys2Proof/Laws/Memory.lean ====
section
/-! SUPPORT. The laws of a buffer: what a read after a write gives, the canonical form, runs of elements, presence. -/

namespace Sys2Proof.Machine

namespace Memory

variable {α : Type}

@[simp] theorem read_nil (a : Nat) : Memory.read ([] : Memory α) a = none := rfl

theorem read_cons (b : Nat) (v : α) (t : Memory α) (a : Nat) :
    Memory.read ((b, v) :: t) a = if b = a then some v else Memory.read t a := rfl

@[simp] theorem read_write_self (m : Memory α) (a : Nat) (v : α) : Memory.read (Memory.write m a v) a = some v := by
  induction m with
  | nil => simp [Memory.write, Memory.read]
  | cons c t ih =>
    obtain ⟨b, w⟩ := c
    simp only [Memory.write]
    split_ifs <;> simp_all [Memory.read, eq_comm]

theorem read_write_of_ne (m : Memory α) {a b : Nat} (v : α) (h : b ≠ a) :
    Memory.read (Memory.write m a v) b = Memory.read m b := by
  induction m with
  | nil => simp [Memory.write, Memory.read, h.symm]
  | cons c t ih =>
    obtain ⟨d, w⟩ := c
    simp only [Memory.write]
    split_ifs with h1 h2
    · simp [Memory.read, h.symm]
    · subst h2; simp [Memory.read, h.symm]
    · simp [Memory.read, ih]

theorem read_write (m : Memory α) (a b : Nat) (v : α) :
    Memory.read (Memory.write m a v) b = if b = a then some v else Memory.read m b := by
  split_ifs with h
  · subst h; simp
  · exact read_write_of_ne m v h

theorem wfFrom_mono (m : Memory α) {lo hi : Nat} (h : lo ≤ hi) (hm : Memory.wfFrom hi m = true) :
    Memory.wfFrom lo m = true := by
  cases m with
  | nil => rfl
  | cons c t =>
    simp only [Memory.wfFrom, Bool.and_eq_true, decide_eq_true_eq] at hm ⊢
    exact ⟨by omega, hm.2⟩

theorem wfFrom_write (m : Memory α) (a : Nat) (v : α) {lo : Nat} (ha : lo ≤ a) (hm : Memory.wfFrom lo m = true) :
    Memory.wfFrom lo (Memory.write m a v) = true := by
  induction m generalizing lo with
  | nil => simp [Memory.write, Memory.wfFrom, ha]
  | cons c t ih =>
    obtain ⟨b, w⟩ := c
    simp only [Memory.wfFrom, Bool.and_eq_true, decide_eq_true_eq] at hm
    simp only [Memory.write]
    split_ifs with h1 h2
    · simp only [Memory.wfFrom, Bool.and_eq_true, decide_eq_true_eq]
      exact ⟨ha, by omega, hm.2⟩
    · simp only [Memory.wfFrom, Bool.and_eq_true, decide_eq_true_eq]
      exact ⟨ha, h2 ▸ hm.2⟩
    · simp only [Memory.wfFrom, Bool.and_eq_true, decide_eq_true_eq]
      exact ⟨hm.1, ih (by omega) hm.2⟩

/-- A write keeps the canonical form. -/
theorem wf_write (m : Memory α) (a : Nat) (v : α) (hm : Memory.wf m = true) : Memory.wf (Memory.write m a v) = true :=
  wfFrom_write m a v (Nat.zero_le a) hm

/-- Writing a run of elements keeps the canonical form. -/
theorem wf_writeAll (vs : List α) (m : Memory α) (a : Nat) (hm : Memory.wf m = true) :
    Memory.wf (Memory.writeAll m a vs) = true := by
  induction vs generalizing m a with
  | nil => exact hm
  | cons v t ih => exact ih _ _ (wf_write m a v hm)

theorem wfFrom_filter (m : Memory α) (p : Nat × α → Bool) {lo : Nat} (hm : Memory.wfFrom lo m = true) :
    Memory.wfFrom lo (m.filter p) = true := by
  induction m generalizing lo with
  | nil => rfl
  | cons c t ih =>
    obtain ⟨b, w⟩ := c
    simp only [Memory.wfFrom, Bool.and_eq_true, decide_eq_true_eq] at hm
    rw [List.filter_cons]
    split_ifs
    · simp only [Memory.wfFrom, Bool.and_eq_true, decide_eq_true_eq]
      exact ⟨hm.1, ih hm.2⟩
    · exact ih (wfFrom_mono t (by omega) hm.2)

/-- Keeping some of the entries keeps the canonical form. -/
theorem wf_filter (m : Memory α) (p : Nat × α → Bool) (hm : Memory.wf m = true) : Memory.wf (m.filter p) = true :=
  wfFrom_filter m p hm

/-- Below the canonical form's bound nothing is listed. -/
theorem read_of_lt_wfFrom (m : Memory α) {lo a : Nat} (hm : Memory.wfFrom lo m = true) (h : a < lo) :
    Memory.read m a = none := by
  induction m generalizing lo with
  | nil => rfl
  | cons c t ih =>
    obtain ⟨b, w⟩ := c
    simp only [Memory.wfFrom, Bool.and_eq_true, decide_eq_true_eq] at hm
    rw [read_cons, if_neg (by omega)]
    exact ih hm.2 (by omega)

/-- In the canonical form buffers that read alike are equal. -/
theorem ext_of_wfFrom (m n : Memory α) {lo : Nat} (hm : Memory.wfFrom lo m = true) (hn : Memory.wfFrom lo n = true)
    (h : ∀ a, Memory.read m a = Memory.read n a) : m = n := by
  induction m generalizing n lo with
  | nil =>
    cases n with
    | nil => rfl
    | cons d u =>
      obtain ⟨b, w⟩ := d
      have := h b
      simp [read_cons] at this
  | cons c t ih =>
    obtain ⟨a, v⟩ := c
    cases n with
    | nil => have := h a; simp [read_cons] at this
    | cons d u =>
      obtain ⟨b, w⟩ := d
      simp only [Memory.wfFrom, Bool.and_eq_true, decide_eq_true_eq] at hm hn
      have hab : a = b := by
        rcases Nat.lt_trichotomy a b with hlt | heq | hlt
        · have := h a
          rw [read_cons, if_pos rfl, read_cons, if_neg (by omega), read_of_lt_wfFrom u hn.2 (by omega)] at this
          cases this
        · exact heq
        · have := h b
          rw [read_cons, if_neg (by omega), read_cons, if_pos rfl, read_of_lt_wfFrom t hm.2 (by omega)] at this
          cases this
      subst hab
      have hv : v = w := by have := h a; simpa [read_cons] using this
      subst hv
      congr 1
      refine ih u hm.2 hn.2 fun x => ?_
      by_cases hx : x < a + 1
      · rw [read_of_lt_wfFrom t hm.2 hx, read_of_lt_wfFrom u hn.2 hx]
      · have := h x
        rwa [read_cons, read_cons, if_neg (by omega), if_neg (by omega)] at this

/-- What a buffer reads as after a run of elements is written. -/
theorem read_writeAll (vs : List α) (m : Memory α) (a b : Nat) :
    Memory.read (Memory.writeAll m a vs) b =
      if a ≤ b ∧ b < a + vs.length then vs[b - a]? else Memory.read m b := by
  induction vs generalizing m a with
  | nil => simp [Memory.writeAll]
  | cons v t ih =>
    rw [Memory.writeAll, ih, List.length_cons]
    by_cases hb : b = a
    · subst hb
      rw [if_neg (by omega), if_pos (by omega)]; simp
    · by_cases h : a + 1 ≤ b ∧ b < a + 1 + t.length
      · rw [if_pos h, if_pos (by omega)]
        obtain ⟨k, rfl⟩ : ∃ k, b = a + 1 + k := ⟨b - (a + 1), by omega⟩
        have h1 : a + 1 + k - (a + 1) = k := by omega
        have h2 : a + 1 + k - a = k + 1 := by omega
        rw [h1, h2]; rfl
      · rw [if_neg h, if_neg (by omega), read_write_of_ne _ _ hb]

theorem readAll_eq_some_iff (m : Memory α) (a n : Nat) (vs : List α) :
    Memory.readAll m a n = some vs ↔ vs.length = n ∧ ∀ k, k < n → Memory.read m (a + k) = vs[k]? := by
  induction n generalizing a vs with
  | zero =>
    simp only [Memory.readAll, Option.some.injEq]
    constructor
    · rintro rfl; exact ⟨rfl, fun k hk => absurd hk (by omega)⟩
    · rintro ⟨h, -⟩; exact (List.length_eq_zero_iff.mp h).symm
  | succ n ih =>
    rw [Memory.readAll]
    constructor
    · intro h
      split at h
      · rename_i v ws h1 h2
        cases h
        obtain ⟨h3, h4⟩ := (ih _ _).mp h2
        refine ⟨by simp [h3], fun k hk => ?_⟩
        cases k with
        | zero => simpa using h1
        | succ k =>
          have := h4 k (by omega)
          rw [show a + 1 + k = a + (k + 1) by omega] at this
          simpa using this
      · cases h
    · rintro ⟨h1, h2⟩
      cases vs with
      | nil => simp at h1
      | cons v ws =>
        have h3 := h2 0 (by omega)
        have h4 : Memory.readAll m (a + 1) n = some ws := by
          refine (ih _ _).mpr ⟨by simpa using h1, fun k hk => ?_⟩
          have := h2 (k + 1) (by omega)
          rw [show a + (k + 1) = a + 1 + k by omega] at this
          simpa using this
        rw [h4]
        simp only [Nat.add_zero, List.getElem?_cons_zero] at h3
        rw [h3]

/-- Elements written one after another read back. -/
theorem readAll_writeAll (vs : List α) (m : Memory α) (a : Nat) :
    Memory.readAll (Memory.writeAll m a vs) a vs.length = some vs := by
  rw [readAll_eq_some_iff]
  refine ⟨rfl, fun k hk => ?_⟩
  rw [read_writeAll, if_pos (by omega), show a + k - a = k by omega]

theorem readAll_congr {m n : Memory α} {a k : Nat} (h : ∀ x, a ≤ x → x < a + k → Memory.read m x = Memory.read n x) :
    Memory.readAll m a k = Memory.readAll n a k := by
  induction k generalizing a with
  | zero => rfl
  | succ k ih =>
    rw [Memory.readAll, Memory.readAll, h a (by omega) (by omega), ih fun x h1 h2 => h x (by omega) (by omega)]

theorem read_of_lt_filledTo (m : Memory α) {k a : Nat} (hk : k ≤ a) (h : a < Memory.filledTo k m) :
    ∃ v, Memory.read m a = some v := by
  induction m generalizing k with
  | nil => simp [Memory.filledTo] at h; omega
  | cons c t ih =>
    obtain ⟨b, w⟩ := c
    rw [Memory.filledTo] at h
    split_ifs at h with hb
    · subst hb
      by_cases hab : b = a
      · exact ⟨w, by simp [read_cons, hab]⟩
      · rw [read_cons, if_neg hab]
        exact ih (by omega) h
    · omega

/-- A buffer that is present below `n` holds a value at every index below `n`. -/
theorem read_of_present {m : Memory α} {n a : Nat} (h : Memory.present m n = true) (ha : a < n) :
    ∃ v, Memory.read m a = some v :=
  read_of_lt_filledTo m (Nat.zero_le a) (by simp only [Memory.present, decide_eq_true_eq] at h; omega)

theorem filledTo_ge (m : Memory α) (k : Nat) : k ≤ Memory.filledTo k m := by
  induction m generalizing k with
  | nil => exact Nat.le_refl k
  | cons c t ih =>
    obtain ⟨b, w⟩ := c
    rw [Memory.filledTo]
    split_ifs
    · exact Nat.le_trans (Nat.le_succ k) (ih (k + 1))
    · exact Nat.le_refl k

theorem le_filledTo_of_read (m : Memory α) {k n : Nat} (hm : Memory.wfFrom k m = true)
    (h : ∀ a, k ≤ a → a < n → ∃ v, Memory.read m a = some v) : n ≤ Memory.filledTo k m ∨ n ≤ k := by
  induction m generalizing k with
  | nil =>
    by_cases hn : n ≤ k
    · exact Or.inr hn
    · obtain ⟨v, hv⟩ := h k (Nat.le_refl k) (by omega); cases hv
  | cons c t ih =>
    obtain ⟨b, w⟩ := c
    simp only [Memory.wfFrom, Bool.and_eq_true, decide_eq_true_eq] at hm
    by_cases hn : n ≤ k
    · exact Or.inr hn
    · obtain ⟨v, hv⟩ := h k (Nat.le_refl k) (by omega)
      have hb : b = k := by
        by_contra hne
        rw [read_cons, if_neg hne, read_of_lt_wfFrom t hm.2 (by omega)] at hv
        cases hv
      subst hb
      rw [Memory.filledTo, if_pos rfl]
      left
      rcases ih hm.2 (fun a h1 h2 => by
        obtain ⟨v, hv⟩ := h a (by omega) h2
        rw [read_cons, if_neg (by omega)] at hv
        exact ⟨v, hv⟩) with h' | h'
      · exact h'
      · exact Nat.le_trans h' (filledTo_ge t (b + 1))

/-- In the canonical form, presence is exactly that every index below `n` holds a value. -/
theorem present_iff {m : Memory α} (hm : Memory.wf m = true) (n : Nat) :
    Memory.present m n = true ↔ ∀ a, a < n → ∃ v, Memory.read m a = some v := by
  constructor
  · exact fun h a ha => read_of_present h ha
  · intro h
    simp only [Memory.present, decide_eq_true_eq]
    rcases le_filledTo_of_read m hm (n := n) (fun a _ h2 => h a h2) with h' | h'
    · exact h'
    · omega

end Memory

end Sys2Proof.Machine
end

