-- ==== Sys2Proof/Laws/State.lean ====
section
/-! SUPPORT. What each named update of State leaves in each field, by definition: one lemma a field, for the simplifier. -/

namespace Sys2Proof.Machine

/-! ### `produce`: R211 -/

@[simp] theorem produce_enc (p : Pixel) (s : State) : (produce p s).enc = s.enc := rfl
@[simp] theorem produce_dec_phase (p : Pixel) (s : State) : (produce p s).dec.phase = s.dec.phase := rfl
@[simp] theorem produce_dec_len (p : Pixel) (s : State) : (produce p s).dec.len = s.dec.len := rfl
@[simp] theorem produce_dec_cfgLen (p : Pixel) (s : State) : (produce p s).dec.cfgLen = s.dec.cfgLen := rfl
@[simp] theorem produce_dec_prev (p : Pixel) (s : State) : (produce p s).dec.prev = p := rfl
@[simp] theorem produce_dec_cache (p : Pixel) (s : State) : (produce p s).dec.cache = cacheWrite s.dec.cache p := rfl
@[simp] theorem produce_dec_pos (p : Pixel) (s : State) : (produce p s).dec.pos = s.dec.pos := rfl
@[simp] theorem produce_dec_pixcnt (p : Pixel) (s : State) : (produce p s).dec.pixcnt = s.dec.pixcnt + 1 := rfl
@[simp] theorem produce_dec_hdrWidth (p : Pixel) (s : State) : (produce p s).dec.hdrWidth = s.dec.hdrWidth := rfl
@[simp] theorem produce_dec_hdrHeight (p : Pixel) (s : State) : (produce p s).dec.hdrHeight = s.dec.hdrHeight := rfl
@[simp] theorem produce_dec_hdrChannels (p : Pixel) (s : State) : (produce p s).dec.hdrChannels = s.dec.hdrChannels := rfl
@[simp] theorem produce_dec_hdrColorspace (p : Pixel) (s : State) : (produce p s).dec.hdrColorspace = s.dec.hdrColorspace := rfl
@[simp] theorem produce_dec_errcode (p : Pixel) (s : State) : (produce p s).dec.errcode = s.dec.errcode := rfl
@[simp] theorem produce_dec_errdetail (p : Pixel) (s : State) : (produce p s).dec.errdetail = s.dec.errdetail := rfl
@[simp] theorem produce_pixIn (p : Pixel) (s : State) : (produce p s).pixIn = s.pixIn := rfl
@[simp] theorem produce_outBuf (p : Pixel) (s : State) : (produce p s).outBuf = s.outBuf := rfl
@[simp] theorem produce_inBuf (p : Pixel) (s : State) : (produce p s).inBuf = s.inBuf := rfl
@[simp] theorem produce_pixOut (p : Pixel) (s : State) : (produce p s).pixOut = Memory.write s.pixOut s.dec.pixcnt.toNat p := rfl
@[simp] theorem produce_outRoom (p : Pixel) (s : State) : (produce p s).outRoom = s.outRoom := rfl
@[simp] theorem produce_pixOutRoom (p : Pixel) (s : State) : (produce p s).pixOutRoom = s.pixOutRoom := rfl
@[simp] theorem produce_encSeen (p : Pixel) (s : State) : (produce p s).encSeen = s.encSeen := rfl
@[simp] theorem produce_outValid (p : Pixel) (s : State) : (produce p s).outValid = s.outValid := rfl
@[simp] theorem produce_decSeen (p : Pixel) (s : State) : (produce p s).decSeen = s.decSeen := rfl
@[simp] theorem produce_pixOutValid (p : Pixel) (s : State) : (produce p s).pixOutValid = s.pixOutValid := rfl
@[simp] theorem produce_encPass (p : Pixel) (s : State) : (produce p s).encPass = s.encPass := rfl
@[simp] theorem produce_decPass (p : Pixel) (s : State) : (produce p s).decPass = s.decPass := rfl
@[simp] theorem produce_deltaArith (p : Pixel) (s : State) : (produce p s).deltaArith = s.deltaArith := rfl
@[simp] theorem produce_host (p : Pixel) (s : State) : (produce p s).host = s.host := rfl
@[simp] theorem produce_replies (p : Pixel) (s : State) : (produce p s).replies = s.replies := rfl
@[simp] theorem produce_turns (p : Pixel) (s : State) : (produce p s).turns = s.turns := rfl
@[simp] theorem produce_free (p : Pixel) (s : State) : (produce p s).free = s.free := rfl

/-! ### `advance`: R203 -/

@[simp] theorem advance_enc (n : Nat) (s : State) : (advance n s).enc = s.enc := rfl
@[simp] theorem advance_dec_phase (n : Nat) (s : State) : (advance n s).dec.phase = s.dec.phase := rfl
@[simp] theorem advance_dec_len (n : Nat) (s : State) : (advance n s).dec.len = s.dec.len := rfl
@[simp] theorem advance_dec_cfgLen (n : Nat) (s : State) : (advance n s).dec.cfgLen = s.dec.cfgLen := rfl
@[simp] theorem advance_dec_prev (n : Nat) (s : State) : (advance n s).dec.prev = s.dec.prev := rfl
@[simp] theorem advance_dec_cache (n : Nat) (s : State) : (advance n s).dec.cache = s.dec.cache := rfl
@[simp] theorem advance_dec_pos (n : Nat) (s : State) : (advance n s).dec.pos = s.dec.pos + BitVec.ofNat 64 n := rfl
@[simp] theorem advance_dec_pixcnt (n : Nat) (s : State) : (advance n s).dec.pixcnt = s.dec.pixcnt := rfl
@[simp] theorem advance_dec_hdrWidth (n : Nat) (s : State) : (advance n s).dec.hdrWidth = s.dec.hdrWidth := rfl
@[simp] theorem advance_dec_hdrHeight (n : Nat) (s : State) : (advance n s).dec.hdrHeight = s.dec.hdrHeight := rfl
@[simp] theorem advance_dec_hdrChannels (n : Nat) (s : State) : (advance n s).dec.hdrChannels = s.dec.hdrChannels := rfl
@[simp] theorem advance_dec_hdrColorspace (n : Nat) (s : State) : (advance n s).dec.hdrColorspace = s.dec.hdrColorspace := rfl
@[simp] theorem advance_dec_errcode (n : Nat) (s : State) : (advance n s).dec.errcode = s.dec.errcode := rfl
@[simp] theorem advance_dec_errdetail (n : Nat) (s : State) : (advance n s).dec.errdetail = s.dec.errdetail := rfl
@[simp] theorem advance_pixIn (n : Nat) (s : State) : (advance n s).pixIn = s.pixIn := rfl
@[simp] theorem advance_outBuf (n : Nat) (s : State) : (advance n s).outBuf = s.outBuf := rfl
@[simp] theorem advance_inBuf (n : Nat) (s : State) : (advance n s).inBuf = s.inBuf := rfl
@[simp] theorem advance_pixOut (n : Nat) (s : State) : (advance n s).pixOut = s.pixOut := rfl
@[simp] theorem advance_outRoom (n : Nat) (s : State) : (advance n s).outRoom = s.outRoom := rfl
@[simp] theorem advance_pixOutRoom (n : Nat) (s : State) : (advance n s).pixOutRoom = s.pixOutRoom := rfl
@[simp] theorem advance_encSeen (n : Nat) (s : State) : (advance n s).encSeen = s.encSeen := rfl
@[simp] theorem advance_outValid (n : Nat) (s : State) : (advance n s).outValid = s.outValid := rfl
@[simp] theorem advance_decSeen (n : Nat) (s : State) : (advance n s).decSeen = s.decSeen := rfl
@[simp] theorem advance_pixOutValid (n : Nat) (s : State) : (advance n s).pixOutValid = s.pixOutValid := rfl
@[simp] theorem advance_encPass (n : Nat) (s : State) : (advance n s).encPass = s.encPass := rfl
@[simp] theorem advance_decPass (n : Nat) (s : State) : (advance n s).decPass = s.decPass := rfl
@[simp] theorem advance_deltaArith (n : Nat) (s : State) : (advance n s).deltaArith = s.deltaArith := rfl
@[simp] theorem advance_host (n : Nat) (s : State) : (advance n s).host = s.host := rfl
@[simp] theorem advance_replies (n : Nat) (s : State) : (advance n s).replies = s.replies := rfl
@[simp] theorem advance_turns (n : Nat) (s : State) : (advance n s).turns = s.turns := rfl
@[simp] theorem advance_free (n : Nat) (s : State) : (advance n s).free = s.free := rfl

/-! ### `emit`: R10 -/

@[simp] theorem emit_enc_phase (b : Byte) (s : State) : (emit b s).enc.phase = s.enc.phase := rfl
@[simp] theorem emit_enc_width (b : Byte) (s : State) : (emit b s).enc.width = s.enc.width := rfl
@[simp] theorem emit_enc_height (b : Byte) (s : State) : (emit b s).enc.height = s.enc.height := rfl
@[simp] theorem emit_enc_channels (b : Byte) (s : State) : (emit b s).enc.channels = s.enc.channels := rfl
@[simp] theorem emit_enc_colorspace (b : Byte) (s : State) : (emit b s).enc.colorspace = s.enc.colorspace := rfl
@[simp] theorem emit_enc_cfgWidth (b : Byte) (s : State) : (emit b s).enc.cfgWidth = s.enc.cfgWidth := rfl
@[simp] theorem emit_enc_cfgHeight (b : Byte) (s : State) : (emit b s).enc.cfgHeight = s.enc.cfgHeight := rfl
@[simp] theorem emit_enc_cfgChannels (b : Byte) (s : State) : (emit b s).enc.cfgChannels = s.enc.cfgChannels := rfl
@[simp] theorem emit_enc_cfgColorspace (b : Byte) (s : State) : (emit b s).enc.cfgColorspace = s.enc.cfgColorspace := rfl
@[simp] theorem emit_enc_npix (b : Byte) (s : State) : (emit b s).enc.npix = s.enc.npix := rfl
@[simp] theorem emit_enc_prev (b : Byte) (s : State) : (emit b s).enc.prev = s.enc.prev := rfl
@[simp] theorem emit_enc_run (b : Byte) (s : State) : (emit b s).enc.run = s.enc.run := rfl
@[simp] theorem emit_enc_cache (b : Byte) (s : State) : (emit b s).enc.cache = s.enc.cache := rfl
@[simp] theorem emit_enc_i (b : Byte) (s : State) : (emit b s).enc.i = s.enc.i := rfl
@[simp] theorem emit_enc_outlen (b : Byte) (s : State) : (emit b s).enc.outlen = s.enc.outlen + 1 := rfl
@[simp] theorem emit_enc_errcode (b : Byte) (s : State) : (emit b s).enc.errcode = s.enc.errcode := rfl
@[simp] theorem emit_enc_errdetail (b : Byte) (s : State) : (emit b s).enc.errdetail = s.enc.errdetail := rfl
@[simp] theorem emit_dec (b : Byte) (s : State) : (emit b s).dec = s.dec := rfl
@[simp] theorem emit_pixIn (b : Byte) (s : State) : (emit b s).pixIn = s.pixIn := rfl
@[simp] theorem emit_outBuf (b : Byte) (s : State) : (emit b s).outBuf = Memory.write s.outBuf s.enc.outlen.toNat b := rfl
@[simp] theorem emit_inBuf (b : Byte) (s : State) : (emit b s).inBuf = s.inBuf := rfl
@[simp] theorem emit_pixOut (b : Byte) (s : State) : (emit b s).pixOut = s.pixOut := rfl
@[simp] theorem emit_outRoom (b : Byte) (s : State) : (emit b s).outRoom = s.outRoom := rfl
@[simp] theorem emit_pixOutRoom (b : Byte) (s : State) : (emit b s).pixOutRoom = s.pixOutRoom := rfl
@[simp] theorem emit_encSeen (b : Byte) (s : State) : (emit b s).encSeen = s.encSeen := rfl
@[simp] theorem emit_outValid (b : Byte) (s : State) : (emit b s).outValid = s.outValid := rfl
@[simp] theorem emit_decSeen (b : Byte) (s : State) : (emit b s).decSeen = s.decSeen := rfl
@[simp] theorem emit_pixOutValid (b : Byte) (s : State) : (emit b s).pixOutValid = s.pixOutValid := rfl
@[simp] theorem emit_encPass (b : Byte) (s : State) : (emit b s).encPass = s.encPass := rfl
@[simp] theorem emit_decPass (b : Byte) (s : State) : (emit b s).decPass = s.decPass := rfl
@[simp] theorem emit_deltaArith (b : Byte) (s : State) : (emit b s).deltaArith = s.deltaArith := rfl
@[simp] theorem emit_host (b : Byte) (s : State) : (emit b s).host = s.host := rfl
@[simp] theorem emit_replies (b : Byte) (s : State) : (emit b s).replies = s.replies := rfl
@[simp] theorem emit_turns (b : Byte) (s : State) : (emit b s).turns = s.turns := rfl
@[simp] theorem emit_free (b : Byte) (s : State) : (emit b s).free = s.free := rfl

/-! ### `encTake`: R164 -/

@[simp] theorem encTake_enc_phase (s : State) : (encTake s).enc.phase = s.enc.phase := rfl
@[simp] theorem encTake_enc_width (s : State) : (encTake s).enc.width = s.enc.width := rfl
@[simp] theorem encTake_enc_height (s : State) : (encTake s).enc.height = s.enc.height := rfl
@[simp] theorem encTake_enc_channels (s : State) : (encTake s).enc.channels = s.enc.channels := rfl
@[simp] theorem encTake_enc_colorspace (s : State) : (encTake s).enc.colorspace = s.enc.colorspace := rfl
@[simp] theorem encTake_enc_cfgWidth (s : State) : (encTake s).enc.cfgWidth = s.enc.cfgWidth := rfl
@[simp] theorem encTake_enc_cfgHeight (s : State) : (encTake s).enc.cfgHeight = s.enc.cfgHeight := rfl
@[simp] theorem encTake_enc_cfgChannels (s : State) : (encTake s).enc.cfgChannels = s.enc.cfgChannels := rfl
@[simp] theorem encTake_enc_cfgColorspace (s : State) : (encTake s).enc.cfgColorspace = s.enc.cfgColorspace := rfl
@[simp] theorem encTake_enc_npix (s : State) : (encTake s).enc.npix = s.enc.npix := rfl
@[simp] theorem encTake_enc_prev (s : State) : (encTake s).enc.prev = s.enc.prev := rfl
@[simp] theorem encTake_enc_run (s : State) : (encTake s).enc.run = s.enc.run := rfl
@[simp] theorem encTake_enc_cache (s : State) : (encTake s).enc.cache = s.enc.cache := rfl
@[simp] theorem encTake_enc_i (s : State) : (encTake s).enc.i = s.enc.i + 1 := rfl
@[simp] theorem encTake_enc_outlen (s : State) : (encTake s).enc.outlen = s.enc.outlen := rfl
@[simp] theorem encTake_enc_errcode (s : State) : (encTake s).enc.errcode = s.enc.errcode := rfl
@[simp] theorem encTake_enc_errdetail (s : State) : (encTake s).enc.errdetail = s.enc.errdetail := rfl
@[simp] theorem encTake_dec (s : State) : (encTake s).dec = s.dec := rfl
@[simp] theorem encTake_pixIn (s : State) : (encTake s).pixIn = s.pixIn := rfl
@[simp] theorem encTake_outBuf (s : State) : (encTake s).outBuf = s.outBuf := rfl
@[simp] theorem encTake_inBuf (s : State) : (encTake s).inBuf = s.inBuf := rfl
@[simp] theorem encTake_pixOut (s : State) : (encTake s).pixOut = s.pixOut := rfl
@[simp] theorem encTake_outRoom (s : State) : (encTake s).outRoom = s.outRoom := rfl
@[simp] theorem encTake_pixOutRoom (s : State) : (encTake s).pixOutRoom = s.pixOutRoom := rfl
@[simp] theorem encTake_encSeen (s : State) : (encTake s).encSeen = s.encSeen := rfl
@[simp] theorem encTake_outValid (s : State) : (encTake s).outValid = s.outValid := rfl
@[simp] theorem encTake_decSeen (s : State) : (encTake s).decSeen = s.decSeen := rfl
@[simp] theorem encTake_pixOutValid (s : State) : (encTake s).pixOutValid = s.pixOutValid := rfl
@[simp] theorem encTake_encPass (s : State) : (encTake s).encPass = s.encPass := rfl
@[simp] theorem encTake_decPass (s : State) : (encTake s).decPass = s.decPass := rfl
@[simp] theorem encTake_deltaArith (s : State) : (encTake s).deltaArith = s.deltaArith := rfl
@[simp] theorem encTake_host (s : State) : (encTake s).host = s.host := rfl
@[simp] theorem encTake_replies (s : State) : (encTake s).replies = s.replies := rfl
@[simp] theorem encTake_turns (s : State) : (encTake s).turns = s.turns := rfl
@[simp] theorem encTake_free (s : State) : (encTake s).free = s.free := rfl

/-! ### `encSetRun`: R165 to R167 -/

@[simp] theorem encSetRun_enc_phase (r : BitVec 6) (s : State) : (encSetRun r s).enc.phase = s.enc.phase := rfl
@[simp] theorem encSetRun_enc_width (r : BitVec 6) (s : State) : (encSetRun r s).enc.width = s.enc.width := rfl
@[simp] theorem encSetRun_enc_height (r : BitVec 6) (s : State) : (encSetRun r s).enc.height = s.enc.height := rfl
@[simp] theorem encSetRun_enc_channels (r : BitVec 6) (s : State) : (encSetRun r s).enc.channels = s.enc.channels := rfl
@[simp] theorem encSetRun_enc_colorspace (r : BitVec 6) (s : State) : (encSetRun r s).enc.colorspace = s.enc.colorspace := rfl
@[simp] theorem encSetRun_enc_cfgWidth (r : BitVec 6) (s : State) : (encSetRun r s).enc.cfgWidth = s.enc.cfgWidth := rfl
@[simp] theorem encSetRun_enc_cfgHeight (r : BitVec 6) (s : State) : (encSetRun r s).enc.cfgHeight = s.enc.cfgHeight := rfl
@[simp] theorem encSetRun_enc_cfgChannels (r : BitVec 6) (s : State) : (encSetRun r s).enc.cfgChannels = s.enc.cfgChannels := rfl
@[simp] theorem encSetRun_enc_cfgColorspace (r : BitVec 6) (s : State) : (encSetRun r s).enc.cfgColorspace = s.enc.cfgColorspace := rfl
@[simp] theorem encSetRun_enc_npix (r : BitVec 6) (s : State) : (encSetRun r s).enc.npix = s.enc.npix := rfl
@[simp] theorem encSetRun_enc_prev (r : BitVec 6) (s : State) : (encSetRun r s).enc.prev = s.enc.prev := rfl
@[simp] theorem encSetRun_enc_run (r : BitVec 6) (s : State) : (encSetRun r s).enc.run = r := rfl
@[simp] theorem encSetRun_enc_cache (r : BitVec 6) (s : State) : (encSetRun r s).enc.cache = s.enc.cache := rfl
@[simp] theorem encSetRun_enc_i (r : BitVec 6) (s : State) : (encSetRun r s).enc.i = s.enc.i := rfl
@[simp] theorem encSetRun_enc_outlen (r : BitVec 6) (s : State) : (encSetRun r s).enc.outlen = s.enc.outlen := rfl
@[simp] theorem encSetRun_enc_errcode (r : BitVec 6) (s : State) : (encSetRun r s).enc.errcode = s.enc.errcode := rfl
@[simp] theorem encSetRun_enc_errdetail (r : BitVec 6) (s : State) : (encSetRun r s).enc.errdetail = s.enc.errdetail := rfl
@[simp] theorem encSetRun_dec (r : BitVec 6) (s : State) : (encSetRun r s).dec = s.dec := rfl
@[simp] theorem encSetRun_pixIn (r : BitVec 6) (s : State) : (encSetRun r s).pixIn = s.pixIn := rfl
@[simp] theorem encSetRun_outBuf (r : BitVec 6) (s : State) : (encSetRun r s).outBuf = s.outBuf := rfl
@[simp] theorem encSetRun_inBuf (r : BitVec 6) (s : State) : (encSetRun r s).inBuf = s.inBuf := rfl
@[simp] theorem encSetRun_pixOut (r : BitVec 6) (s : State) : (encSetRun r s).pixOut = s.pixOut := rfl
@[simp] theorem encSetRun_outRoom (r : BitVec 6) (s : State) : (encSetRun r s).outRoom = s.outRoom := rfl
@[simp] theorem encSetRun_pixOutRoom (r : BitVec 6) (s : State) : (encSetRun r s).pixOutRoom = s.pixOutRoom := rfl
@[simp] theorem encSetRun_encSeen (r : BitVec 6) (s : State) : (encSetRun r s).encSeen = s.encSeen := rfl
@[simp] theorem encSetRun_outValid (r : BitVec 6) (s : State) : (encSetRun r s).outValid = s.outValid := rfl
@[simp] theorem encSetRun_decSeen (r : BitVec 6) (s : State) : (encSetRun r s).decSeen = s.decSeen := rfl
@[simp] theorem encSetRun_pixOutValid (r : BitVec 6) (s : State) : (encSetRun r s).pixOutValid = s.pixOutValid := rfl
@[simp] theorem encSetRun_encPass (r : BitVec 6) (s : State) : (encSetRun r s).encPass = s.encPass := rfl
@[simp] theorem encSetRun_decPass (r : BitVec 6) (s : State) : (encSetRun r s).decPass = s.decPass := rfl
@[simp] theorem encSetRun_deltaArith (r : BitVec 6) (s : State) : (encSetRun r s).deltaArith = s.deltaArith := rfl
@[simp] theorem encSetRun_host (r : BitVec 6) (s : State) : (encSetRun r s).host = s.host := rfl
@[simp] theorem encSetRun_replies (r : BitVec 6) (s : State) : (encSetRun r s).replies = s.replies := rfl
@[simp] theorem encSetRun_turns (r : BitVec 6) (s : State) : (encSetRun r s).turns = s.turns := rfl
@[simp] theorem encSetRun_free (r : BitVec 6) (s : State) : (encSetRun r s).free = s.free := rfl

/-! ### `encRecord`: R174 -/

@[simp] theorem encRecord_enc_phase (px : Pixel) (s : State) : (encRecord px s).enc.phase = s.enc.phase := rfl
@[simp] theorem encRecord_enc_width (px : Pixel) (s : State) : (encRecord px s).enc.width = s.enc.width := rfl
@[simp] theorem encRecord_enc_height (px : Pixel) (s : State) : (encRecord px s).enc.height = s.enc.height := rfl
@[simp] theorem encRecord_enc_channels (px : Pixel) (s : State) : (encRecord px s).enc.channels = s.enc.channels := rfl
@[simp] theorem encRecord_enc_colorspace (px : Pixel) (s : State) : (encRecord px s).enc.colorspace = s.enc.colorspace := rfl
@[simp] theorem encRecord_enc_cfgWidth (px : Pixel) (s : State) : (encRecord px s).enc.cfgWidth = s.enc.cfgWidth := rfl
@[simp] theorem encRecord_enc_cfgHeight (px : Pixel) (s : State) : (encRecord px s).enc.cfgHeight = s.enc.cfgHeight := rfl
@[simp] theorem encRecord_enc_cfgChannels (px : Pixel) (s : State) : (encRecord px s).enc.cfgChannels = s.enc.cfgChannels := rfl
@[simp] theorem encRecord_enc_cfgColorspace (px : Pixel) (s : State) : (encRecord px s).enc.cfgColorspace = s.enc.cfgColorspace := rfl
@[simp] theorem encRecord_enc_npix (px : Pixel) (s : State) : (encRecord px s).enc.npix = s.enc.npix := rfl
@[simp] theorem encRecord_enc_prev (px : Pixel) (s : State) : (encRecord px s).enc.prev = px := rfl
@[simp] theorem encRecord_enc_run (px : Pixel) (s : State) : (encRecord px s).enc.run = s.enc.run := rfl
@[simp] theorem encRecord_enc_cache (px : Pixel) (s : State) : (encRecord px s).enc.cache = cacheWrite s.enc.cache px := rfl
@[simp] theorem encRecord_enc_i (px : Pixel) (s : State) : (encRecord px s).enc.i = s.enc.i := rfl
@[simp] theorem encRecord_enc_outlen (px : Pixel) (s : State) : (encRecord px s).enc.outlen = s.enc.outlen := rfl
@[simp] theorem encRecord_enc_errcode (px : Pixel) (s : State) : (encRecord px s).enc.errcode = s.enc.errcode := rfl
@[simp] theorem encRecord_enc_errdetail (px : Pixel) (s : State) : (encRecord px s).enc.errdetail = s.enc.errdetail := rfl
@[simp] theorem encRecord_dec (px : Pixel) (s : State) : (encRecord px s).dec = s.dec := rfl
@[simp] theorem encRecord_pixIn (px : Pixel) (s : State) : (encRecord px s).pixIn = s.pixIn := rfl
@[simp] theorem encRecord_outBuf (px : Pixel) (s : State) : (encRecord px s).outBuf = s.outBuf := rfl
@[simp] theorem encRecord_inBuf (px : Pixel) (s : State) : (encRecord px s).inBuf = s.inBuf := rfl
@[simp] theorem encRecord_pixOut (px : Pixel) (s : State) : (encRecord px s).pixOut = s.pixOut := rfl
@[simp] theorem encRecord_outRoom (px : Pixel) (s : State) : (encRecord px s).outRoom = s.outRoom := rfl
@[simp] theorem encRecord_pixOutRoom (px : Pixel) (s : State) : (encRecord px s).pixOutRoom = s.pixOutRoom := rfl
@[simp] theorem encRecord_encSeen (px : Pixel) (s : State) : (encRecord px s).encSeen = s.encSeen := rfl
@[simp] theorem encRecord_outValid (px : Pixel) (s : State) : (encRecord px s).outValid = s.outValid := rfl
@[simp] theorem encRecord_decSeen (px : Pixel) (s : State) : (encRecord px s).decSeen = s.decSeen := rfl
@[simp] theorem encRecord_pixOutValid (px : Pixel) (s : State) : (encRecord px s).pixOutValid = s.pixOutValid := rfl
@[simp] theorem encRecord_encPass (px : Pixel) (s : State) : (encRecord px s).encPass = s.encPass := rfl
@[simp] theorem encRecord_decPass (px : Pixel) (s : State) : (encRecord px s).decPass = s.decPass := rfl
@[simp] theorem encRecord_deltaArith (px : Pixel) (s : State) : (encRecord px s).deltaArith = s.deltaArith := rfl
@[simp] theorem encRecord_host (px : Pixel) (s : State) : (encRecord px s).host = s.host := rfl
@[simp] theorem encRecord_replies (px : Pixel) (s : State) : (encRecord px s).replies = s.replies := rfl
@[simp] theorem encRecord_turns (px : Pixel) (s : State) : (encRecord px s).turns = s.turns := rfl
@[simp] theorem encRecord_free (px : Pixel) (s : State) : (encRecord px s).free = s.free := rfl

/-! ### `decFinish`: R212 -/

@[simp] theorem decFinish_enc (s : State) : (decFinish s).enc = s.enc := rfl
@[simp] theorem decFinish_dec_phase (s : State) : (decFinish s).dec.phase = .done := rfl
@[simp] theorem decFinish_dec_len (s : State) : (decFinish s).dec.len = s.dec.len := rfl
@[simp] theorem decFinish_dec_cfgLen (s : State) : (decFinish s).dec.cfgLen = s.dec.cfgLen := rfl
@[simp] theorem decFinish_dec_prev (s : State) : (decFinish s).dec.prev = s.dec.prev := rfl
@[simp] theorem decFinish_dec_cache (s : State) : (decFinish s).dec.cache = s.dec.cache := rfl
@[simp] theorem decFinish_dec_pos (s : State) : (decFinish s).dec.pos = s.dec.pos := rfl
@[simp] theorem decFinish_dec_pixcnt (s : State) : (decFinish s).dec.pixcnt = s.dec.pixcnt := rfl
@[simp] theorem decFinish_dec_hdrWidth (s : State) : (decFinish s).dec.hdrWidth = s.dec.hdrWidth := rfl
@[simp] theorem decFinish_dec_hdrHeight (s : State) : (decFinish s).dec.hdrHeight = s.dec.hdrHeight := rfl
@[simp] theorem decFinish_dec_hdrChannels (s : State) : (decFinish s).dec.hdrChannels = s.dec.hdrChannels := rfl
@[simp] theorem decFinish_dec_hdrColorspace (s : State) : (decFinish s).dec.hdrColorspace = s.dec.hdrColorspace := rfl
@[simp] theorem decFinish_dec_errcode (s : State) : (decFinish s).dec.errcode = s.dec.errcode := rfl
@[simp] theorem decFinish_dec_errdetail (s : State) : (decFinish s).dec.errdetail = s.dec.errdetail := rfl
@[simp] theorem decFinish_pixIn (s : State) : (decFinish s).pixIn = s.pixIn := rfl
@[simp] theorem decFinish_outBuf (s : State) : (decFinish s).outBuf = s.outBuf := rfl
@[simp] theorem decFinish_inBuf (s : State) : (decFinish s).inBuf = s.inBuf := rfl
@[simp] theorem decFinish_pixOut (s : State) : (decFinish s).pixOut = s.pixOut := rfl
@[simp] theorem decFinish_outRoom (s : State) : (decFinish s).outRoom = s.outRoom := rfl
@[simp] theorem decFinish_pixOutRoom (s : State) : (decFinish s).pixOutRoom = s.pixOutRoom := rfl
@[simp] theorem decFinish_encSeen (s : State) : (decFinish s).encSeen = s.encSeen := rfl
@[simp] theorem decFinish_outValid (s : State) : (decFinish s).outValid = s.outValid := rfl
@[simp] theorem decFinish_decSeen (s : State) : (decFinish s).decSeen = s.decSeen := rfl
@[simp] theorem decFinish_pixOutValid (s : State) : (decFinish s).pixOutValid = s.pixOutValid := rfl
@[simp] theorem decFinish_encPass (s : State) : (decFinish s).encPass = s.encPass := rfl
@[simp] theorem decFinish_decPass (s : State) : (decFinish s).decPass = s.decPass := rfl
@[simp] theorem decFinish_deltaArith (s : State) : (decFinish s).deltaArith = s.deltaArith := rfl
@[simp] theorem decFinish_host (s : State) : (decFinish s).host = s.host := rfl
@[simp] theorem decFinish_replies (s : State) : (decFinish s).replies = s.replies := rfl
@[simp] theorem decFinish_turns (s : State) : (decFinish s).turns = s.turns := rfl
@[simp] theorem decFinish_free (s : State) : (decFinish s).free = s.free := rfl

/-! ### `popTurn`: log 2 -/

@[simp] theorem popTurn_enc (s : State) : (popTurn s).enc = s.enc := rfl
@[simp] theorem popTurn_dec (s : State) : (popTurn s).dec = s.dec := rfl
@[simp] theorem popTurn_pixIn (s : State) : (popTurn s).pixIn = s.pixIn := rfl
@[simp] theorem popTurn_outBuf (s : State) : (popTurn s).outBuf = s.outBuf := rfl
@[simp] theorem popTurn_inBuf (s : State) : (popTurn s).inBuf = s.inBuf := rfl
@[simp] theorem popTurn_pixOut (s : State) : (popTurn s).pixOut = s.pixOut := rfl
@[simp] theorem popTurn_outRoom (s : State) : (popTurn s).outRoom = s.outRoom := rfl
@[simp] theorem popTurn_pixOutRoom (s : State) : (popTurn s).pixOutRoom = s.pixOutRoom := rfl
@[simp] theorem popTurn_encSeen (s : State) : (popTurn s).encSeen = s.encSeen := rfl
@[simp] theorem popTurn_outValid (s : State) : (popTurn s).outValid = s.outValid := rfl
@[simp] theorem popTurn_decSeen (s : State) : (popTurn s).decSeen = s.decSeen := rfl
@[simp] theorem popTurn_pixOutValid (s : State) : (popTurn s).pixOutValid = s.pixOutValid := rfl
@[simp] theorem popTurn_encPass (s : State) : (popTurn s).encPass = s.encPass := rfl
@[simp] theorem popTurn_decPass (s : State) : (popTurn s).decPass = s.decPass := rfl
@[simp] theorem popTurn_deltaArith (s : State) : (popTurn s).deltaArith = s.deltaArith := rfl
@[simp] theorem popTurn_host (s : State) : (popTurn s).host = s.host := rfl
@[simp] theorem popTurn_replies (s : State) : (popTurn s).replies = s.replies := rfl
@[simp] theorem popTurn_turns (s : State) : (popTurn s).turns = s.turns.tail := rfl
@[simp] theorem popTurn_free (s : State) : (popTurn s).free = s.free := rfl

/-! ### `raiseError_enc`: R247 -/

@[simp] theorem raiseError_enc_enc_phase (e : ErrorKind) (d : BitVec 4) (s : State) : (raiseError .enc e d s).enc.phase = .error := rfl
@[simp] theorem raiseError_enc_enc_width (e : ErrorKind) (d : BitVec 4) (s : State) : (raiseError .enc e d s).enc.width = s.enc.width := rfl
@[simp] theorem raiseError_enc_enc_height (e : ErrorKind) (d : BitVec 4) (s : State) : (raiseError .enc e d s).enc.height = s.enc.height := rfl
@[simp] theorem raiseError_enc_enc_channels (e : ErrorKind) (d : BitVec 4) (s : State) : (raiseError .enc e d s).enc.channels = s.enc.channels := rfl
@[simp] theorem raiseError_enc_enc_colorspace (e : ErrorKind) (d : BitVec 4) (s : State) : (raiseError .enc e d s).enc.colorspace = s.enc.colorspace := rfl
@[simp] theorem raiseError_enc_enc_cfgWidth (e : ErrorKind) (d : BitVec 4) (s : State) : (raiseError .enc e d s).enc.cfgWidth = s.enc.cfgWidth := rfl
@[simp] theorem raiseError_enc_enc_cfgHeight (e : ErrorKind) (d : BitVec 4) (s : State) : (raiseError .enc e d s).enc.cfgHeight = s.enc.cfgHeight := rfl
@[simp] theorem raiseError_enc_enc_cfgChannels (e : ErrorKind) (d : BitVec 4) (s : State) : (raiseError .enc e d s).enc.cfgChannels = s.enc.cfgChannels := rfl
@[simp] theorem raiseError_enc_enc_cfgColorspace (e : ErrorKind) (d : BitVec 4) (s : State) : (raiseError .enc e d s).enc.cfgColorspace = s.enc.cfgColorspace := rfl
@[simp] theorem raiseError_enc_enc_npix (e : ErrorKind) (d : BitVec 4) (s : State) : (raiseError .enc e d s).enc.npix = s.enc.npix := rfl
@[simp] theorem raiseError_enc_enc_prev (e : ErrorKind) (d : BitVec 4) (s : State) : (raiseError .enc e d s).enc.prev = s.enc.prev := rfl
@[simp] theorem raiseError_enc_enc_run (e : ErrorKind) (d : BitVec 4) (s : State) : (raiseError .enc e d s).enc.run = s.enc.run := rfl
@[simp] theorem raiseError_enc_enc_cache (e : ErrorKind) (d : BitVec 4) (s : State) : (raiseError .enc e d s).enc.cache = s.enc.cache := rfl
@[simp] theorem raiseError_enc_enc_i (e : ErrorKind) (d : BitVec 4) (s : State) : (raiseError .enc e d s).enc.i = s.enc.i := rfl
@[simp] theorem raiseError_enc_enc_outlen (e : ErrorKind) (d : BitVec 4) (s : State) : (raiseError .enc e d s).enc.outlen = s.enc.outlen := rfl
@[simp] theorem raiseError_enc_enc_errcode (e : ErrorKind) (d : BitVec 4) (s : State) : (raiseError .enc e d s).enc.errcode = e.code := rfl
@[simp] theorem raiseError_enc_enc_errdetail (e : ErrorKind) (d : BitVec 4) (s : State) : (raiseError .enc e d s).enc.errdetail = d := rfl
@[simp] theorem raiseError_enc_dec (e : ErrorKind) (d : BitVec 4) (s : State) : (raiseError .enc e d s).dec = s.dec := rfl
@[simp] theorem raiseError_enc_pixIn (e : ErrorKind) (d : BitVec 4) (s : State) : (raiseError .enc e d s).pixIn = s.pixIn := rfl
@[simp] theorem raiseError_enc_outBuf (e : ErrorKind) (d : BitVec 4) (s : State) : (raiseError .enc e d s).outBuf = s.outBuf := rfl
@[simp] theorem raiseError_enc_inBuf (e : ErrorKind) (d : BitVec 4) (s : State) : (raiseError .enc e d s).inBuf = s.inBuf := rfl
@[simp] theorem raiseError_enc_pixOut (e : ErrorKind) (d : BitVec 4) (s : State) : (raiseError .enc e d s).pixOut = s.pixOut := rfl
@[simp] theorem raiseError_enc_outRoom (e : ErrorKind) (d : BitVec 4) (s : State) : (raiseError .enc e d s).outRoom = s.outRoom := rfl
@[simp] theorem raiseError_enc_pixOutRoom (e : ErrorKind) (d : BitVec 4) (s : State) : (raiseError .enc e d s).pixOutRoom = s.pixOutRoom := rfl
@[simp] theorem raiseError_enc_encSeen (e : ErrorKind) (d : BitVec 4) (s : State) : (raiseError .enc e d s).encSeen = s.encSeen := rfl
@[simp] theorem raiseError_enc_outValid (e : ErrorKind) (d : BitVec 4) (s : State) : (raiseError .enc e d s).outValid = s.outValid := rfl
@[simp] theorem raiseError_enc_decSeen (e : ErrorKind) (d : BitVec 4) (s : State) : (raiseError .enc e d s).decSeen = s.decSeen := rfl
@[simp] theorem raiseError_enc_pixOutValid (e : ErrorKind) (d : BitVec 4) (s : State) : (raiseError .enc e d s).pixOutValid = s.pixOutValid := rfl
@[simp] theorem raiseError_enc_encPass (e : ErrorKind) (d : BitVec 4) (s : State) : (raiseError .enc e d s).encPass = s.encPass := rfl
@[simp] theorem raiseError_enc_decPass (e : ErrorKind) (d : BitVec 4) (s : State) : (raiseError .enc e d s).decPass = s.decPass := rfl
@[simp] theorem raiseError_enc_deltaArith (e : ErrorKind) (d : BitVec 4) (s : State) : (raiseError .enc e d s).deltaArith = s.deltaArith := rfl
@[simp] theorem raiseError_enc_host (e : ErrorKind) (d : BitVec 4) (s : State) : (raiseError .enc e d s).host = s.host := rfl
@[simp] theorem raiseError_enc_replies (e : ErrorKind) (d : BitVec 4) (s : State) : (raiseError .enc e d s).replies = s.replies := rfl
@[simp] theorem raiseError_enc_turns (e : ErrorKind) (d : BitVec 4) (s : State) : (raiseError .enc e d s).turns = s.turns := rfl
@[simp] theorem raiseError_enc_free (e : ErrorKind) (d : BitVec 4) (s : State) : (raiseError .enc e d s).free = s.free := rfl

/-! ### `raiseError_dec`: R247 -/

@[simp] theorem raiseError_dec_enc (e : ErrorKind) (d : BitVec 4) (s : State) : (raiseError .dec e d s).enc = s.enc := rfl
@[simp] theorem raiseError_dec_dec_phase (e : ErrorKind) (d : BitVec 4) (s : State) : (raiseError .dec e d s).dec.phase = .error := rfl
@[simp] theorem raiseError_dec_dec_len (e : ErrorKind) (d : BitVec 4) (s : State) : (raiseError .dec e d s).dec.len = s.dec.len := rfl
@[simp] theorem raiseError_dec_dec_cfgLen (e : ErrorKind) (d : BitVec 4) (s : State) : (raiseError .dec e d s).dec.cfgLen = s.dec.cfgLen := rfl
@[simp] theorem raiseError_dec_dec_prev (e : ErrorKind) (d : BitVec 4) (s : State) : (raiseError .dec e d s).dec.prev = s.dec.prev := rfl
@[simp] theorem raiseError_dec_dec_cache (e : ErrorKind) (d : BitVec 4) (s : State) : (raiseError .dec e d s).dec.cache = s.dec.cache := rfl
@[simp] theorem raiseError_dec_dec_pos (e : ErrorKind) (d : BitVec 4) (s : State) : (raiseError .dec e d s).dec.pos = s.dec.pos := rfl
@[simp] theorem raiseError_dec_dec_pixcnt (e : ErrorKind) (d : BitVec 4) (s : State) : (raiseError .dec e d s).dec.pixcnt = s.dec.pixcnt := rfl
@[simp] theorem raiseError_dec_dec_hdrWidth (e : ErrorKind) (d : BitVec 4) (s : State) : (raiseError .dec e d s).dec.hdrWidth = s.dec.hdrWidth := rfl
@[simp] theorem raiseError_dec_dec_hdrHeight (e : ErrorKind) (d : BitVec 4) (s : State) : (raiseError .dec e d s).dec.hdrHeight = s.dec.hdrHeight := rfl
@[simp] theorem raiseError_dec_dec_hdrChannels (e : ErrorKind) (d : BitVec 4) (s : State) : (raiseError .dec e d s).dec.hdrChannels = s.dec.hdrChannels := rfl
@[simp] theorem raiseError_dec_dec_hdrColorspace (e : ErrorKind) (d : BitVec 4) (s : State) : (raiseError .dec e d s).dec.hdrColorspace = s.dec.hdrColorspace := rfl
@[simp] theorem raiseError_dec_dec_errcode (e : ErrorKind) (d : BitVec 4) (s : State) : (raiseError .dec e d s).dec.errcode = e.code := rfl
@[simp] theorem raiseError_dec_dec_errdetail (e : ErrorKind) (d : BitVec 4) (s : State) : (raiseError .dec e d s).dec.errdetail = d := rfl
@[simp] theorem raiseError_dec_pixIn (e : ErrorKind) (d : BitVec 4) (s : State) : (raiseError .dec e d s).pixIn = s.pixIn := rfl
@[simp] theorem raiseError_dec_outBuf (e : ErrorKind) (d : BitVec 4) (s : State) : (raiseError .dec e d s).outBuf = s.outBuf := rfl
@[simp] theorem raiseError_dec_inBuf (e : ErrorKind) (d : BitVec 4) (s : State) : (raiseError .dec e d s).inBuf = s.inBuf := rfl
@[simp] theorem raiseError_dec_pixOut (e : ErrorKind) (d : BitVec 4) (s : State) : (raiseError .dec e d s).pixOut = s.pixOut := rfl
@[simp] theorem raiseError_dec_outRoom (e : ErrorKind) (d : BitVec 4) (s : State) : (raiseError .dec e d s).outRoom = s.outRoom := rfl
@[simp] theorem raiseError_dec_pixOutRoom (e : ErrorKind) (d : BitVec 4) (s : State) : (raiseError .dec e d s).pixOutRoom = s.pixOutRoom := rfl
@[simp] theorem raiseError_dec_encSeen (e : ErrorKind) (d : BitVec 4) (s : State) : (raiseError .dec e d s).encSeen = s.encSeen := rfl
@[simp] theorem raiseError_dec_outValid (e : ErrorKind) (d : BitVec 4) (s : State) : (raiseError .dec e d s).outValid = s.outValid := rfl
@[simp] theorem raiseError_dec_decSeen (e : ErrorKind) (d : BitVec 4) (s : State) : (raiseError .dec e d s).decSeen = s.decSeen := rfl
@[simp] theorem raiseError_dec_pixOutValid (e : ErrorKind) (d : BitVec 4) (s : State) : (raiseError .dec e d s).pixOutValid = s.pixOutValid := rfl
@[simp] theorem raiseError_dec_encPass (e : ErrorKind) (d : BitVec 4) (s : State) : (raiseError .dec e d s).encPass = s.encPass := rfl
@[simp] theorem raiseError_dec_decPass (e : ErrorKind) (d : BitVec 4) (s : State) : (raiseError .dec e d s).decPass = s.decPass := rfl
@[simp] theorem raiseError_dec_deltaArith (e : ErrorKind) (d : BitVec 4) (s : State) : (raiseError .dec e d s).deltaArith = s.deltaArith := rfl
@[simp] theorem raiseError_dec_host (e : ErrorKind) (d : BitVec 4) (s : State) : (raiseError .dec e d s).host = s.host := rfl
@[simp] theorem raiseError_dec_replies (e : ErrorKind) (d : BitVec 4) (s : State) : (raiseError .dec e d s).replies = s.replies := rfl
@[simp] theorem raiseError_dec_turns (e : ErrorKind) (d : BitVec 4) (s : State) : (raiseError .dec e d s).turns = s.turns := rfl
@[simp] theorem raiseError_dec_free (e : ErrorKind) (d : BitVec 4) (s : State) : (raiseError .dec e d s).free = s.free := rfl

end Sys2Proof.Machine
end

