-- ==== Sys2Proof/Laws/Operations.lean ====
section
/-! SUPPORT. One spec lemma for each shared operation: caches, producing pixels, emitting bytes, and when each answers. -/

namespace Sys2Proof.Machine

/-! ### Repeated updates, field by field -/

@[simp] theorem produceN_enc (n : Nat) (p : Pixel) (s : State) : (produceN n p s).enc = s.enc := by
  induction n generalizing s with
  | zero => rfl
  | succ k ih => exact (ih _).trans rfl
@[simp] theorem produceN_pixIn (n : Nat) (p : Pixel) (s : State) : (produceN n p s).pixIn = s.pixIn := by
  induction n generalizing s with
  | zero => rfl
  | succ k ih => exact (ih _).trans rfl
@[simp] theorem produceN_outBuf (n : Nat) (p : Pixel) (s : State) : (produceN n p s).outBuf = s.outBuf := by
  induction n generalizing s with
  | zero => rfl
  | succ k ih => exact (ih _).trans rfl
@[simp] theorem produceN_inBuf (n : Nat) (p : Pixel) (s : State) : (produceN n p s).inBuf = s.inBuf := by
  induction n generalizing s with
  | zero => rfl
  | succ k ih => exact (ih _).trans rfl
@[simp] theorem produceN_outRoom (n : Nat) (p : Pixel) (s : State) : (produceN n p s).outRoom = s.outRoom := by
  induction n generalizing s with
  | zero => rfl
  | succ k ih => exact (ih _).trans rfl
@[simp] theorem produceN_pixOutRoom (n : Nat) (p : Pixel) (s : State) : (produceN n p s).pixOutRoom = s.pixOutRoom := by
  induction n generalizing s with
  | zero => rfl
  | succ k ih => exact (ih _).trans rfl
@[simp] theorem produceN_encSeen (n : Nat) (p : Pixel) (s : State) : (produceN n p s).encSeen = s.encSeen := by
  induction n generalizing s with
  | zero => rfl
  | succ k ih => exact (ih _).trans rfl
@[simp] theorem produceN_outValid (n : Nat) (p : Pixel) (s : State) : (produceN n p s).outValid = s.outValid := by
  induction n generalizing s with
  | zero => rfl
  | succ k ih => exact (ih _).trans rfl
@[simp] theorem produceN_decSeen (n : Nat) (p : Pixel) (s : State) : (produceN n p s).decSeen = s.decSeen := by
  induction n generalizing s with
  | zero => rfl
  | succ k ih => exact (ih _).trans rfl
@[simp] theorem produceN_pixOutValid (n : Nat) (p : Pixel) (s : State) : (produceN n p s).pixOutValid = s.pixOutValid := by
  induction n generalizing s with
  | zero => rfl
  | succ k ih => exact (ih _).trans rfl
@[simp] theorem produceN_encPass (n : Nat) (p : Pixel) (s : State) : (produceN n p s).encPass = s.encPass := by
  induction n generalizing s with
  | zero => rfl
  | succ k ih => exact (ih _).trans rfl
@[simp] theorem produceN_decPass (n : Nat) (p : Pixel) (s : State) : (produceN n p s).decPass = s.decPass := by
  induction n generalizing s with
  | zero => rfl
  | succ k ih => exact (ih _).trans rfl
@[simp] theorem produceN_deltaArith (n : Nat) (p : Pixel) (s : State) : (produceN n p s).deltaArith = s.deltaArith := by
  induction n generalizing s with
  | zero => rfl
  | succ k ih => exact (ih _).trans rfl
@[simp] theorem produceN_host (n : Nat) (p : Pixel) (s : State) : (produceN n p s).host = s.host := by
  induction n generalizing s with
  | zero => rfl
  | succ k ih => exact (ih _).trans rfl
@[simp] theorem produceN_replies (n : Nat) (p : Pixel) (s : State) : (produceN n p s).replies = s.replies := by
  induction n generalizing s with
  | zero => rfl
  | succ k ih => exact (ih _).trans rfl
@[simp] theorem produceN_turns (n : Nat) (p : Pixel) (s : State) : (produceN n p s).turns = s.turns := by
  induction n generalizing s with
  | zero => rfl
  | succ k ih => exact (ih _).trans rfl
@[simp] theorem produceN_free (n : Nat) (p : Pixel) (s : State) : (produceN n p s).free = s.free := by
  induction n generalizing s with
  | zero => rfl
  | succ k ih => exact (ih _).trans rfl
@[simp] theorem produceN_dec_phase (n : Nat) (p : Pixel) (s : State) : (produceN n p s).dec.phase = s.dec.phase := by
  induction n generalizing s with
  | zero => rfl
  | succ k ih => exact (ih _).trans rfl
@[simp] theorem produceN_dec_len (n : Nat) (p : Pixel) (s : State) : (produceN n p s).dec.len = s.dec.len := by
  induction n generalizing s with
  | zero => rfl
  | succ k ih => exact (ih _).trans rfl
@[simp] theorem produceN_dec_cfgLen (n : Nat) (p : Pixel) (s : State) : (produceN n p s).dec.cfgLen = s.dec.cfgLen := by
  induction n generalizing s with
  | zero => rfl
  | succ k ih => exact (ih _).trans rfl
@[simp] theorem produceN_dec_pos (n : Nat) (p : Pixel) (s : State) : (produceN n p s).dec.pos = s.dec.pos := by
  induction n generalizing s with
  | zero => rfl
  | succ k ih => exact (ih _).trans rfl
@[simp] theorem produceN_dec_hdrWidth (n : Nat) (p : Pixel) (s : State) : (produceN n p s).dec.hdrWidth = s.dec.hdrWidth := by
  induction n generalizing s with
  | zero => rfl
  | succ k ih => exact (ih _).trans rfl
@[simp] theorem produceN_dec_hdrHeight (n : Nat) (p : Pixel) (s : State) : (produceN n p s).dec.hdrHeight = s.dec.hdrHeight := by
  induction n generalizing s with
  | zero => rfl
  | succ k ih => exact (ih _).trans rfl
@[simp] theorem produceN_dec_hdrChannels (n : Nat) (p : Pixel) (s : State) : (produceN n p s).dec.hdrChannels = s.dec.hdrChannels := by
  induction n generalizing s with
  | zero => rfl
  | succ k ih => exact (ih _).trans rfl
@[simp] theorem produceN_dec_hdrColorspace (n : Nat) (p : Pixel) (s : State) : (produceN n p s).dec.hdrColorspace = s.dec.hdrColorspace := by
  induction n generalizing s with
  | zero => rfl
  | succ k ih => exact (ih _).trans rfl
@[simp] theorem produceN_dec_errcode (n : Nat) (p : Pixel) (s : State) : (produceN n p s).dec.errcode = s.dec.errcode := by
  induction n generalizing s with
  | zero => rfl
  | succ k ih => exact (ih _).trans rfl
@[simp] theorem produceN_dec_errdetail (n : Nat) (p : Pixel) (s : State) : (produceN n p s).dec.errdetail = s.dec.errdetail := by
  induction n generalizing s with
  | zero => rfl
  | succ k ih => exact (ih _).trans rfl
@[simp] theorem emitAll_dec (bs : List Byte) (s : State) : (emitAll bs s).dec = s.dec := by
  induction bs generalizing s with
  | nil => rfl
  | cons b t ih => exact (ih _).trans rfl
@[simp] theorem emitAll_pixIn (bs : List Byte) (s : State) : (emitAll bs s).pixIn = s.pixIn := by
  induction bs generalizing s with
  | nil => rfl
  | cons b t ih => exact (ih _).trans rfl
@[simp] theorem emitAll_inBuf (bs : List Byte) (s : State) : (emitAll bs s).inBuf = s.inBuf := by
  induction bs generalizing s with
  | nil => rfl
  | cons b t ih => exact (ih _).trans rfl
@[simp] theorem emitAll_pixOut (bs : List Byte) (s : State) : (emitAll bs s).pixOut = s.pixOut := by
  induction bs generalizing s with
  | nil => rfl
  | cons b t ih => exact (ih _).trans rfl
@[simp] theorem emitAll_outRoom (bs : List Byte) (s : State) : (emitAll bs s).outRoom = s.outRoom := by
  induction bs generalizing s with
  | nil => rfl
  | cons b t ih => exact (ih _).trans rfl
@[simp] theorem emitAll_pixOutRoom (bs : List Byte) (s : State) : (emitAll bs s).pixOutRoom = s.pixOutRoom := by
  induction bs generalizing s with
  | nil => rfl
  | cons b t ih => exact (ih _).trans rfl
@[simp] theorem emitAll_encSeen (bs : List Byte) (s : State) : (emitAll bs s).encSeen = s.encSeen := by
  induction bs generalizing s with
  | nil => rfl
  | cons b t ih => exact (ih _).trans rfl
@[simp] theorem emitAll_outValid (bs : List Byte) (s : State) : (emitAll bs s).outValid = s.outValid := by
  induction bs generalizing s with
  | nil => rfl
  | cons b t ih => exact (ih _).trans rfl
@[simp] theorem emitAll_decSeen (bs : List Byte) (s : State) : (emitAll bs s).decSeen = s.decSeen := by
  induction bs generalizing s with
  | nil => rfl
  | cons b t ih => exact (ih _).trans rfl
@[simp] theorem emitAll_pixOutValid (bs : List Byte) (s : State) : (emitAll bs s).pixOutValid = s.pixOutValid := by
  induction bs generalizing s with
  | nil => rfl
  | cons b t ih => exact (ih _).trans rfl
@[simp] theorem emitAll_encPass (bs : List Byte) (s : State) : (emitAll bs s).encPass = s.encPass := by
  induction bs generalizing s with
  | nil => rfl
  | cons b t ih => exact (ih _).trans rfl
@[simp] theorem emitAll_decPass (bs : List Byte) (s : State) : (emitAll bs s).decPass = s.decPass := by
  induction bs generalizing s with
  | nil => rfl
  | cons b t ih => exact (ih _).trans rfl
@[simp] theorem emitAll_deltaArith (bs : List Byte) (s : State) : (emitAll bs s).deltaArith = s.deltaArith := by
  induction bs generalizing s with
  | nil => rfl
  | cons b t ih => exact (ih _).trans rfl
@[simp] theorem emitAll_host (bs : List Byte) (s : State) : (emitAll bs s).host = s.host := by
  induction bs generalizing s with
  | nil => rfl
  | cons b t ih => exact (ih _).trans rfl
@[simp] theorem emitAll_replies (bs : List Byte) (s : State) : (emitAll bs s).replies = s.replies := by
  induction bs generalizing s with
  | nil => rfl
  | cons b t ih => exact (ih _).trans rfl
@[simp] theorem emitAll_turns (bs : List Byte) (s : State) : (emitAll bs s).turns = s.turns := by
  induction bs generalizing s with
  | nil => rfl
  | cons b t ih => exact (ih _).trans rfl
@[simp] theorem emitAll_free (bs : List Byte) (s : State) : (emitAll bs s).free = s.free := by
  induction bs generalizing s with
  | nil => rfl
  | cons b t ih => exact (ih _).trans rfl
@[simp] theorem emitAll_enc_phase (bs : List Byte) (s : State) : (emitAll bs s).enc.phase = s.enc.phase := by
  induction bs generalizing s with
  | nil => rfl
  | cons b t ih => exact (ih _).trans rfl
@[simp] theorem emitAll_enc_width (bs : List Byte) (s : State) : (emitAll bs s).enc.width = s.enc.width := by
  induction bs generalizing s with
  | nil => rfl
  | cons b t ih => exact (ih _).trans rfl
@[simp] theorem emitAll_enc_height (bs : List Byte) (s : State) : (emitAll bs s).enc.height = s.enc.height := by
  induction bs generalizing s with
  | nil => rfl
  | cons b t ih => exact (ih _).trans rfl
@[simp] theorem emitAll_enc_channels (bs : List Byte) (s : State) : (emitAll bs s).enc.channels = s.enc.channels := by
  induction bs generalizing s with
  | nil => rfl
  | cons b t ih => exact (ih _).trans rfl
@[simp] theorem emitAll_enc_colorspace (bs : List Byte) (s : State) : (emitAll bs s).enc.colorspace = s.enc.colorspace := by
  induction bs generalizing s with
  | nil => rfl
  | cons b t ih => exact (ih _).trans rfl
@[simp] theorem emitAll_enc_cfgWidth (bs : List Byte) (s : State) : (emitAll bs s).enc.cfgWidth = s.enc.cfgWidth := by
  induction bs generalizing s with
  | nil => rfl
  | cons b t ih => exact (ih _).trans rfl
@[simp] theorem emitAll_enc_cfgHeight (bs : List Byte) (s : State) : (emitAll bs s).enc.cfgHeight = s.enc.cfgHeight := by
  induction bs generalizing s with
  | nil => rfl
  | cons b t ih => exact (ih _).trans rfl
@[simp] theorem emitAll_enc_cfgChannels (bs : List Byte) (s : State) : (emitAll bs s).enc.cfgChannels = s.enc.cfgChannels := by
  induction bs generalizing s with
  | nil => rfl
  | cons b t ih => exact (ih _).trans rfl
@[simp] theorem emitAll_enc_cfgColorspace (bs : List Byte) (s : State) : (emitAll bs s).enc.cfgColorspace = s.enc.cfgColorspace := by
  induction bs generalizing s with
  | nil => rfl
  | cons b t ih => exact (ih _).trans rfl
@[simp] theorem emitAll_enc_npix (bs : List Byte) (s : State) : (emitAll bs s).enc.npix = s.enc.npix := by
  induction bs generalizing s with
  | nil => rfl
  | cons b t ih => exact (ih _).trans rfl
@[simp] theorem emitAll_enc_prev (bs : List Byte) (s : State) : (emitAll bs s).enc.prev = s.enc.prev := by
  induction bs generalizing s with
  | nil => rfl
  | cons b t ih => exact (ih _).trans rfl
@[simp] theorem emitAll_enc_run (bs : List Byte) (s : State) : (emitAll bs s).enc.run = s.enc.run := by
  induction bs generalizing s with
  | nil => rfl
  | cons b t ih => exact (ih _).trans rfl
@[simp] theorem emitAll_enc_cache (bs : List Byte) (s : State) : (emitAll bs s).enc.cache = s.enc.cache := by
  induction bs generalizing s with
  | nil => rfl
  | cons b t ih => exact (ih _).trans rfl
@[simp] theorem emitAll_enc_i (bs : List Byte) (s : State) : (emitAll bs s).enc.i = s.enc.i := by
  induction bs generalizing s with
  | nil => rfl
  | cons b t ih => exact (ih _).trans rfl
@[simp] theorem emitAll_enc_errcode (bs : List Byte) (s : State) : (emitAll bs s).enc.errcode = s.enc.errcode := by
  induction bs generalizing s with
  | nil => rfl
  | cons b t ih => exact (ih _).trans rfl
@[simp] theorem emitAll_enc_errdetail (bs : List Byte) (s : State) : (emitAll bs s).enc.errdetail = s.enc.errdetail := by
  induction bs generalizing s with
  | nil => rfl
  | cons b t ih => exact (ih _).trans rfl

/-! ### Caches -/

/-- A cache write is read back at the pixel's hash. -/
@[simp] theorem cacheRead_cacheWrite_hash (c : Cache) (p : Pixel) : cacheRead (cacheWrite c p) (pixelHash p) = p := by
  simp [cacheRead, cacheWrite, Vector.get_eq_getElem]

/-- A cache write leaves the other 63 entries alone. -/
theorem cacheRead_cacheWrite_of_ne (c : Cache) (p : Pixel) {k : BitVec 6} (h : k ≠ pixelHash p) :
    cacheRead (cacheWrite c p) k = cacheRead c k := by
  have hne : (pixelHash p).toNat ≠ k.toNat := fun e => h (BitVec.eq_of_toNat_eq e.symm)
  simp [cacheRead, cacheWrite, Vector.get_eq_getElem, hne]

theorem cacheRead_cacheWrite (c : Cache) (p : Pixel) (k : BitVec 6) :
    cacheRead (cacheWrite c p) k = if k = pixelHash p then p else cacheRead c k := by
  split_ifs with h
  · subst h; simp
  · exact cacheRead_cacheWrite_of_ne c p h

/-- Writing the same pixel again changes nothing. -/
@[simp] theorem cacheWrite_cacheWrite (c : Cache) (p : Pixel) : cacheWrite (cacheWrite c p) p = cacheWrite c p := by
  simp [cacheWrite]

@[simp] theorem cacheRead_clear (k : BitVec 6) : cacheRead Cache.clear k = Pixel.zero := by
  simp [cacheRead, Cache.clear, Vector.get_eq_getElem]

/-- Caches that read alike are equal. -/
theorem cache_ext {c d : Cache} (h : ∀ k, cacheRead c k = cacheRead d k) : c = d := by
  apply Vector.ext
  intro i hi
  have := h (BitVec.ofNat 6 i)
  simpa [cacheRead, Vector.get_eq_getElem, Nat.mod_eq_of_lt hi] using this

/-- Writing a pixel where it already stands changes nothing. -/
theorem cacheWrite_eq_self {c : Cache} {p : Pixel} (h : cacheRead c (pixelHash p) = p) : cacheWrite c p = c := by
  apply cache_ext
  intro k
  rw [cacheRead_cacheWrite]
  split_ifs with hk
  · rw [hk, h]
  · rfl

/-! ### Producing pixels -/

theorem produceN_dec_prev (n : Nat) (p : Pixel) (s : State) :
    (produceN n p s).dec.prev = if n = 0 then s.dec.prev else p := by
  induction n generalizing s with
  | zero => rfl
  | succ k ih => rw [produceN, ih]; simp

theorem produceN_dec_cache (n : Nat) (p : Pixel) (s : State) :
    (produceN n p s).dec.cache = if n = 0 then s.dec.cache else cacheWrite s.dec.cache p := by
  induction n generalizing s with
  | zero => rfl
  | succ k ih => rw [produceN, ih]; simp

theorem produceN_dec_pixcnt (n : Nat) (p : Pixel) (s : State) :
    (produceN n p s).dec.pixcnt = s.dec.pixcnt + BitVec.ofNat 64 n := by
  induction n generalizing s with
  | zero => simp [produceN]
  | succ k ih =>
    rw [produceN, ih, produce_dec_pixcnt]
    apply BitVec.eq_of_toNat_eq
    simp [BitVec.toNat_add]
    omega

/-- The pixels land at successive indices of `PIXOUT`, when the counter does not wrap. -/
theorem produceN_pixOut (n : Nat) (p : Pixel) (s : State) (h : s.dec.pixcnt.toNat + n < 2 ^ 64) :
    (produceN n p s).pixOut = Memory.writeAll s.pixOut s.dec.pixcnt.toNat (List.replicate n p) := by
  induction n generalizing s with
  | zero => rfl
  | succ k ih =>
    have h1 : (produce p s).dec.pixcnt.toNat = s.dec.pixcnt.toNat + 1 := by
      rw [produce_dec_pixcnt, BitVec.toNat_add]
      exact Nat.mod_eq_of_lt (by simp; omega)
    rw [produceN, ih _ (by omega), h1, List.replicate_succ, Memory.writeAll, produce_pixOut]

/-- An opcode that completes found room, and its effect is its pixels and then the advance. -/
theorem yieldPixels_next {len count : Nat} {p : Pixel} {s t : State} (h : yieldPixels len count p s = .next t) :
    s.dec.pixcnt.toNat + count ≤ s.pixOutRoom.toNat ∧ t = advance len (produceN count p s) := by
  unfold yieldPixels pixOutHasRoom at h
  split_ifs at h with hr
  · exact ⟨by simpa using hr, by cases h; rfl⟩

/-- With room an opcode completes. -/
theorem yieldPixels_of_room {len count : Nat} {p : Pixel} {s : State}
    (h : s.dec.pixcnt.toNat + count ≤ s.pixOutRoom.toNat) :
    yieldPixels len count p s = .next (advance len (produceN count p s)) := by
  simp [yieldPixels, pixOutHasRoom, h]

/-- Every meaning is one use of the shared operation, on the opcode's own pixel and count. -/
theorem exec_eq (i : Instr) (s : State) :
    exec i s = yieldPixels i.length (yieldedCount i) (yieldedPixel i s.dec) s := by
  cases i <;> rfl

/-- What an opcode that completes has done. -/
theorem exec_next {i : Instr} {s t : State} (h : exec i s = .next t) :
    s.dec.pixcnt.toNat + yieldedCount i ≤ s.pixOutRoom.toNat ∧
      t = advance i.length (produceN (yieldedCount i) (yieldedPixel i s.dec) s) :=
  yieldPixels_next (exec_eq i s ▸ h)

/-! ### Emitting bytes -/

theorem emitAll_enc_outlen (bs : List Byte) (s : State) :
    (emitAll bs s).enc.outlen = s.enc.outlen + BitVec.ofNat 64 bs.length := by
  induction bs generalizing s with
  | nil => simp [emitAll]
  | cons b t ih =>
    rw [emitAll, ih, emit_enc_outlen]
    apply BitVec.eq_of_toNat_eq
    simp [BitVec.toNat_add]
    omega

/-- The bytes land at successive offsets of `OUT`, when the count does not wrap. -/
theorem emitAll_outBuf (bs : List Byte) (s : State) (h : s.enc.outlen.toNat + bs.length < 2 ^ 64) :
    (emitAll bs s).outBuf = Memory.writeAll s.outBuf s.enc.outlen.toNat bs := by
  induction bs generalizing s with
  | nil => rfl
  | cons b t ih =>
    rw [List.length_cons] at h
    have h1 : (emit b s).enc.outlen.toNat = s.enc.outlen.toNat + 1 := by
      rw [emit_enc_outlen, BitVec.toNat_add]
      exact Nat.mod_eq_of_lt (by simp; omega)
    rw [emitAll, ih _ (by omega), h1, Memory.writeAll, emit_outBuf]

/-- A step of ENC that completes found room for its bytes, and emitted them. -/
theorem emitBytes_next {bs : List Byte} {s t : State} (h : emitBytes bs s = .next t) :
    s.enc.outlen.toNat + bs.length ≤ s.outRoom.toNat ∧ t = emitAll bs s := by
  unfold emitBytes outHasRoom at h
  split_ifs at h with hr
  · exact ⟨by simpa using hr, by cases h; rfl⟩

/-- With room the bytes are emitted. -/
theorem emitBytes_of_room {bs : List Byte} {s : State} (h : s.enc.outlen.toNat + bs.length ≤ s.outRoom.toNat) :
    emitBytes bs s = .next (emitAll bs s) := by
  simp [emitBytes, outHasRoom, h]

/-- A step that found room does not wrap the count of bytes. -/
theorem emitAll_outlen_toNat {bs : List Byte} {s : State} (h : s.enc.outlen.toNat + bs.length ≤ s.outRoom.toNat) :
    (emitAll bs s).enc.outlen.toNat = s.enc.outlen.toNat + bs.length := by
  have hr := s.outRoom.isLt
  rw [emitAll_enc_outlen, BitVec.toNat_add, BitVec.toNat_ofNat, Nat.mod_eq_of_lt (a := bs.length) (by omega)]
  exact Nat.mod_eq_of_lt (by omega)

/-- The buffers stay canonical under `Emit`. -/
theorem wf_emitAll (bs : List Byte) (s : State) (h : Memory.wf s.outBuf = true) :
    Memory.wf (emitAll bs s).outBuf = true := by
  induction bs generalizing s with
  | nil => exact h
  | cons b t ih => exact ih _ (Memory.wf_write _ _ _ h)

/-- The buffers stay canonical under `PixWrite`. -/
theorem wf_produceN (n : Nat) (p : Pixel) (s : State) (h : Memory.wf s.pixOut = true) :
    Memory.wf (produceN n p s).pixOut = true := by
  induction n generalizing s with
  | zero => exact h
  | succ k ih => exact ih _ (Memory.wf_write _ _ _ h)

end Sys2Proof.Machine
end

