-- ==== Sys2Proof/Laws/Steps.lean ====
section
/-! SUPPORT. What each step of each agent can do, once: if it answers a next state, one of the listed cases holds. The
provers cite these instead of unfolding the steps. -/

namespace Sys2Proof.Machine

/-! ### Turns, when their condition is known -/

theorem encMove_pixel {s : State} {p : Pixel} (hp : s.enc.phase = .pix) (hi : s.enc.i.toNat < s.enc.npix.toNat)
    (hr : Memory.read s.pixIn s.enc.i.toNat = some p) : encMove s = encPixelOf p s := by
  simp [encMove, encPixel, hp, hi, hr]

theorem encMove_finish {s : State} (hp : s.enc.phase = .pix) (hi : s.enc.i = s.enc.npix) : encMove s = encFinish s := by
  simp [encMove, hp, hi]

theorem encMove_quiet {s : State} (hp : s.enc.phase ≠ .pix) : encMove s = .next s := by
  unfold encMove; split <;> first | rfl | (rename_i h; exact absurd h hp)

theorem decMove_opcode {s : State} (hp : s.dec.phase = .ops) (h : s.dec.pos.toNat + 8 < s.dec.cfgLen.toNat) :
    decMove s = decOpcode s := by
  simp [decMove, hp, h]

theorem decMove_finish {s : State} (hp : s.dec.phase = .ops) (h : s.dec.pos.toNat + 8 = s.dec.cfgLen.toNat) :
    decMove s = .next (decFinish s) := by
  simp [decMove, hp, h]

theorem decMove_quiet {s : State} (hp : s.dec.phase ≠ .ops) : decMove s = .next s := by
  unfold decMove; split <;> first | rfl | (rename_i h; exact absurd h hp)

/-- The pieces of a step: whose turn it is and what that agent does. -/
theorem step_of_nextAgent {s : State} {a : Agent} (h : nextAgent s = a) : step s = agentMove a (popTurn s) := by
  rw [step, h]

/-! ### ENC -/

/-- ENC's turn: nothing enabled, a pixel step, or the finish step (R160). -/
theorem encMove_cases {s t : State} (h : encMove s = .next t) :
    (t = s ∧ (s.enc.phase = .pix → s.enc.npix.toNat < s.enc.i.toNat)) ∨
    (s.enc.phase = .pix ∧ s.enc.i.toNat < s.enc.npix.toNat ∧
      ∃ p, Memory.read s.pixIn s.enc.i.toNat = some p ∧ encPixelOf p s = .next t) ∨
    (s.enc.phase = .pix ∧ s.enc.i = s.enc.npix ∧ encFinish s = .next t) := by
  unfold encMove at h
  split at h
  · rename_i hp
    split_ifs at h with h1 h2
    · unfold encPixel at h
      split at h
      · exact .inr (.inl ⟨hp, h1, _, ‹_›, h⟩)
      · cases h
    · exact .inr (.inr ⟨hp, h2, h⟩)
    · cases h
      refine .inl ⟨rfl, fun _ => ?_⟩
      have : s.enc.i.toNat ≠ s.enc.npix.toNat := fun e => h2 (BitVec.eq_of_toNat_eq e)
      omega
  all_goals
    rename_i hp
    cases h
    exact .inl ⟨rfl, fun e => by simp [hp] at e⟩

/-- The pixel step: a run flushed, a run extended, or a literal (R164). -/
theorem encPixelOf_cases {p : Pixel} {s t : State} (h : encPixelOf p s = .next t) :
    (implicitAlpha s.enc.cfgChannels p = s.enc.prev ∧ (s.enc.run + 1 = 62 ∨ s.enc.i = s.enc.npix - 1) ∧
      s.enc.outlen.toNat + 1 ≤ s.outRoom.toNat ∧
      t = emitAll (encode (.run (s.enc.run + 1).toNat)) (encSetRun 0 (encTake s))) ∨
    (implicitAlpha s.enc.cfgChannels p = s.enc.prev ∧ ¬ (s.enc.run + 1 = 62 ∨ s.enc.i = s.enc.npix - 1) ∧
      t = encSetRun (s.enc.run + 1) (encTake s)) ∨
    (implicitAlpha s.enc.cfgChannels p ≠ s.enc.prev ∧
      s.enc.outlen.toNat + (flushBytes s.enc.run ++ encode (selectOpcode s.deltaArith s.enc.cache s.enc.prev
        (implicitAlpha s.enc.cfgChannels p))).length ≤ s.outRoom.toNat ∧
      t = emitAll (flushBytes s.enc.run ++ encode (selectOpcode s.deltaArith s.enc.cache s.enc.prev
          (implicitAlpha s.enc.cfgChannels p)))
        (encRecord (implicitAlpha s.enc.cfgChannels p) (encSetRun 0 (encTake s)))) := by
  unfold encPixelOf at h
  simp only at h
  split_ifs at h with h1
  · unfold encAbsorb at h
    simp only [encTake_enc_run, beq_iff_eq] at h
    split_ifs at h with h2
    · obtain ⟨h3, h4⟩ := emitBytes_next h
      exact .inl ⟨h1, h2, by simpa [encode] using h3, h4⟩
    · cases h
      exact .inr (.inl ⟨h1, h2, rfl⟩)
  · unfold encLiteral at h
    obtain ⟨h3, h4⟩ := emitBytes_next h
    exact .inr (.inr ⟨h1, by simpa using h3, by simpa using h4⟩)

/-- The finish step (R176). -/
theorem encFinish_next {s t : State} (h : encFinish s = .next t) :
    s.enc.outlen.toNat + 8 ≤ s.outRoom.toNat ∧
      t = emitAll Config.endMarker { s with enc := { s.enc with phase := .done } } := by
  obtain ⟨h1, h2⟩ := emitBytes_next h
  exact ⟨by simpa [Config.endMarker] using h1, h2⟩

/-- The start step of ENC: a channel error, or a pass begun (R161 to R163). -/
theorem encStart_next {s t : State} (h : encStart s = .next t) :
    (channelsLegal s.enc.channels = false ∧ t = raiseError .enc .channel 0 (encBegin s)) ∨
    (channelsLegal s.enc.channels = true ∧ encTooLarge (encBegin s).enc.npix = false ∧
      Memory.present s.pixIn (encBegin s).enc.npix.toNat = true ∧ 14 ≤ s.outRoom.toNat ∧
      t = emitAll (headerBytes s.enc.width s.enc.height s.enc.channels s.enc.colorspace)
        { encBegin s with enc := { (encBegin s).enc with phase := .pix } }) := by
  unfold encStart at h
  simp only at h
  have hc : (encBegin s).enc.cfgChannels = s.enc.channels := rfl
  rw [hc] at h
  split_ifs at h with h1 h2 h3
  · obtain ⟨h4, h5⟩ := emitBytes_next h
    refine .inr ⟨h1, by simpa using h2, h3, ?_, h5⟩
    simpa [headerBytes, Config.magic, be32, encBegin] using h4
  · cases h
    exact .inl ⟨by simpa using h1, rfl⟩

/-! ### DEC -/

/-- What the fetch found when it found an opcode (R203): its bytes lie in the opcode region. -/
theorem fetch_opcode {m : Memory Byte} {pos len : Nat} {i : Instr} (h : fetch m pos len = .opcode i) :
    ∃ b0 bytes rest, Memory.read m pos = some b0 ∧ pos + oplen b0 + 8 ≤ len ∧
      Memory.readAll m pos (oplen b0) = some bytes ∧ decode bytes = .ok (i, rest) := by
  unfold fetch at h
  split at h
  · cases h
  · rename_i b0 hb
    split_ifs at h with h1
    split at h
    · cases h
    · rename_i bytes h2
      split at h
      · rename_i j rest h3
        cases h
        exact ⟨b0, bytes, rest, hb, by omega, h2, h3⟩
      · cases h

/-- DEC's opcode step: an opcode run, or an opcode error (R203). -/
theorem decOpcode_cases {s t : State} (h : decOpcode s = .next t) :
    (∃ i, fetch s.inBuf s.dec.pos.toNat s.dec.cfgLen.toNat = .opcode i ∧ exec i s = .next t) ∨
    (fetch s.inBuf s.dec.pos.toNat s.dec.cfgLen.toNat = .truncated ∧
      t = raiseError .dec .corruptOpcode detailTruncated s) ∨
    (fetch s.inBuf s.dec.pos.toNat s.dec.cfgLen.toNat = .unrecognized ∧
      t = raiseError .dec .corruptOpcode detailUnrecognized s) := by
  unfold decOpcode at h
  split at h
  · exact .inl ⟨_, ‹_›, h⟩
  · cases h; exact .inr (.inl ⟨‹_›, rfl⟩)
  · cases h; exact .inr (.inr ⟨‹_›, rfl⟩)
  · cases h

/-- DEC's turn: nothing enabled, an opcode step, or the finish step (R200). -/
theorem decMove_cases {s t : State} (h : decMove s = .next t) :
    (t = s ∧ (s.dec.phase = .ops → s.dec.cfgLen.toNat < s.dec.pos.toNat + 8)) ∨
    (s.dec.phase = .ops ∧ s.dec.pos.toNat + 8 < s.dec.cfgLen.toNat ∧ decOpcode s = .next t) ∨
    (s.dec.phase = .ops ∧ s.dec.pos.toNat + 8 = s.dec.cfgLen.toNat ∧ t = decFinish s) := by
  unfold decMove at h
  split at h
  · rename_i hp
    split_ifs at h with h1 h2
    · exact .inr (.inl ⟨hp, h1, h⟩)
    · cases h; exact .inr (.inr ⟨hp, h2, rfl⟩)
    · cases h; exact .inl ⟨rfl, fun _ => by omega⟩
  all_goals
    rename_i hp
    cases h
    exact .inl ⟨rfl, fun e => by simp [hp] at e⟩

/-- The start step of DEC: a format error, or a pass begun (R201, R202). -/
theorem decStart_next {s t : State} (h : decStart s = .next t) :
    (∃ d, headerCheck s.inBuf s.dec.len.toNat = some d ∧ t = raiseError .dec .format d (decBegin s)) ∨
    (headerCheck s.inBuf s.dec.len.toNat = none ∧ Memory.present s.inBuf s.dec.len.toNat = true ∧
      decTooLarge s.inBuf s.dec.len.toNat = false ∧
      ∃ w hh c cs, read32 s.inBuf 4 = some w ∧ read32 s.inBuf 8 = some hh ∧ Memory.read s.inBuf 12 = some c ∧
        Memory.read s.inBuf 13 = some cs ∧ t = decEnter w hh c cs (decBegin s)) := by
  unfold decStart at h
  have h0 : (decBegin s).dec.cfgLen = s.dec.len := rfl
  have h0' : (decBegin s).inBuf = s.inBuf := rfl
  simp only [h0, h0'] at h
  split_ifs at h with h1
  split at h
  · cases h
    exact .inl ⟨_, ‹_›, rfl⟩
  · rename_i hn
    right
    have hlen : 14 ≤ s.dec.len.toNat := by
      by_contra hlt
      simp [headerCheck, show s.dec.len.toNat < 14 by omega] at hn
    have hpres : Memory.present s.inBuf s.dec.len.toNat = true := by
      by_contra hne
      exact h1 ⟨hlen, by simpa using hne⟩
    unfold decLaunch at h
    simp only [h0, h0'] at h
    split_ifs at h with h2
    split at h
    · cases h
      exact ⟨hn, hpres, by simpa using h2, _, _, _, _, ‹_›, ‹_›, ‹_›, ‹_›, rfl⟩
    · cases h

/-- What the header checks let through (R202). -/
theorem headerCheck_none {m : Memory Byte} {len : Nat} (h : headerCheck m len = none) :
    22 ≤ len ∧ memRead m 0 4 = some 0x716F6966 ∧ memRead m (len - 8) 8 = some 1 := by
  unfold headerCheck at h
  split_ifs at h with h1 h2 h3
  rw [not_or] at h3
  exact ⟨by omega, not_not.mp h2, not_not.mp h3.2⟩

/-- The details a header check gives (R246). -/
theorem headerCheck_some {m : Memory Byte} {len : Nat} {d : BitVec 4} (h : headerCheck m len = some d) :
    d = 1 ∨ d = 2 ∨ d = 3 := by
  unfold headerCheck at h
  split_ifs at h <;> cases h <;> simp [detailShort, detailMagic, detailMarker]

/-! ### The host -/

/-- The fields a register read may change (spec/20_memory.md R70): what was returned, and what the host has seen. -/
theorem readReg_spec (offset : Nat) (s : State) :
    readReg offset s = { s with
      replies := (readReg offset s).replies
      encSeen := (readReg offset s).encSeen, decSeen := (readReg offset s).decSeen
      outValid := (readReg offset s).outValid, pixOutValid := (readReg offset s).pixOutValid } := by
  unfold readReg
  split
  · rfl
  · rename_i r _
    cases r <;> rfl

theorem readOut_spec (a : Index) (s : State) :
    readOut a s = { s with replies := (readOut a s).replies, free := (readOut a s).free } := by
  unfold readOut; split <;> rfl

theorem readPixOut_spec (i : Index) (s : State) :
    readPixOut i s = { s with replies := (readPixOut i s).replies, free := (readPixOut i s).free } := by
  unfold readPixOut; split <;> rfl

/-- A register write: nothing, a configuration register, or a start (R37 to R56, R258). -/
theorem writeReg_cases {r : Reg} {v : Word} {s t : State} (h : writeReg r v s = .next t) :
    t = s ∨
    (s.enc.phase ≠ .pix ∧ ∃ w hh c cs,
      t = { s with enc := { s.enc with width := w, height := hh, channels := c, colorspace := cs } }) ∨
    (s.dec.phase ≠ .ops ∧ ∃ n, t = { s with dec := { s.dec with len := n } }) ∨
    (s.enc.phase ≠ .pix ∧ encStart s = .next t) ∨
    (s.dec.phase ≠ .ops ∧ decStart s = .next t) := by
  cases r
  case encCtrl =>
    simp only [writeReg, encCommand] at h
    split_ifs at h with hc
    · simp [encBusy] at hc
      exact .inr (.inr (.inr (.inl ⟨hc.2, h⟩)))
    · cases h; exact .inl rfl
  case decCtrl =>
    simp only [writeReg, decCommand] at h
    split_ifs at h with hc
    · simp [decBusy] at hc
      exact .inr (.inr (.inr (.inr ⟨hc.2, h⟩)))
    · cases h; exact .inl rfl
  case decLenLo =>
    simp only [writeReg, writeDecLen] at h
    split_ifs at h with hc <;> cases h
    · exact .inl rfl
    · simp [decBusy] at hc
      exact .inr (.inr (.inl ⟨hc, _, rfl⟩))
  case decLenHi =>
    simp only [writeReg, writeDecLen] at h
    split_ifs at h with hc <;> cases h
    · exact .inl rfl
    · simp [decBusy] at hc
      exact .inr (.inr (.inl ⟨hc, _, rfl⟩))
  case encWidth | encHeight | encChannels | encColorspace =>
    simp only [writeReg, writeEncConfig] at h
    split_ifs at h with hc <;> cases h
    · exact .inl rfl
    · simp [encBusy] at hc
      exact .inr (.inl ⟨hc, _, _, _, _, rfl⟩)
  all_goals
    cases h
    exact .inl rfl

/-- One move of the host: a read, a register write, a buffer move, or reset. -/
theorem perform_cases {m : HostMove} {s t : State} (h : perform m s = .next t) :
    (∃ a f es ds ov pv,
      t = { s with replies := a, free := f, encSeen := es, decSeen := ds, outValid := ov, pixOutValid := pv }) ∨
    (∃ r v, writeReg r v s = .next t) ∨
    (s.enc.phase ≠ .pix ∧ ∃ start ps, t = { s with pixIn := Memory.writeAll s.pixIn start ps }) ∨
    (s.dec.phase ≠ .ops ∧ ∃ start bs, t = { s with inBuf := Memory.writeAll s.inBuf start bs }) ∨
    (s.enc.phase ≠ .pix ∧ ∃ room, t = { s with outBuf := [], outRoom := room, outValid := 0 }) ∨
    (s.dec.phase ≠ .ops ∧ ∃ room, t = { s with pixOut := [], pixOutRoom := room, pixOutValid := 0 }) ∨
    (s.dec.phase ≠ .ops ∧ s.outValid ≠ 0 ∧
      t = { s with inBuf := s.outBuf.filter (fun c => decide (c.1 < s.outValid.toNat)) }) ∨
    t = powerOnReset s := by
  cases m with
  | regRead size offset =>
    cases size
    case word => cases h; exact .inl ⟨_, _, _, _, _, _, readReg_spec offset s⟩
    all_goals cases h
  | regWrite size offset v =>
    cases size
    case word =>
      simp only [perform, writeAt] at h
      split at h
      · cases h; exact .inl ⟨_, _, _, _, _, _, rfl⟩
      · exact .inr (.inl ⟨_, _, h⟩)
    all_goals cases h
  | putPixIn start ps =>
    simp only [perform, placePixIn] at h
    split_ifs at h with h1 h2
    cases h
    exact .inr (.inr (.inl ⟨by simpa [encBusy] using h1, _, _, rfl⟩))
  | putIn start bs =>
    simp only [perform, placeIn] at h
    split_ifs at h with h1 h2
    cases h
    exact .inr (.inr (.inr (.inl ⟨by simpa [decBusy] using h1, _, _, rfl⟩)))
  | provideOut room =>
    simp only [perform, provideOut] at h
    split_ifs at h with h1
    cases h
    exact .inr (.inr (.inr (.inr (.inl ⟨by simpa [encBusy] using h1, _, rfl⟩))))
  | providePixOut room =>
    simp only [perform, providePixOut] at h
    split_ifs at h with h1
    cases h
    exact .inr (.inr (.inr (.inr (.inr (.inl ⟨by simpa [decBusy] using h1, _, rfl⟩)))))
  | outToIn =>
    simp only [perform, outToIn] at h
    split_ifs at h with h1 h2
    cases h
    exact .inr (.inr (.inr (.inr (.inr (.inr (.inl ⟨by simpa [decBusy] using h1, h2, rfl⟩))))))
  | readOut a => cases h; exact .inl ⟨_, _, _, _, _, _, readOut_spec a s⟩
  | readPixOut i => cases h; exact .inl ⟨_, _, _, _, _, _, readPixOut_spec i s⟩
  | powerOnReset => cases h; exact .inr (.inr (.inr (.inr (.inr (.inr (.inr rfl))))))

/-- The host's turn: no move pending, or the oldest one. -/
theorem hostMove_cases {s t : State} (h : hostMove s = .next t) :
    t = s ∨ ∃ m rest, s.host = m :: rest ∧ perform m { s with host := rest } = .next t := by
  unfold hostMove at h
  split at h
  · cases h; exact .inl rfl
  · exact .inr ⟨_, _, ‹_›, h⟩

/-- One step of the machine: one move of one agent, the turn used up. -/
theorem step_cases {s t : State} (h : step s = .next t) :
    encMove (popTurn s) = .next t ∨ decMove (popTurn s) = .next t ∨ hostMove (popTurn s) = .next t := by
  unfold step agentMove at h
  split at h
  · exact .inr (.inr h)
  · exact .inl h
  · exact .inr (.inl h)

end Sys2Proof.Machine
end

