-- ==== Sys2Proof/Laws/Frames.lean ====
section
/-! SUPPORT. The two units keep out of each other's state, and what the host's turn leaves of each unit: the provers cite
these instead of taking the moves apart again. -/

namespace Sys2Proof.Machine

/-- Emitting changes `OUT` and `outlen`, nothing else. -/
theorem emitAll_eq (bs : List Byte) (s : State) :
    emitAll bs s = { s with
      outBuf := (emitAll bs s).outBuf, enc := { s.enc with outlen := (emitAll bs s).enc.outlen } } := by
  induction bs generalizing s with
  | nil => rfl
  | cons b t ih => exact (ih (emit b s)).trans rfl

/-- Producing changes `PIXOUT`, `prev`, the cache and `pixcnt`, nothing else. -/
theorem produceN_eq (n : Nat) (p : Pixel) (s : State) :
    produceN n p s = { s with
      pixOut := (produceN n p s).pixOut
      dec := { s.dec with
        prev := (produceN n p s).dec.prev
        cache := (produceN n p s).dec.cache
        pixcnt := (produceN n p s).dec.pixcnt } } := by
  induction n generalizing s with
  | zero => rfl
  | succ k ih => exact (ih (produce p s)).trans rfl

/-- A start of ENC leaves DEC alone. -/
theorem encStart_dec {s t : State} (h : encStart s = .next t) : t.dec = s.dec := by
  rcases encStart_next h with ⟨_, rfl⟩ | ⟨_, _, _, _, rfl⟩
  · rfl
  · simp [encBegin]

/-- A start of DEC leaves ENC alone. -/
theorem decStart_enc {s t : State} (h : decStart s = .next t) : t.enc = s.enc := by
  rcases decStart_next h with ⟨_, _, rfl⟩ | ⟨_, _, _, _, _, _, _, _, _, _, _, rfl⟩ <;> rfl

/-- What the host's turn leaves of ENC: as it was, a configuration register written while not busy, a start while not busy,
or reset. -/
theorem hostMove_enc {s t : State} (h : hostMove s = .next t) :
    t.enc = s.enc ∨
    (s.enc.phase ≠ .pix ∧ ∃ w hh c cs,
      t.enc = { s.enc with width := w, height := hh, channels := c, colorspace := cs }) ∨
    (s.enc.phase ≠ .pix ∧ ∃ s', s'.enc = s.enc ∧ s'.outBuf = s.outBuf ∧ encStart s' = .next t) ∨
    t.enc = Enc.reset := by
  rcases hostMove_cases h with rfl | ⟨m, rest, _, h⟩
  · exact .inl rfl
  · rcases perform_cases h with ⟨_, _, _, _, _, _, rfl⟩ | ⟨r, v, h⟩ | ⟨_, _, _, rfl⟩ | ⟨_, _, _, rfl⟩ | ⟨_, _, rfl⟩ |
      ⟨_, _, rfl⟩ | ⟨_, _, rfl⟩ | rfl
    · exact .inl rfl
    · rcases writeReg_cases h with rfl | ⟨hp, _, _, _, _, rfl⟩ | ⟨_, _, rfl⟩ | ⟨hp, h⟩ | ⟨_, h⟩
      · exact .inl rfl
      · exact .inr (.inl ⟨hp, _, _, _, _, rfl⟩)
      · exact .inl rfl
      · exact .inr (.inr (.inl ⟨hp, { s with host := rest }, rfl, rfl, h⟩))
      · exact .inl (by rw [decStart_enc h])
    · exact .inl rfl
    · exact .inl rfl
    · exact .inl rfl
    · exact .inl rfl
    · exact .inl rfl
    · exact .inr (.inr (.inr rfl))

/-- What the host's turn leaves of DEC: as it was, the length written while not busy, a start while not busy, or reset. -/
theorem hostMove_dec {s t : State} (h : hostMove s = .next t) :
    t.dec = s.dec ∨
    (s.dec.phase ≠ .ops ∧ ∃ n, t.dec = { s.dec with len := n }) ∨
    (s.dec.phase ≠ .ops ∧ ∃ s', s'.dec = s.dec ∧ decStart s' = .next t) ∨
    t.dec = Dec.reset := by
  rcases hostMove_cases h with rfl | ⟨m, rest, _, h⟩
  · exact .inl rfl
  · rcases perform_cases h with ⟨_, _, _, _, _, _, rfl⟩ | ⟨r, v, h⟩ | ⟨_, _, _, rfl⟩ | ⟨_, _, _, rfl⟩ | ⟨_, _, rfl⟩ |
      ⟨_, _, rfl⟩ | ⟨_, _, rfl⟩ | rfl
    · exact .inl rfl
    · rcases writeReg_cases h with rfl | ⟨_, _, _, _, _, rfl⟩ | ⟨hp, _, rfl⟩ | ⟨_, h⟩ | ⟨hp, h⟩
      · exact .inl rfl
      · exact .inl rfl
      · exact .inr (.inl ⟨hp, _, rfl⟩)
      · exact .inl (by rw [encStart_dec h])
      · exact .inr (.inr (.inl ⟨hp, { s with host := rest }, rfl, h⟩))
    · exact .inl rfl
    · exact .inl rfl
    · exact .inl rfl
    · exact .inl rfl
    · exact .inl rfl
    · exact .inr (.inr (.inr rfl))

/-- What makes the room for a pixel count exact: `npix` is the product of the two 32-bit registers, without overflow
(spec/10_state.md R34). -/
theorem encBegin_npix (s : State) : (encBegin s).enc.npix.toNat = s.enc.width.toNat * s.enc.height.toNat := by
  have h1 := s.enc.width.isLt
  have h2 := s.enc.height.isLt
  show (s.enc.width.setWidth 64 * s.enc.height.setWidth 64).toNat = _
  rw [BitVec.toNat_mul, BitVec.toNat_setWidth, BitVec.toNat_setWidth, Nat.mod_eq_of_lt (a := s.enc.width.toNat) (by omega),
    Nat.mod_eq_of_lt (a := s.enc.height.toNat) (by omega)]
  refine Nat.mod_eq_of_lt ?_
  have := Nat.mul_lt_mul'' h1 h2
  omega

end Sys2Proof.Machine
end

