-- ==== Sys2Proof/Laws/PerInstr.lean ====
section
/-! SUPPORT. Facts about the encoding of each instruction as a term, one lemma a constructor, and about big-endian numbers. -/

namespace Sys2Proof

theorem beNat_append_singleton (bs : List Byte) (b : Byte) : beNat (bs ++ [b]) = beNat bs * 256 + b.toNat := by
  simp [beNat]

/-- Byte strings of one length are told apart by their big-endian numbers. -/
theorem beNat_injective {xs ys : List Byte} (hl : xs.length = ys.length) (h : beNat xs = beNat ys) : xs = ys := by
  induction xs using List.reverseRecOn generalizing ys with
  | nil => exact (List.length_eq_zero_iff.mp hl.symm).symm
  | append_singleton t b ih =>
    cases ys using List.reverseRecOn with
    | nil => simp at hl
    | append_singleton u c =>
      rw [beNat_append_singleton, beNat_append_singleton] at h
      have hb := b.isLt
      have hc := c.isLt
      have h1 : b = c := BitVec.eq_of_toNat_eq (by omega)
      have h2 : t = u := ih (by simpa using hl) (by omega)
      rw [h1, h2]

/-- The four bytes of a 32-bit value read back as it. -/
theorem beNat_be32 (v : Word) : beNat (be32 v) = v.toNat := by
  have h := v.isLt
  simp only [be32, beNat, List.foldl, BitVec.extractLsb'_toNat, Nat.shiftRight_eq_div_pow]
  omega

/-- A multi-byte read is a given string's number exactly when the bytes are that string. -/
theorem Machine.memRead_eq_iff {m : Machine.Memory Byte} {a n : Nat} {bs : List Byte} (hl : bs.length = n) :
    Machine.memRead m a n = some (beNat bs) ↔ Machine.Memory.readAll m a n = some bs := by
  unfold Machine.memRead
  constructor
  · intro h
    obtain ⟨cs, hc, he⟩ := Option.map_eq_some_iff.mp h
    have := ((Machine.Memory.readAll_eq_some_iff _ _ _ _).mp hc).1
    rw [hc, beNat_injective (by omega) he]
  · intro h
    rw [h]; rfl

end Sys2Proof

namespace Sys2Proof.Laws

/-- A well-formed instruction's bytes are as many as its length, and its first byte tells that length (R97). -/
def EncodedLength.Statement (i : Instr) : Prop :=
  i.wf = true → (encode i).length = i.length ∧ ∃ b t, encode i = b :: t ∧ oplen b = i.length

theorem EncodedLength.rgba (r g b a : Byte) : EncodedLength.Statement (.rgba r g b a) :=
  fun _ => ⟨rfl, _, _, rfl, rfl⟩

theorem EncodedLength.rgb (r g b : Byte) : EncodedLength.Statement (.rgb r g b) :=
  fun _ => ⟨rfl, _, _, rfl, rfl⟩

theorem EncodedLength.index (idx : BitVec 6) : EncodedLength.Statement (.index idx) :=
  fun _ => ⟨rfl, _, _, rfl, by revert idx; decide⟩

theorem EncodedLength.diff (dr dg db : Int) : EncodedLength.Statement (.diff dr dg db) := by
  intro h
  refine ⟨rfl, _, _, rfl, ?_⟩
  simp only [Instr.wf, inRange, Bool.and_eq_true, decide_eq_true_eq] at h
  obtain ⟨⟨⟨h1, h2⟩, h3, h4⟩, h5, h6⟩ := h
  interval_cases dr <;> interval_cases dg <;> interval_cases db <;> rfl

theorem EncodedLength.luma (dg drDg dbDg : Int) : EncodedLength.Statement (.luma dg drDg dbDg) := by
  intro h
  refine ⟨rfl, _, _, rfl, ?_⟩
  simp only [Instr.wf, inRange, Bool.and_eq_true, decide_eq_true_eq] at h
  obtain ⟨⟨⟨h1, h2⟩, -⟩, -⟩ := h
  interval_cases dg <;> rfl

theorem EncodedLength.run (len : Nat) : EncodedLength.Statement (.run len) := by
  intro h
  refine ⟨rfl, _, _, rfl, ?_⟩
  simp only [Instr.wf, Bool.and_eq_true, decide_eq_true_eq] at h
  obtain ⟨h1, h2⟩ := h
  interval_cases len <;> rfl

end Sys2Proof.Laws
end

