-- ==== Sys2Proof/Laws/Registers.lean ====
section
/-! SUPPORT. What a register read returns: its record, its reserved bits, and what it does not depend on; and which output it
and power-on reset leave guaranteed. -/

namespace Sys2Proof.Machine

/-- A read of a register of the map records what it returns, whatever else the read did. -/
theorem readReg_replies {offset : Nat} {r : Reg} (h : regAt offset = some r) (s : State) :
    (readReg offset s).replies = .word offset (readValue offset r s) :: s.replies := by
  unfold readReg
  rw [h]
  cases r <;> rfl

/-- A settled register reads as what it holds. -/
theorem readValue_of_settled {offset : Nat} {r : Reg} {s : State} (h : regSettled r s = true) :
    readValue offset r s = regValue r s := if_pos h

/-- STATUS has no bit beside BUSY, DONE, ERR, ERRCODE and ERRDETAIL. -/
theorem statusWord_and_implemented (busy done err : Bool) (c d : BitVec 4) :
    statusWord busy done err c d &&& 0x00000FF7 = statusWord busy done err c d := by
  revert busy done err c d
  decide +kernel

theorem setWidth_and_low (b : Byte) : b.setWidth 32 &&& 0x000000FF = b.setWidth 32 := by
  revert b
  decide +kernel

/-- No register holds anything in its reserved bits (R37). -/
theorem regValue_and_implemented (r : Reg) (s : State) : regValue r s &&& implementedBits r = regValue r s := by
  have ones : ∀ w : Word, w &&& 0xFFFFFFFF = w := fun w => BitVec.and_allOnes
  cases r
  case encStatus => exact statusWord_and_implemented ..
  case decStatus => exact statusWord_and_implemented ..
  case encChannels => exact setWidth_and_low _
  case encColorspace => exact setWidth_and_low _
  case decChannels => exact setWidth_and_low _
  case decColorspace => exact setWidth_and_low _
  case encCtrl => exact BitVec.and_self
  case decCtrl => exact BitVec.and_self
  all_goals exact ones _

/-- Nor does a read return anything there, settled or not. -/
theorem readValue_and_implemented (offset : Nat) (r : Reg) (s : State) :
    readValue offset r s &&& implementedBits r = readValue offset r s := by
  unfold readValue unsettledValue
  split_ifs
  · exact regValue_and_implemented r s
  · rw [BitVec.and_assoc, BitVec.and_self]

/-! ### The output the host is guaranteed (spec/20_memory.md R76) -/

/-- The host's read of ENC_STATUS with DONE = 1 guarantees it the bytes ENC wrote. -/
theorem readReg_encStatus_outValid {s : State} (h : s.enc.phase = .done) : (readReg 0x04 s).outValid = s.enc.outlen := by
  simp [readReg, regAt, acquire, reply, h]

/-- The host's read of DEC_STATUS with DONE = 1 guarantees it the pixels DEC wrote. -/
theorem readReg_decStatus_pixOutValid {s : State} (h : s.dec.phase = .done) :
    (readReg 0x44 s).pixOutValid = s.dec.pixcnt := by
  simp [readReg, regAt, acquire, reply, h]

/-- A guaranteed byte of `OUT` is what the host reads. -/
theorem readOut_of_valid {s : State} {a : Index} {b : Byte} (h : a.toNat < s.outValid.toNat)
    (hb : Memory.read s.outBuf a.toNat = some b) : readOut a s = reply (.outByte a b) s := by
  simp [readOut, settledOut, h, hb]

/-- A guaranteed pixel of `PIXOUT` is what the host reads. -/
theorem readPixOut_of_valid {s : State} {i : Index} {p : Pixel} (h : i.toNat < s.pixOutValid.toNat)
    (hp : Memory.read s.pixOut i.toNat = some p) : readPixOut i s = reply (.pixel i p) s := by
  simp [readPixOut, settledPixOut, h, hp]

@[simp] theorem powerOnReset_outValid (s : State) : (powerOnReset s).outValid = s.outValid := rfl
@[simp] theorem powerOnReset_pixOutValid (s : State) : (powerOnReset s).pixOutValid = s.pixOutValid := rfl
@[simp] theorem powerOnReset_outBuf (s : State) : (powerOnReset s).outBuf = s.outBuf := rfl
@[simp] theorem powerOnReset_pixOut (s : State) : (powerOnReset s).pixOut = s.pixOut := rfl

end Sys2Proof.Machine
end

