-- ==== Sys2Proof/Tests/Slice0.lean ====
section
/-! SUPPORT. The model's own tests: refused ill-formed terms, words written out bit by bit from spec/30_encoding.md, single steps
on the vectors of spec/95_test_vectors.md, and a witness for the hypotheses of every statement. -/

-- One proof at a time: side by side they would need more threads than the memory limit of a check allows.
set_option Elab.async false

namespace Sys2Proof.Tests

open Sys2Proof.Machine Sys2Proof.Claims

/-! ## Helpers -/

/-- The result is a next state with this property. -/
def nextAnd (r : Result) (p : State → Bool) : Bool :=
  match r with
  | .next t => p t
  | .fault _ => false
  | .refused _ => false

theorem nextAnd_exists {r : Result} {p : State → Bool} (h : nextAnd r p = true) : ∃ t, r = .next t ∧ p t = true := by
  cases r with
  | next t => exact ⟨t, rfl, h⟩
  | fault _ => cases h
  | refused _ => cases h

/-- A buffer holding these elements from index 0. -/
def bufferOf {α : Type} (vs : List α) : Memory α := Memory.writeAll [] 0 vs

/-- The header of a one-pixel RGBA image, then opcodes, then the end marker (`.header 1, 1, 4, 0`). -/
def streamOf (ops : List Byte) : List Byte := headerBytes 1 1 4 0 ++ ops ++ [0, 0, 0, 0, 0, 0, 0, 1]

/-- DEC in a pass over that stream, at its first opcode, with room for `room` pixels. -/
def decPass (ops : List Byte) (room : Index) : State :=
  { State.reset with
    inBuf := bufferOf (streamOf ops)
    pixOutRoom := room
    dec := { Dec.reset with phase := .ops, cfgLen := 22 + BitVec.ofNat 64 ops.length, pos := 14 } }

/-- DEC idle, its input and length set. -/
def decReady (bytes : List Byte) : State :=
  { State.reset with
    inBuf := bufferOf bytes
    pixOutRoom := 64
    dec := { Dec.reset with len := BitVec.ofNat 64 bytes.length } }

/-- ENC idle, a one-row image set, room for 64 bytes. -/
def encReady (channels : Byte) (ps : List Pixel) : State :=
  { State.reset with
    pixIn := bufferOf ps
    outRoom := 64
    enc := { Enc.reset with width := BitVec.ofNat 32 ps.length, height := 1, channels := channels } }

/-- ENC in a pass over a one-row image, `i` pixels taken, a pending run, a previous pixel. -/
def encPass (channels : Byte) (ps : List Pixel) (i : Index) (run : BitVec 6) (prev : Pixel) : State :=
  { State.reset with
    pixIn := bufferOf ps
    outRoom := 64
    enc := { Enc.reset with
      phase := .pix, cfgWidth := BitVec.ofNat 32 ps.length, cfgHeight := 1, cfgChannels := channels
      npix := BitVec.ofNat 64 ps.length, i := i, run := run, prev := prev, outlen := 14 } }

/-- The new bytes of `OUT` from offset 14 on. -/
def emittedFrom14 (n : Nat) (t : State) : Option (List Byte) := Memory.readAll t.outBuf 14 n

/-! ## Ill-formed terms are refused (R100, R105) -/

theorem test_wf_refuses_diff_dr_low : Instr.wf (.diff (-3) 0 0) = false := by decide
theorem test_wf_refuses_diff_dr_high : Instr.wf (.diff 2 0 0) = false := by decide
theorem test_wf_refuses_diff_dg_low : Instr.wf (.diff 0 (-3) 0) = false := by decide
theorem test_wf_refuses_diff_dg_high : Instr.wf (.diff 0 2 0) = false := by decide
theorem test_wf_refuses_diff_db_low : Instr.wf (.diff 0 0 (-3)) = false := by decide
theorem test_wf_refuses_diff_db_high : Instr.wf (.diff 0 0 2) = false := by decide
theorem test_wf_refuses_luma_dg_low : Instr.wf (.luma (-33) 0 0) = false := by decide
theorem test_wf_refuses_luma_dg_high : Instr.wf (.luma 32 0 0) = false := by decide
theorem test_wf_refuses_luma_red_low : Instr.wf (.luma 0 (-9) 0) = false := by decide
theorem test_wf_refuses_luma_red_high : Instr.wf (.luma 0 8 0) = false := by decide
theorem test_wf_refuses_luma_blue_low : Instr.wf (.luma 0 0 (-9)) = false := by decide
theorem test_wf_refuses_luma_blue_high : Instr.wf (.luma 0 0 8) = false := by decide
theorem test_wf_refuses_run_0 : Instr.wf (.run 0) = false := by decide
theorem test_wf_refuses_run_63 : Instr.wf (.run 63) = false := by decide
theorem test_wf_refuses_header_width : AsmLine.wf (.header (2 ^ 32) 0 0 0) = false := by decide
theorem test_wf_refuses_header_height : AsmLine.wf (.header 0 (2 ^ 32) 0 0) = false := by decide
theorem test_wf_refuses_header_channels : AsmLine.wf (.header 0 0 256 0) = false := by decide
theorem test_wf_refuses_header_colorspace : AsmLine.wf (.header 0 0 0 256) = false := by decide
theorem test_assembler_refuses_run_63 : assemble [.op (.run 63)] = none := by decide

/-! ## Words written out from R91 to R96, bit by bit -/

/-- R96: `FF`, then r, g, b, a. -/
theorem test_decode_rgba : decode [0b11111111, 0b00000001, 0b00000010, 0b00000011, 0b00000100, 0xAA]
    = .ok (.rgba 1 2 3 4, [0xAA]) := by decide
/-- R96: `FE`, then r, g, b. -/
theorem test_decode_rgb : decode [0b11111110, 0b11111111, 0b00000000, 0b01111111] = .ok (.rgb 255 0 127, []) := by decide
/-- R91: tag 00, slot 110101. -/
theorem test_decode_index : decode [0b00110101] = .ok (.index 53, []) := by decide
/-- R92: tag 01, red 11, green 00, blue 10. -/
theorem test_decode_diff : decode [0b01110010] = .ok (.diff 1 (-2) 0, []) := by decide
/-- R94: tag 10, green 000001; red 1111, blue 0000. -/
theorem test_decode_luma : decode [0b10000001, 0b11110000] = .ok (.luma (-31) 7 (-8), []) := by decide
/-- R95: tag 11, length 000100 and one more. -/
theorem test_decode_run : decode [0b11000100] = .ok (.run 5, []) := by decide
/-- R102: an opcode can only be cut short. -/
theorem test_decode_cut_short : decode [0b11111111, 1, 2] = .error .truncated := by decide
theorem test_decode_nothing : decode [] = .error .empty := by decide

/-- Table words: the first byte lowest, the operand words zero where the table gives them no bits. -/
theorem test_table_words :
    decodeTableWord 40 0x04030201FF = some (.rgba 1 2 3 4) ∧ decodeTableWord 8 0xFF = some (.rgba 0 0 0 0) ∧
    decodeTableWord 32 0x7F00FFFE = some (.rgb 255 0 127) ∧ decodeTableWord 8 0x35 = some (.index 53) ∧
    decodeTableWord 8 0x72 = some (.diff 1 (-2) 0) ∧ decodeTableWord 16 0xF081 = some (.luma (-31) 7 (-8)) ∧
    decodeTableWord 8 0xC4 = some (.run 5) := by decide

/-- The whole stream of L1-7 from its assembler lines. -/
theorem test_assemble_L1_7 :
    assemble [.header 2 1 3 0, .op (.luma 10 0 0), .op (.run 1), .endMarker]
      = some [0x71, 0x6F, 0x69, 0x66, 0, 0, 0, 2, 0, 0, 0, 1, 3, 0, 0xAA, 0x88, 0xC0, 0, 0, 0, 0, 0, 0, 0, 1] := by decide

/-! ## The first step after reset runs a placed word (and the free read is the only thing the host cannot know) -/

theorem test_step_runs_placed_rgba :
    nextAnd (step (State.reset.withFetchWord 40 0x04030201FF))
      (fun t => t.dec.prev == ⟨1, 2, 3, 4⟩ && t.dec.pos == 19 && t.dec.pixcnt == 1) = true := by decide +kernel
theorem test_step_runs_placed_run :
    nextAnd (step (State.reset.withFetchWord 8 0xFD))
      (fun t => t.dec.pixcnt == 62 && t.dec.pos == 15 && Memory.read t.pixOut 61 == some ⟨0, 0, 0, 255⟩) = true := by
  decide +kernel
theorem test_reset_is_quiet : step State.reset = .next State.reset := by rfl

/-! ## One step an opcode, at most two an instruction (vectors L2-D) -/

/-- L2-D10. -/
theorem test_rgba_step : nextAnd (step (decPass [0xFF, 1, 2, 3, 4] 1))
    (fun t => Memory.read t.pixOut 0 == some ⟨1, 2, 3, 4⟩ && cacheRead t.dec.cache 14 == ⟨1, 2, 3, 4⟩ &&
      t.dec.pos == 19) = true := by decide +kernel
/-- L2-D9: alpha is the previous pixel's. -/
theorem test_rgb_step : nextAnd (step (decPass [0xFE, 1, 2, 3] 1))
    (fun t => Memory.read t.pixOut 0 == some ⟨1, 2, 3, 255⟩ && cacheRead t.dec.cache 23 == ⟨1, 2, 3, 255⟩) = true := by
  decide +kernel
/-- L2-D1: the write goes to slot 0, not to slot 5. -/
theorem test_index_step : nextAnd (step (decPass [0x05] 1))
    (fun t => Memory.read t.pixOut 0 == some ⟨0, 0, 0, 0⟩ && t.dec.prev == ⟨0, 0, 0, 0⟩) = true := by decide +kernel
/-- L2-D3: (-1, -1, -1) wraps below 0. -/
theorem test_diff_step_low : nextAnd (step (decPass [0x55] 1))
    (fun t => Memory.read t.pixOut 0 == some ⟨255, 255, 255, 255⟩ && cacheRead t.dec.cache 38 == ⟨255, 255, 255, 255⟩)
      = true := by decide +kernel
/-- L2-D17: the minimum. -/
theorem test_diff_step_min : nextAnd (step (decPass [0x40] 1))
    (fun t => Memory.read t.pixOut 0 == some ⟨254, 254, 254, 255⟩) = true := by decide +kernel
/-- L2-D7: the minimum of LUMA. -/
theorem test_luma_step_min : nextAnd (step (decPass [0x80, 0x00] 1))
    (fun t => Memory.read t.pixOut 0 == some ⟨216, 224, 216, 255⟩ && t.dec.pos == 16) = true := by decide +kernel
/-- L2-D8: the maximum of LUMA. -/
theorem test_luma_step_max : nextAnd (step (decPass [0xBF, 0xFF] 1))
    (fun t => Memory.read t.pixOut 0 == some ⟨38, 31, 38, 255⟩) = true := by decide +kernel
/-- L2-D2: a leading RUN repeats the seed and writes slot 53. -/
theorem test_run_step : nextAnd (step (decPass [0xC1] 2))
    (fun t => Memory.read t.pixOut 1 == some ⟨0, 0, 0, 255⟩ && cacheRead t.dec.cache 53 == ⟨0, 0, 0, 255⟩ &&
      t.dec.pixcnt == 2) = true := by decide +kernel

/-! ## Single steps of ENC (vectors L2-E) and the errors (L2-X) -/

/-- L2-E3: LUMA from the seed. -/
theorem test_enc_luma : nextAnd (encMove (encPass 4 [⟨10, 10, 10, 255⟩] 0 0 Pixel.seed))
    (fun t => emittedFrom14 2 t == some [0xAA, 0x88] && cacheRead t.enc.cache 11 == ⟨10, 10, 10, 255⟩) = true := by
  decide +kernel
/-- L2-E4: slot 0 misses on alpha, RGBA. -/
theorem test_enc_rgba : nextAnd (encMove (encPass 4 [⟨0, 0, 0, 128⟩] 0 0 Pixel.seed))
    (fun t => emittedFrom14 5 t == some [0xFF, 0, 0, 0, 0x80]) = true := by decide +kernel
/-- L2-E20 and L2-E21: the two delta modes. -/
theorem test_enc_delta_modes :
    nextAnd (encMove (encPass 4 [⟨255, 255, 255, 255⟩] 0 0 Pixel.seed))
      (fun t => emittedFrom14 4 t == some [0xFE, 0xFF, 0xFF, 0xFF]) = true ∧
    nextAnd (encMove { encPass 4 [⟨255, 255, 255, 255⟩] 0 0 Pixel.seed with deltaArith := .wrap8 })
      (fun t => emittedFrom14 1 t == some [0x55]) = true := by
  constructor <;> decide +kernel
/-- L2-X1, L2-X3, L2-X4: the three details of FormatError. -/
theorem test_format_errors :
    nextAnd (decStart (decReady (List.replicate 13 0x71))) (fun t => t.dec.errdetail == 1 && t.dec.errcode == 1) = true ∧
    nextAnd (decStart (decReady (List.replicate 22 0))) (fun t => t.dec.errdetail == 2 && t.dec.errcode == 1) = true ∧
    nextAnd (decStart (decReady (headerBytes 1 1 4 0 ++ List.replicate 7 0)))
      (fun t => t.dec.errdetail == 3 && t.dec.errcode == 1) = true := by
  refine ⟨?_, ?_, ?_⟩ <;> decide +kernel
/-- L2-X8: TRUNCATED, at the opcode's offset. -/
theorem test_truncated : nextAnd (step (decPass [0xFF, 1, 2] 1))
    (fun t => t.dec.errcode == 4 && t.dec.errdetail == 1 && t.dec.pos == 14 && t.dec.pixcnt == 0) = true := by
  decide +kernel
/-- L2-E23: ChannelError before any byte. -/
theorem test_channel_error : nextAnd (encStart (encReady 5 [⟨1, 2, 3, 4⟩]))
    (fun t => t.enc.errcode == 2 && t.enc.errdetail == 0 && t.enc.outlen == 0 && t.outBuf == []) = true := by decide +kernel

/-! ## Witnesses: states that meet the hypotheses of the statements, clause by clause -/

theorem witness_DecodingUndoesEncoding :
    Instr.wf (.luma (-32) 7 (-8)) = true ∧ Instr.wf (.diff (-2) 1 1) = true ∧ Instr.wf (.run 1) = true ∧
    Instr.wf (.run 62) = true ∧ Instr.wf (.index 63) = true ∧ Instr.wf (.rgb 0 255 0) = true ∧
    Instr.wf (.rgba 0 255 0 255) = true := by decide

theorem witness_EncodingUndoesDecoding : decode [0xBF, 0xFF, 7] = .ok (.luma 31 7 7, [7]) := by decide

theorem witness_LengthFromFirstByte :
    [1, 2, 3, 4].length + 1 = oplen 0xFF ∧ [1, 2, 3].length + 1 = oplen 0xFE ∧ [1].length + 1 = oplen 0x80 ∧
    [1].length + 1 = oplen 0xBF ∧ ([] : List Byte).length + 1 = oplen 0x7F ∧ ([] : List Byte).length + 1 = oplen 0xC0 ∧
    ([] : List Byte).length + 1 = oplen 0xFD := by decide

/-- The boundaries of the first byte's six ranges; no byte lies in two. -/
theorem witness_FirstByteMap :
    decode [0x00] = .ok (.index 0, []) ∧ decode [0x3F] = .ok (.index 63, []) ∧
    decode [0x40] = .ok (.diff (-2) (-2) (-2), []) ∧ decode [0x7F] = .ok (.diff 1 1 1, []) ∧
    decode [0x80, 0x00] = .ok (.luma (-32) (-8) (-8), []) ∧ decode [0xBF, 0xFF] = .ok (.luma 31 7 7, []) ∧
    decode [0xC0] = .ok (.run 1, []) ∧ decode [0xFD] = .ok (.run 62, []) ∧
    decode [0xFE, 1, 2, 3] = .ok (.rgb 1 2 3, []) ∧ decode [0xFF, 1, 2, 3, 4] = .ok (.rgba 1 2 3 4, []) := by decide

theorem witness_AssemblerRefusesRatherThanWraps :
    assembleLine (.op (.diff 1 (-2) 1)) = some [0x73] ∧ assembleLine (.op (.diff 2 0 0)) = none ∧
    assembleLine (.op (.luma 31 7 7)) = some [0xBF, 0xFF] ∧ assembleLine (.op (.luma 32 0 0)) = none ∧
    assembleLine (.op (.run 62)) = some [0xFD] ∧ assembleLine (.op (.run 63)) = none ∧
    assembleLine (.header (2 ^ 32 - 1) 0 255 255) ≠ none ∧ assembleLine (.header (2 ^ 32) 0 0 0) = none := by decide

/-- Starts of both units that answer a next state (also for EveryStartReinitializes). -/
theorem witness_FreshCacheHoldsOneSelfHashedEntry :
    (∃ t, encStart (encReady 3 [⟨1, 2, 3, 0⟩]) = .next t) ∧ (∃ t, decStart (decReady (streamOf [0xC0])) = .next t) := by
  constructor
  · obtain ⟨t, h, -⟩ := nextAnd_exists (r := encStart (encReady 3 [⟨1, 2, 3, 0⟩])) (p := fun _ => true) (by decide +kernel)
    exact ⟨t, h⟩
  · obtain ⟨t, h, -⟩ := nextAnd_exists (r := decStart (decReady (streamOf [0xC0]))) (p := fun _ => true) (by decide +kernel)
    exact ⟨t, h⟩

/-- First bytes at both ends of the tags 00, 01 and 10. -/
theorem witness_tags :
    (0x00 : Byte).extractLsb' 6 2 = 0 ∧ (0x3F : Byte).extractLsb' 6 2 = 0 ∧ (0x40 : Byte).extractLsb' 6 2 = 1 ∧
    (0x7F : Byte).extractLsb' 6 2 = 1 ∧ (0x80 : Byte).extractLsb' 6 2 = 2 ∧ (0xBF : Byte).extractLsb' 6 2 = 2 := by decide

/-- One pixel of room is enough, exactly, for RGBA, RGB, INDEX, DIFF and LUMA. -/
theorem witness_single_pixel_room : (decPass [0x55] 1).dec.pixcnt.toNat + 1 ≤ (decPass [0x55] 1).pixOutRoom.toNat := by decide

theorem witness_RunRepeatsPreviousPixel :
    (1 ≤ 62 ∧ 62 ≤ 62 ∧ (decPass [0xFD] 62).dec.pixcnt.toNat + 62 ≤ (decPass [0xFD] 62).pixOutRoom.toNat) ∧
    (1 ≤ 1 ∧ 1 ≤ 62 ∧ (decPass [0xC0] 1).dec.pixcnt.toNat + 1 ≤ (decPass [0xC0] 1).pixOutRoom.toNat) := by decide

/-- Both sides of the room: a RUN of 3 with room for 2 stops, with room for 3 it does not. -/
theorem witness_OpcodeStopsExactlyWithoutRoom :
    exec (.run 3) (decPass [0xC2] 2) = .fault .pixOutRoom ∧ nextAnd (exec (.run 3) (decPass [0xC2] 3)) (fun _ => true) = true :=
  ⟨rfl, by decide +kernel⟩

/-- A turn given, and a turn by default; the opcode ends exactly at the marker. -/
theorem witness_StepRunsDecodedOpcode :
    (DecsTurn (decPass [0xAA, 0x88] 1) ∧ DecsTurn { decPass [0xAA, 0x88] 1 with turns := [.dec, .enc] }) ∧
    (decPass [0xAA, 0x88] 1).dec.phase = .ops ∧ Instr.wf (.luma 10 0 0) = true ∧
    (∀ k, k < (encode (.luma 10 0 0)).length →
      Memory.read (decPass [0xAA, 0x88] 1).inBuf ((decPass [0xAA, 0x88] 1).dec.pos.toNat + k) = (encode (.luma 10 0 0))[k]?) ∧
    (decPass [0xAA, 0x88] 1).dec.pos.toNat + (encode (.luma 10 0 0)).length + 8 ≤ (decPass [0xAA, 0x88] 1).dec.cfgLen.toNat :=
  ⟨⟨.inr ⟨rfl, rfl⟩, .inl rfl⟩, rfl, by decide, by decide +kernel, by decide +kernel⟩

/-- An RGBA one byte short. -/
theorem witness_TruncatedOpcodeRaises :
    DecsTurn (decPass [0xFF, 1, 2, 3] 1) ∧ (decPass [0xFF, 1, 2, 3] 1).dec.phase = .ops ∧
    Memory.read (decPass [0xFF, 1, 2, 3] 1).inBuf (decPass [0xFF, 1, 2, 3] 1).dec.pos.toNat = some 0xFF ∧
    (decPass [0xFF, 1, 2, 3] 1).dec.pos.toNat + 8 < (decPass [0xFF, 1, 2, 3] 1).dec.cfgLen.toNat ∧
    (decPass [0xFF, 1, 2, 3] 1).dec.cfgLen.toNat < (decPass [0xFF, 1, 2, 3] 1).dec.pos.toNat + oplen 0xFF + 8 :=
  ⟨.inr ⟨rfl, rfl⟩, rfl, by decide +kernel, by decide, by decide⟩

theorem witness_DecFinishSetsDone :
    DecsTurn (decPass [] 0) ∧ (decPass [] 0).dec.phase = .ops ∧
    (decPass [] 0).dec.pos.toNat + 8 = (decPass [] 0).dec.cfgLen.toNat :=
  ⟨.inr ⟨rfl, rfl⟩, rfl, by decide⟩

/-- SHORT at 13 bytes; MAGIC at 14; MARKER at 21 and, with a wrong marker, at 22. -/
theorem witness_HeaderChecksInOrder :
    (decReady (List.replicate 13 0)).dec.len.toNat < 14 ∧
    (14 ≤ (decReady (List.replicate 14 0)).dec.len.toNat ∧
      Memory.present (decReady (List.replicate 14 0)).inBuf (decReady (List.replicate 14 0)).dec.len.toNat = true ∧
      Memory.readAll (decReady (List.replicate 14 0)).inBuf 0 4 ≠ some [0x71, 0x6F, 0x69, 0x66]) ∧
    (let s := decReady (headerBytes 1 1 4 0 ++ List.replicate 7 0)
     14 ≤ s.dec.len.toNat ∧ Memory.present s.inBuf s.dec.len.toNat = true ∧
      Memory.readAll s.inBuf 0 4 = some [0x71, 0x6F, 0x69, 0x66] ∧ s.dec.len.toNat < 22) ∧
    (let s := decReady (headerBytes 1 1 4 0 ++ List.replicate 8 0)
     14 ≤ s.dec.len.toNat ∧ Memory.present s.inBuf s.dec.len.toNat = true ∧
      Memory.readAll s.inBuf 0 4 = some [0x71, 0x6F, 0x69, 0x66] ∧ ¬ s.dec.len.toNat < 22 ∧
      Memory.readAll s.inBuf (s.dec.len.toNat - 8) 8 ≠ some [0, 0, 0, 0, 0, 0, 0, 1]) := by decide +kernel

/-- The shortest stream that starts a pass, under either bound; and a stream with one opcode and one cut short. -/
theorem witness_DecStartBeginsPass :
    (let s := decReady (streamOf [])
     22 ≤ s.dec.len.toNat ∧ 62 * (s.dec.len.toNat - 22) < 2 ^ 64 ∧
     Memory.present s.inBuf s.dec.len.toNat = true ∧
     Memory.readAll s.inBuf 0 14 = some (headerBytes 1 1 4 0) ∧
     Memory.readAll s.inBuf (s.dec.len.toNat - 8) 8 = some [0, 0, 0, 0, 0, 0, 0, 1]) ∧
    (RegionIs (decReady (streamOf [])).inBuf 22 [] ∧ totalYield [] < 2 ^ 64) ∧
    (RegionIs (decReady (streamOf [0xFD, 0xFF, 1, 2])).inBuf 26 [.run 62] ∧ totalYield [.run 62] < 2 ^ 64) :=
  ⟨by decide +kernel, ⟨⟨[], .empty, by decide +kernel⟩, by decide⟩,
    ⟨⟨[0xFF, 1, 2], .truncated, by decide +kernel⟩, by decide⟩⟩

theorem present_bufferOf {α : Type} (vs : List α) : Memory.present (bufferOf vs) vs.length = true :=
  (Memory.present_iff (Memory.wf_writeAll vs [] 0 rfl) _).mpr fun a ha => by
    simp only [Memory.read_writeAll]
    exact ⟨vs[a], by rw [if_pos ⟨Nat.zero_le _, by omega⟩]; exact List.getElem?_eq_getElem ha⟩

/-- A stream of `n` RUNs of 62, whatever `n`: it is framed right, all of it is present, and it yields `62 * n` pixels. -/
theorem witness_long_stream (n : Nat) (hn : n + 22 < 2 ^ 64) :
    let s := decReady (streamOf (List.replicate n 0xFD))
    22 ≤ s.dec.len.toNat ∧ Memory.present s.inBuf s.dec.len.toNat = true ∧
    Memory.readAll s.inBuf 0 14 = some (headerBytes 1 1 4 0) ∧
    Memory.readAll s.inBuf (s.dec.len.toNat - 8) 8 = some [0, 0, 0, 0, 0, 0, 0, 1] ∧
    RegionIs s.inBuf s.dec.len.toNat (List.replicate n (.run 62)) ∧ totalYield (List.replicate n (.run 62)) = 62 * n := by
  have hl : (streamOf (List.replicate n 0xFD)).length = n + 22 := by
    simp [streamOf, headerBytes, be32, Config.magic]
  have hlen : (decReady (streamOf (List.replicate n 0xFD))).dec.len.toNat = n + 22 := by
    simp only [decReady, hl, BitVec.toNat_ofNat, Nat.mod_eq_of_lt hn]
  have hr : ∀ a, a < n + 22 → Memory.read (decReady (streamOf (List.replicate n 0xFD))).inBuf a
      = (streamOf (List.replicate n 0xFD))[a]? := by
    intro a ha
    simp only [decReady, bufferOf, Memory.read_writeAll, hl]
    rw [if_pos ⟨Nat.zero_le _, by omega⟩, Nat.sub_zero]
  have hh : (headerBytes 1 1 4 0).length = 14 := by decide
  have cut : ∀ (a k : Nat) (vs : List Byte), vs.length = k → a + k ≤ n + 22 →
      (∀ j, j < k → (streamOf (List.replicate n 0xFD))[a + j]? = vs[j]?) →
      Memory.readAll (decReady (streamOf (List.replicate n 0xFD))).inBuf a k = some vs := by
    intro a k vs h1 h2 h3
    rw [Memory.readAll_eq_some_iff]
    exact ⟨h1, fun j hj => by rw [hr _ (by omega), h3 j hj]⟩
  simp only [hlen]
  refine ⟨by omega, ?_, ?_, ?_, ⟨[], .empty, ?_, ?_, rfl⟩, ?_⟩
  · have hp := present_bufferOf (streamOf (List.replicate n 0xFD))
    rwa [hl] at hp
  · refine cut 0 14 _ hh (by omega) fun j hj => ?_
    simp only [streamOf, List.append_assoc]
    rw [Nat.zero_add, List.getElem?_append_left (by omega)]
  · refine cut _ 8 _ rfl (by omega) fun j hj => ?_
    simp only [streamOf]
    rw [List.getElem?_append_right (by simp only [List.length_append, hh, List.length_replicate]; omega)]
    congr 1
    simp only [List.length_append, hh, List.length_replicate]
    omega
  · have he : (List.replicate n (Instr.run 62)).flatMap encode = List.replicate n 0xFD := by
      rw [List.flatMap_replicate]
      show (List.replicate n [(0xFD : Byte)]).flatten = _
      simp
    rw [he, List.append_nil]
    refine cut 14 _ _ (by simp) (by omega) fun j hj => ?_
    simp only [streamOf, List.append_assoc]
    rw [List.getElem?_append_right (by omega), hh, List.getElem?_append_left (by simp; omega)]
    congr 1
    omega
  · intro i hi
    rw [List.eq_of_mem_replicate hi]; rfl
  · simp [totalYield, yieldedCount]; omega

theorem witness_BadChannelCountRaises :
    ((encReady 2 []).enc.channels ≠ 3 ∧ (encReady 2 []).enc.channels ≠ 4) ∧
    ((encReady 5 []).enc.channels ≠ 3 ∧ (encReady 5 []).enc.channels ≠ 4) := by decide

/-- Room for the 14 header bytes exactly. -/
theorem witness_EncStartWritesHeader :
    let s := { encReady 3 [⟨1, 2, 3, 0⟩] with outRoom := 14 }
    (s.enc.channels = 3 ∨ s.enc.channels = 4) ∧ 22 + 5 * (s.enc.width.toNat * s.enc.height.toNat) < 2 ^ 64 ∧
    Memory.present s.pixIn (s.enc.width.toNat * s.enc.height.toNat) = true ∧ 14 ≤ s.outRoom.toNat := by decide +kernel

/-- A run extended from 60 to 61; flushed at 62; flushed on the last pixel. -/
theorem witness_RunPixelIsAbsorbedOrFlushed :
    (let s := encPass 3 [⟨0, 0, 0, 7⟩, ⟨0, 0, 0, 8⟩] 0 60 Pixel.seed
     s.enc.phase = .pix ∧ s.enc.i.toNat < s.enc.npix.toNat ∧ s.enc.run.toNat ≤ 61 ∧
     Memory.read s.pixIn s.enc.i.toNat = some ⟨0, 0, 0, 7⟩ ∧ asEncoded s.enc.cfgChannels ⟨0, 0, 0, 7⟩ = s.enc.prev ∧
     s.enc.run.toNat < 61 ∧ s.enc.i.toNat + 1 < s.enc.npix.toNat) ∧
    (let s := encPass 3 [⟨0, 0, 0, 7⟩, ⟨0, 0, 0, 8⟩] 0 61 Pixel.seed
     s.enc.phase = .pix ∧ s.enc.i.toNat < s.enc.npix.toNat ∧ s.enc.run.toNat ≤ 61 ∧
     Memory.read s.pixIn s.enc.i.toNat = some ⟨0, 0, 0, 7⟩ ∧ asEncoded s.enc.cfgChannels ⟨0, 0, 0, 7⟩ = s.enc.prev ∧
     s.enc.run.toNat = 61 ∧ s.enc.outlen.toNat + 1 ≤ s.outRoom.toNat) ∧
    (let s := encPass 4 [⟨0, 0, 0, 255⟩] 0 0 Pixel.seed
     s.enc.phase = .pix ∧ s.enc.i.toNat < s.enc.npix.toNat ∧ s.enc.run.toNat ≤ 61 ∧
     Memory.read s.pixIn s.enc.i.toNat = some ⟨0, 0, 0, 255⟩ ∧ asEncoded s.enc.cfgChannels ⟨0, 0, 0, 255⟩ = s.enc.prev ∧
     s.enc.i.toNat + 1 = s.enc.npix.toNat ∧ s.enc.outlen.toNat + 1 ≤ s.outRoom.toNat) := by decide +kernel

/-- Without a pending run and with the longest one; room for the bytes exactly (LUMA is two bytes, the RUN byte one), and one
byte too little. -/
theorem witness_LiteralPixelEmitsChosenOpcode :
    (let s := { encPass 4 [⟨10, 10, 10, 255⟩] 0 0 Pixel.seed with outRoom := 16 }
     s.enc.phase = .pix ∧ s.enc.i.toNat < s.enc.npix.toNat ∧ s.enc.run.toNat ≤ 62 ∧
     Memory.read s.pixIn s.enc.i.toNat = some ⟨10, 10, 10, 255⟩ ∧
     (⟨10, 10, 10, 255⟩ : Pixel) = asEncoded s.enc.cfgChannels ⟨10, 10, 10, 255⟩ ∧ ⟨10, 10, 10, 255⟩ ≠ s.enc.prev ∧
     s.enc.outlen.toNat + (pendingBytes s.enc ++ encode (.luma 10 0 0)).length ≤ s.outRoom.toNat) ∧
    (let s := { encPass 3 [⟨10, 10, 10, 0⟩] 0 61 Pixel.seed with outRoom := 16 }
     s.enc.phase = .pix ∧ s.enc.i.toNat < s.enc.npix.toNat ∧ s.enc.run.toNat ≤ 62 ∧
     Memory.read s.pixIn s.enc.i.toNat = some ⟨10, 10, 10, 0⟩ ∧
     (⟨10, 10, 10, 255⟩ : Pixel) = asEncoded s.enc.cfgChannels ⟨10, 10, 10, 0⟩ ∧ ⟨10, 10, 10, 255⟩ ≠ s.enc.prev ∧
     s.outRoom.toNat < s.enc.outlen.toNat + (pendingBytes s.enc ++ encode (.luma 10 0 0)).length ∧
     encMove s = .fault .outRoom) := by
  refine ⟨by decide +kernel, by decide +kernel, by decide +kernel, by decide +kernel, by decide +kernel, by decide +kernel,
    by decide +kernel, by decide +kernel, rfl⟩

/-- The five cases of the choice, each met: INDEX, RGBA, DIFF, LUMA, RGB. -/
theorem witness_Chosen_cases :
    selectOpcode .int (cacheWrite Cache.clear ⟨10, 10, 10, 255⟩) Pixel.seed ⟨10, 10, 10, 255⟩ = .index 11 ∧
    selectOpcode .int Cache.clear Pixel.seed ⟨0, 0, 0, 128⟩ = .rgba 0 0 0 128 ∧
    selectOpcode .int Cache.clear ⟨10, 10, 10, 255⟩ ⟨11, 8, 11, 255⟩ = .diff 1 (-2) 1 ∧
    selectOpcode .int Cache.clear ⟨10, 10, 10, 255⟩ ⟨12, 8, 11, 255⟩ = .luma (-2) 4 3 ∧
    selectOpcode .int Cache.clear ⟨100, 100, 100, 255⟩ ⟨132, 132, 132, 255⟩ = .rgb 132 132 132 := by decide +kernel

/-- Both caches hold the pixel, so the hypothesis is met by its conclusion and not by its premise alone. -/
theorem witness_ChosenOpcodeRebuildsPixel :
    let c := cacheWrite Cache.clear ⟨10, 10, 10, 255⟩
    let d := { Dec.reset with cache := c }
    cacheRead c (pixelHash ⟨10, 10, 10, 255⟩) = ⟨10, 10, 10, 255⟩ ∧
    (cacheRead c (pixelHash ⟨10, 10, 10, 255⟩) = ⟨10, 10, 10, 255⟩ →
      cacheRead d.cache (pixelHash ⟨10, 10, 10, 255⟩) = ⟨10, 10, 10, 255⟩) := by decide +kernel

theorem witness_EncFinishWritesMarker :
    let s := { encPass 4 [⟨10, 10, 10, 255⟩] 1 0 ⟨10, 10, 10, 255⟩ with outRoom := 22 }
    s.enc.phase = .pix ∧ s.enc.i = s.enc.npix ∧ s.enc.outlen.toNat + 8 ≤ s.outRoom.toNat := by decide +kernel

/-- Width 0 and height 0, each alone. -/
theorem witness_EmptyImageIsHeaderAndMarker :
    (let s := { encReady 3 [] with outRoom := 22 }
     (s.enc.width = 0 ∨ s.enc.height = 0) ∧ (s.enc.channels = 3 ∨ s.enc.channels = 4) ∧ 22 ≤ s.outRoom.toNat) ∧
    (let s := { State.reset with outRoom := 22, enc := { Enc.reset with width := 5, channels := 4 } }
     (s.enc.width = 0 ∨ s.enc.height = 0) ∧ (s.enc.channels = 3 ∨ s.enc.channels = 4) ∧ 22 ≤ s.outRoom.toNat) := by decide +kernel

/-- A pixel that is not there; no room for a flushed run, by its length and by the last pixel, and for the marker; a byte that is
not there, the first of an opcode and a later one. -/
theorem witness_UnitStepsStopExactly :
    encMove { encPass 3 [⟨1, 2, 3, 0⟩] 0 0 Pixel.seed with pixIn := [] } = .fault .pixInAbsent ∧
    (let s := { encPass 4 [Pixel.seed, Pixel.seed] 0 61 Pixel.seed with outRoom := 14 }
     s.enc.phase = .pix ∧ s.enc.i.toNat < s.enc.npix.toNat ∧ s.enc.run.toNat ≤ 61 ∧
     Memory.read s.pixIn s.enc.i.toNat = some Pixel.seed ∧ asEncoded s.enc.cfgChannels Pixel.seed = s.enc.prev ∧
     encMove s = .fault .outRoom) ∧
    encMove { encPass 4 [Pixel.seed] 0 0 Pixel.seed with outRoom := 14 } = .fault .outRoom ∧
    (let s := { encPass 4 [Pixel.seed] 1 0 Pixel.seed with outRoom := 21 }
     s.enc.phase = .pix ∧ s.enc.i = s.enc.npix ∧ encMove s = .fault .outRoom) ∧
    (let s := { decPass [0xFE, 1, 2, 3] 1 with inBuf := [] }
     s.dec.phase = .ops ∧ s.dec.pos.toNat + 8 < s.dec.cfgLen.toNat ∧ decMove s = .fault .inAbsent) ∧
    decMove { decPass [0xFE, 1, 2, 3] 1 with inBuf := [(14, 0xFE), (15, 1), (16, 2)] } = .fault .inAbsent := by
  refine ⟨rfl, ⟨rfl, by decide, by decide, rfl, rfl, rfl⟩, rfl, ⟨rfl, rfl, rfl⟩, ⟨rfl, by decide, rfl⟩, rfl⟩

/-- ENC: the largest image, a pixel that is not there, 13 bytes of room. DEC: no input at all. -/
theorem witness_StartsAreRefusedOrStuck :
    (let s := { State.reset with enc := { Enc.reset with width := 0xFFFFFFFF, height := 0xFFFFFFFF, channels := 3 } }
     (s.enc.channels = 3 ∨ s.enc.channels = 4) ∧ 2 ^ 64 ≤ 22 + 5 * (s.enc.width.toNat * s.enc.height.toNat)) ∧
    (let s := { encReady 4 [⟨1, 2, 3, 0⟩] with pixIn := [] }
     (s.enc.channels = 3 ∨ s.enc.channels = 4) ∧ 22 + 5 * (s.enc.width.toNat * s.enc.height.toNat) < 2 ^ 64 ∧
     0 < s.enc.width.toNat * s.enc.height.toNat ∧ Memory.read s.pixIn 0 = none) ∧
    (let s := { encReady 3 [⟨1, 2, 3, 0⟩] with outRoom := 13 }
     (s.enc.channels = 3 ∨ s.enc.channels = 4) ∧ 22 + 5 * (s.enc.width.toNat * s.enc.height.toNat) < 2 ^ 64 ∧
     Memory.present s.pixIn (s.enc.width.toNat * s.enc.height.toNat) = true ∧ s.outRoom.toNat < 14) ∧
    (let s := { State.reset with dec := { Dec.reset with len := 14 } }
     14 ≤ s.dec.len.toNat ∧ 13 < s.dec.len.toNat ∧ Memory.read s.inBuf 13 = none) := by decide +kernel

/-- DEC: the shortest stream of RUNs that yields 2^64 pixels or more. -/
theorem witness_StartsAreRefusedOrStuck_yield :
    ∃ (s : State) (ops : List Instr), 22 ≤ s.dec.len.toNat ∧ Memory.present s.inBuf s.dec.len.toNat = true ∧
      Memory.readAll s.inBuf 0 14 = some (headerBytes 1 1 4 0) ∧
      Memory.readAll s.inBuf (s.dec.len.toNat - 8) 8 = some [0, 0, 0, 0, 0, 0, 0, 1] ∧
      RegionIs s.inBuf s.dec.len.toNat ops ∧ 2 ^ 64 ≤ totalYield ops := by
  obtain ⟨h1, h2, h3, h4, h5, h6⟩ := witness_long_stream (2 ^ 64 / 62 + 1) (by norm_num)
  exact ⟨_, _, h1, h2, h3, h4, h5, by rw [h6]; norm_num⟩

/-- Units in ERROR that a step takes out of it: by a start, and by reset. -/
theorem witness_ErrorLeftOnlyByStartOrReset :
    (let s := raiseError .enc .channel 0 (encReady 3 [⟨1, 2, 3, 0⟩])
     s.enc.phase = .error ∧
     nextAnd (step { s with host := [.regWrite .word 0x00 1] }) (fun t => t.enc.phase == .pix) = true ∧
     nextAnd (step { s with host := [.powerOnReset] }) (fun t => t.enc.phase == .idle) = true) ∧
    (let s := raiseError .dec .format 1 (decReady (streamOf [0xC0]))
     s.dec.phase = .error ∧
     nextAnd (step { s with host := [.regWrite .word 0x40 1] }) (fun t => t.dec.phase == .ops) = true ∧
     nextAnd (step { s with host := [.powerOnReset] }) (fun t => t.dec.phase == .idle) = true) := by decide +kernel

/-- The premises of the command statement: busy units, START = 0, START = 1 on units that are not busy. -/
theorem witness_StartCommandOnlyWhenNotBusy :
    (encPass 3 [⟨1, 2, 3, 0⟩] 0 0 Pixel.seed).enc.phase = .pix ∧ (decPass [] 0).dec.phase = .ops ∧
    (2 : Word).getLsbD 0 = false ∧ (1 : Word).getLsbD 0 = true ∧ State.reset.enc.phase ≠ .pix ∧
    State.reset.dec.phase ≠ .ops := by decide

/-- An offset on each side of the map's edges, a read-only register, a partial access; DEC_CHANNELS before it is settled. -/
theorem witness_ReservedAndReadOnlyIgnoreWrites :
    regSettled .decChannels (decPass [0xC0] 1) = false ∧ regAt 0x58 = some .decChannels ∧
    regAt 0x28 = none ∧ regAt 0x3C = none ∧ regAt 0x70 = none ∧ regAt 0x01 = none ∧ regAt 0x24 = some .encOutlenHi ∧
    regAt 0x40 = some .decCtrl ∧ regAt 0x6C = some .decPixcntHi ∧ AccessSize.byte ≠ .word := by decide

/-- Finished passes with one byte and one pixel to read (also for ResetKeepsGuaranteedOutput), and failed ones. -/
theorem witness_ReadsAfterDoneAreGuaranteed :
    (let s := { encPass 4 [] 0 0 Pixel.seed with
        outBuf := bufferOf [0x71], enc := { (encPass 4 [] 0 0 Pixel.seed).enc with phase := .done, outlen := 1 } }
     s.enc.phase = .done ∧ (0 : Index).toNat < s.enc.outlen.toNat ∧ Memory.read s.outBuf (0 : Index).toNat = some 0x71) ∧
    (let s := { State.reset with
        pixOut := bufferOf [Pixel.seed], dec := { Dec.reset with phase := .done, pixcnt := 1 } }
     s.dec.phase = .done ∧ (0 : Index).toNat < s.dec.pixcnt.toNat ∧
      Memory.read s.pixOut (0 : Index).toNat = some Pixel.seed) ∧
    (raiseError .enc .channel 0 State.reset).enc.phase = .error ∧
    (raiseError .dec .corruptOpcode 1 (decPass [0xFF] 1)).dec.phase = .error := by decide +kernel

/-- R270, R271: an output whose DONE was read stays readable, and can still be DEC's input, after a reset; one whose DONE was not
read is guaranteed by nothing, and handing it over is refused. -/
theorem test_reset_keeps_read_output :
    let s := { State.reset with outBuf := bufferOf [0x71, 0x6F], enc := { Enc.reset with phase := .done, outlen := 2 } }
    settledOut 1 (powerOnReset (readReg 0x04 s)) = some 0x6F ∧ settledOut 2 (powerOnReset (readReg 0x04 s)) = none ∧
    nextAnd (outToIn (powerOnReset (readReg 0x04 s))) (fun t => Memory.read t.inBuf 1 == some 0x6F) = true ∧
    settledOut 1 (powerOnReset s) = none ∧ outToIn (powerOnReset s) = .refused .outputNotReady := by
  refine ⟨by decide +kernel, by decide +kernel, by decide +kernel, by decide +kernel, rfl⟩

/-- A register of the map, for the reset statement's last clause. -/
theorem witness_PowerOnResetValues : regAt 0x6C ≠ none ∧ regAt 0x00 ≠ none := by decide

/-- The host moves during a pass of each unit. -/
theorem witness_BuffersAreFixedDuringAPass :
    (let s := { encPass 3 [⟨1, 2, 3, 0⟩] 0 0 Pixel.seed with host := [.regRead .word 0x04] }
     s.enc.phase = .pix ∧ nextAnd (hostMove s) (fun _ => true) = true) ∧
    (let s := { decPass [0xC0] 1 with host := [.provideOut 5] }
     s.dec.phase = .ops ∧ nextAnd (hostMove s) (fun t => t.outRoom == 5) = true) ∧
    perform (.putPixIn 0 []) (encPass 3 [⟨1, 2, 3, 0⟩] 0 0 Pixel.seed) = .refused .inputWhileBusy := by
  refine ⟨by decide +kernel, by decide +kernel, rfl⟩

/-- A pass of ENC in the middle, its turn next: every invariant holds and the step answers a next state. -/
def encMid : State := { encPass 3 [⟨10, 10, 10, 0⟩, ⟨10, 10, 10, 1⟩] 0 0 Pixel.seed with turns := [.enc] }

theorem witness_enc_invariants :
    BuffersCanonical encMid ∧ RunBounded encMid ∧ EncCacheSelfIndexed encMid ∧ EncAlphaOpaque encMid ∧
    ErrorRegistersLegal encMid ∧ PosInRegion encMid ∧ OutputBounded encMid ∧
    nextAnd (step encMid) (fun t => t.enc.outlen == 16) = true := by
  refine ⟨?_, ?_, ?_, ?_, ?_, ?_, ?_, by decide +kernel⟩
  · unfold BuffersCanonical; decide +kernel
  · unfold RunBounded; decide +kernel
  · unfold EncCacheSelfIndexed; decide +kernel
  · unfold EncAlphaOpaque; decide +kernel
  · unfold ErrorRegistersLegal; decide +kernel
  · unfold PosInRegion; decide +kernel
  · unfold OutputBounded; decide +kernel

/-- The second clause of the 3-channel statement. -/
theorem witness_ThreeChannelPassNeverEmitsRgba :
    EncAlphaOpaque encMid ∧ encMid.enc.phase = .pix ∧ encMid.enc.cfgChannels = 3 :=
  ⟨witness_enc_invariants.2.2.2.1, rfl, rfl⟩

/-- A pass of DEC in the middle, its turn next. -/
theorem witness_dec_invariants :
    BuffersCanonical (decPass [0xC0] 1) ∧ ErrorRegistersLegal (decPass [0xC0] 1) ∧ PosInRegion (decPass [0xC0] 1) ∧
    nextAnd (step (decPass [0xC0] 1)) (fun t => t.dec.pixcnt == 1) = true := by
  refine ⟨?_, ?_, ?_, by decide +kernel⟩
  · unfold BuffersCanonical; decide +kernel
  · unfold ErrorRegistersLegal; decide +kernel
  · unfold PosInRegion; decide +kernel

/-- Both units in a pass, both able to step. -/
theorem witness_UnitStepsCommute :
    let s := { decPass [0xC0] 1 with enc := encMid.enc, pixIn := encMid.pixIn, outRoom := 64 }
    nextAnd (encMove s) (fun t => t.enc.outlen == 16) = true ∧ nextAnd (decMove s) (fun t => t.dec.pixcnt == 1) = true := by
  decide +kernel

/-- Room for R179's bound exactly. -/
theorem witness_EncPassEndsInDone :
    let s := { encMid with outRoom := 32 }
    s.enc.phase = .pix ∧ RunBounded s ∧ EncAlphaOpaque s ∧ OutputBounded s ∧
    Memory.present s.pixIn s.enc.npix.toNat = true ∧ 22 + 5 * s.enc.npix.toNat ≤ s.outRoom.toNat := by
  unfold RunBounded EncAlphaOpaque OutputBounded; decide +kernel

/-- Room for the longest runs exactly. -/
theorem witness_DecPassEnds :
    let s := decPass [0xC1, 0xC0] 124
    s.dec.phase = .ops ∧ PosInRegion s ∧ Memory.present s.inBuf s.dec.cfgLen.toNat = true ∧
    s.dec.pixcnt.toNat + 62 * (s.dec.cfgLen.toNat - 8 - s.dec.pos.toNat) ≤ s.pixOutRoom.toNat := by
  unfold PosInRegion; decide +kernel

/-- The image of L1-7 through both units' starts and ENC's pass: every hypothesis of the round trip together. -/
theorem witness_DecodingAnEncodedImageGivesItBack :
    ∃ (s e t d : State) (room : Index),
      encStart s = .next e ∧ e.enc.phase = .pix ∧ moves encMove (e.enc.npix.toNat + 1) e = .next t ∧
      e.enc.npix.toNat ≤ room.toNat ∧ decStart (handOver room t) = .next d ∧
      encOutput t = some [0x71, 0x6F, 0x69, 0x66, 0, 0, 0, 2, 0, 0, 0, 1, 3, 0, 0xAA, 0x88, 0xC0, 0, 0, 0, 0, 0, 0, 0, 1] := by
  obtain ⟨e, he, h⟩ := nextAnd_exists (r := encStart (encReady 3 [⟨10, 10, 10, 255⟩, ⟨10, 10, 10, 255⟩]))
    (p := fun e => e.enc.phase == .pix && decide (e.enc.npix.toNat ≤ 2) &&
      nextAnd (moves encMove (e.enc.npix.toNat + 1) e) (fun t => nextAnd (decStart (handOver 2 t)) (fun _ => true) &&
        encOutput t == some [0x71, 0x6F, 0x69, 0x66, 0, 0, 0, 2, 0, 0, 0, 1, 3, 0, 0xAA, 0x88, 0xC0,
          0, 0, 0, 0, 0, 0, 0, 1])) (by decide +kernel)
  simp only [Bool.and_eq_true, beq_iff_eq, decide_eq_true_eq] at h
  obtain ⟨⟨h1, h2⟩, h3⟩ := h
  obtain ⟨t, ht, h4⟩ := nextAnd_exists h3
  simp only [Bool.and_eq_true, beq_iff_eq] at h4
  obtain ⟨h5, h6⟩ := h4
  obtain ⟨d, hd, -⟩ := nextAnd_exists h5
  exact ⟨_, e, t, d, 2, he, h1, ht, h2, hd, h6⟩

end Sys2Proof.Tests
end

