-- ==== Sys2Proof/Proofs/PixelWord.lean ====
section
/-! PROOF. A pixel's word: the channel each of its bytes holds, its value, and its inverse (spec/00_scope.md R8). -/

namespace Sys2Proof.Machine

/-! ### The byte of the word each channel stands in -/

theorem pixelWord_red (p : Pixel) : (pixelWord p).extractLsb' 24 8 = p.r :=
  calc (p.r ++ p.g ++ p.b ++ p.a).extractLsb' 24 8
    _ = (p.r ++ p.g ++ p.b).extractLsb' 16 8 := BitVec.extractLsb'_append_eq_of_le (by decide)
    _ = (p.r ++ p.g).extractLsb' 8 8 := BitVec.extractLsb'_append_eq_of_le (by decide)
    _ = p.r := BitVec.extractLsb'_append_eq_left

theorem pixelWord_green (p : Pixel) : (pixelWord p).extractLsb' 16 8 = p.g :=
  calc (p.r ++ p.g ++ p.b ++ p.a).extractLsb' 16 8
    _ = (p.r ++ p.g ++ p.b).extractLsb' 8 8 := BitVec.extractLsb'_append_eq_of_le (by decide)
    _ = (p.r ++ p.g).extractLsb' 0 8 := BitVec.extractLsb'_append_eq_of_le (by decide)
    _ = p.g := BitVec.extractLsb'_append_eq_right

theorem pixelWord_blue (p : Pixel) : (pixelWord p).extractLsb' 8 8 = p.b :=
  calc (p.r ++ p.g ++ p.b ++ p.a).extractLsb' 8 8
    _ = (p.r ++ p.g ++ p.b).extractLsb' 0 8 := BitVec.extractLsb'_append_eq_of_le (by decide)
    _ = p.b := BitVec.extractLsb'_append_eq_right

theorem pixelWord_alpha (p : Pixel) : (pixelWord p).extractLsb' 0 8 = p.a :=
  BitVec.extractLsb'_append_eq_right

/-! ### Unpacking, injectivity, value -/

@[simp] theorem wordPixel_pixelWord (p : Pixel) : wordPixel (pixelWord p) = p := by
  unfold wordPixel
  rw [pixelWord_red, pixelWord_green, pixelWord_blue, pixelWord_alpha]

/-- Packing has a left inverse, so it loses no pixel. -/
theorem pixelWord_injective : Function.Injective pixelWord :=
  Function.LeftInverse.injective wordPixel_pixelWord

theorem pixel_eq_iff (p q : Pixel) : p = q ↔ p.r = q.r ∧ p.g = q.g ∧ p.b = q.b ∧ p.a = q.a := by
  cases p
  cases q
  simp only [Pixel.mk.injEq]

/-- The lower word does not reach into the upper one's bits, so the value of a concatenation is a sum. -/
theorem toNat_append_eq_add {m n : Nat} (x : BitVec m) (y : BitVec n) :
    (x ++ y).toNat = x.toNat * 2 ^ n + y.toNat := by
  rw [BitVec.toNat_append, ← Nat.shiftLeft_add_eq_or_of_lt y.isLt, Nat.shiftLeft_eq]

theorem pixelWord_toNat (p : Pixel) :
    (pixelWord p).toNat = p.r.toNat * 2 ^ 24 + p.g.toNat * 2 ^ 16 + p.b.toNat * 2 ^ 8 + p.a.toNat := by
  simp only [pixelWord, toNat_append_eq_add]
  omega

end Sys2Proof.Machine

namespace Sys2Proof.Claims

open Sys2Proof.Machine

/-- Settles O7: equality of words is equality of pixels because unpacking undoes packing. -/
theorem pixelWordEqualityIsComponentwise : Obligations.PixelWordEqualityIsComponentwise := by
  intro p q
  exact ⟨pixelWord_toNat p, pixelWord_injective.eq_iff.trans (pixel_eq_iff p q), wordPixel_pixelWord p⟩

end Sys2Proof.Claims
end

