-- ==== Sys2Proof/Proofs/StartSteps.lean ====
section
/-! PROOF. Every start step begins from the initial running state (spec/10_state.md R30 to R32, spec/70_reset_and_hazards.md
R272). -/

namespace Sys2Proof.Machine

/-- However ENC's start ends, it leaves the initial running state of R30 to R32, with no pixel taken. -/
theorem encStart_initial {s t : State} (h : encStart s = .next t) :
    t.enc.cache = Cache.clear ∧ t.enc.prev = Pixel.seed ∧ t.enc.run = 0 ∧ t.enc.i = 0 := by
  rcases encStart_next h with ⟨_, rfl⟩ | ⟨_, _, _, _, rfl⟩
  · exact ⟨rfl, rfl, rfl, rfl⟩
  · simp [encBegin]

/-- However DEC's start ends, it leaves the initial running state of R30 and R31. -/
theorem decStart_initial {s t : State} (h : decStart s = .next t) :
    t.dec.cache = Cache.clear ∧ t.dec.prev = Pixel.seed := by
  rcases decStart_next h with ⟨_, _, rfl⟩ | ⟨_, _, _, _, _, _, _, _, _, _, _, rfl⟩ <;> exact ⟨rfl, rfl⟩

end Sys2Proof.Machine

namespace Sys2Proof.Claims

open Sys2Proof.Machine

/-- Settles O12: both ways a start step can end leave the cleared cache and the seed. -/
theorem everyStartReinitializes : Obligations.EveryStartReinitializes := by
  constructor
  · intro s t h
    obtain ⟨hcache, hprev, hrun, -⟩ := encStart_initial h
    exact ⟨fun k => hcache ▸ cacheRead_clear k, hprev, hrun⟩
  · intro s t h
    obtain ⟨hcache, hprev⟩ := decStart_initial h
    exact ⟨fun k => hcache ▸ cacheRead_clear k, hprev⟩

end Sys2Proof.Claims
end

