-- ==== Sys2Proof/Proofs/UnitFrames.lean ====
section
/-! PROOF. A unit's turn leaves the other unit alone (spec/00_scope.md R11, spec/20_memory.md R75). -/

namespace Sys2Proof.Machine

/-- DEC's turn leaves ENC alone. -/
theorem decMove_enc {s t : State} (h : decMove s = .next t) : t.enc = s.enc := by
  rcases decMove_cases h with ⟨rfl, _⟩ | ⟨_, _, hop⟩ | ⟨_, _, rfl⟩
  · rfl
  · rcases decOpcode_cases hop with ⟨i, _, hx⟩ | ⟨_, rfl⟩ | ⟨_, rfl⟩
    · obtain ⟨-, rfl⟩ := exec_next hx
      simp
    · rfl
    · rfl
  · rfl

/-- ENC's turn leaves DEC alone. -/
theorem encMove_dec {s t : State} (h : encMove s = .next t) : t.dec = s.dec := by
  rcases encMove_cases h with ⟨rfl, _⟩ | ⟨_, _, _, _, hpx⟩ | ⟨_, _, hfin⟩
  · rfl
  · rcases encPixelOf_cases hpx with ⟨_, _, _, rfl⟩ | ⟨_, _, rfl⟩ | ⟨_, _, rfl⟩ <;> simp
  · obtain ⟨-, rfl⟩ := encFinish_next hfin
    simp

end Sys2Proof.Machine
end

