-- ==== Sys2Proof/Proofs/RunBounded.lean ====
section
/-! PROOF. ENC's pending run and its pixel counter keep their bounds (spec/10_state.md R25, R32): each agent's move keeps
`RunBounded`, which speaks of ENC's registers only. -/

namespace Sys2Proof.Machine

theorem RunBounded.of_enc_eq {s t : State} (h : RunBounded s) (he : t.enc = s.enc) : RunBounded t := by
  unfold RunBounded at h ⊢
  rwa [he]

/-- With no run pending the bound on `i` is all there is to show. -/
theorem RunBounded.of_run_zero {t : State} (hrun : t.enc.run = 0) (hi : t.enc.i.toNat ≤ t.enc.npix.toNat) :
    RunBounded t :=
  ⟨by simp [hrun], fun _ => ⟨hi, fun _ => hrun⟩⟩

/-- Outside a pass only the bound on `run` is asked. -/
theorem RunBounded.of_phase_ne {t : State} (hrun : t.enc.run.toNat ≤ 61) (hp : t.enc.phase ≠ .pix) : RunBounded t :=
  ⟨hrun, fun h => absurd h hp⟩

/-- An index below another can be counted up without wrapping. -/
theorem toNat_succ_of_lt {i n : Index} (h : i.toNat < n.toNat) : (i + 1).toNat = i.toNat + 1 := by
  bv_omega

/-- A run that grows without reaching 62 stays in R32's range. -/
theorem run_succ_le {r : BitVec 6} (hr : r.toNat ≤ 61) (hne : r + 1 ≠ 62) : (r + 1).toNat ≤ 61 := by
  bv_omega

theorem encPixelOf_keeps_runBounded {p : Pixel} {s t : State} (hs : RunBounded s)
    (hi : s.enc.i.toNat < s.enc.npix.toNat) (h : encPixelOf p s = .next t) : RunBounded t := by
  have hsucc : (s.enc.i + 1).toNat ≤ s.enc.npix.toNat := by rw [toNat_succ_of_lt hi]; omega
  rcases encPixelOf_cases h with ⟨_, _, _, rfl⟩ | ⟨_, hno, rfl⟩ | ⟨_, _, rfl⟩
  case inl => exact .of_run_zero (by simp) (by simpa using hsucc)
  case inr.inr => exact .of_run_zero (by simp) (by simpa using hsucc)
  case inr.inl =>
    rw [not_or] at hno
    obtain ⟨hrun, hlast⟩ := hno
    refine ⟨run_succ_le hs.1 hrun, fun _ => ⟨hsucc, fun hend => absurd ?_ hlast⟩⟩
    exact eq_sub_of_add_eq hend

theorem encMove_keeps_runBounded {s t : State} (hs : RunBounded s) (h : encMove s = .next t) : RunBounded t := by
  rcases encMove_cases h with ⟨rfl, _⟩ | ⟨_, hi, _, _, hpx⟩ | ⟨_, _, hfin⟩
  · exact hs
  · exact encPixelOf_keeps_runBounded hs hi hpx
  · obtain ⟨-, rfl⟩ := encFinish_next hfin
    exact .of_phase_ne (by simpa using hs.1) (by simp)

theorem encStart_runBounded {s t : State} (h : encStart s = .next t) : RunBounded t := by
  obtain ⟨-, -, hrun, hi⟩ := encStart_initial h
  exact .of_run_zero hrun (by simp [hi])

theorem hostMove_keeps_runBounded {s t : State} (hs : RunBounded s) (h : hostMove s = .next t) : RunBounded t := by
  rcases hostMove_enc h with he | ⟨hp, _, _, _, _, he⟩ | ⟨_, _, _, _, hstart⟩ | he
  · exact hs.of_enc_eq he
  · exact .of_phase_ne (by simpa [he] using hs.1) (by simpa [he] using hp)
  · exact encStart_runBounded hstart
  · exact .of_run_zero (by simp [he, Enc.reset]) (by simp [he, Enc.reset])

end Sys2Proof.Machine

namespace Sys2Proof.Claims

open Sys2Proof.Machine

/-- Settles O51: only ENC's own moves, its start and reset write `run` and `i`, and each keeps the bounds. -/
theorem everyStepKeepsRunBounded : Obligations.EveryStepKeepsRunBounded := by
  intro s t hs h
  have hpop : RunBounded (popTurn s) := hs.of_enc_eq rfl
  rcases step_cases h with henc | hdec | hhost
  · exact encMove_keeps_runBounded hpop henc
  · exact hpop.of_enc_eq (decMove_enc hdec)
  · exact hostMove_keeps_runBounded hpop hhost

end Sys2Proof.Claims
end

