-- ==== Sys2Proof/Proofs/PosInRegion.lean ====
section
/-! PROOF. DEC's `pos` stays in the opcode region (spec/10_state.md R24, R51): an opcode step moves it by the length of the
opcode it decoded, and the fetch has checked that this length ends before the marker (spec/43_decoder.md R203). -/

namespace Sys2Proof.Machine

/-- The decoder takes exactly the bytes of the instruction it reads. -/
theorem decode_length {bs rest : List Byte} {i : Instr} (h : decode bs = .ok (i, rest)) :
    bs.length = rest.length + i.length := by
  unfold decode at h
  split at h
  · cases h
  · split_ifs at h
    · split at h <;> cases h
      rfl
    · split at h <;> cases h
      rfl
    · cases h; rfl
    · cases h; rfl
    · split at h <;> cases h
      rfl
    · cases h; rfl

/-- An opcode the fetch finds ends before the end marker. -/
theorem fetch_opcode_length {m : Memory Byte} {pos len : Nat} {i : Instr} (h : fetch m pos len = .opcode i) :
    pos + i.length + 8 ≤ len := by
  obtain ⟨b0, bytes, rest, -, hend, hread, hdec⟩ := fetch_opcode h
  obtain ⟨hlen, -⟩ := (Memory.readAll_eq_some_iff m pos (oplen b0) bytes).mp hread
  have := decode_length hdec
  omega

theorem PosInRegion.of_dec_eq {s t : State} (h : PosInRegion s) (he : t.dec = s.dec) : PosInRegion t := by
  unfold PosInRegion at h ⊢
  rwa [he]

/-- In IDLE and ERROR nothing is asked of `pos`. -/
theorem PosInRegion.of_phase_ne {t : State} (hops : t.dec.phase ≠ .ops) (hdone : t.dec.phase ≠ .done) : PosInRegion t :=
  ⟨fun h => absurd h hops, fun h => absurd h hdone⟩

/-- In a pass the bounds of R24 are all there is to show. -/
theorem PosInRegion.of_pass {t : State} (hp : t.dec.phase = .ops) (hlo : 14 ≤ t.dec.pos.toNat)
    (hhi : t.dec.pos.toNat + 8 ≤ t.dec.cfgLen.toNat) : PosInRegion t :=
  ⟨fun _ => ⟨hlo, hhi⟩, fun h => by simp [hp] at h⟩

/-- A sum that stays below a 64-bit length does not wrap. -/
theorem toNat_add_ofNat_of_le {p len : Index} {n : Nat} (h : p.toNat + n ≤ len.toNat) :
    (p + BitVec.ofNat 64 n).toNat = p.toNat + n := by
  have := len.isLt
  rw [BitVec.toNat_add, BitVec.toNat_ofNat, Nat.mod_eq_of_lt (a := n) (by omega)]
  exact Nat.mod_eq_of_lt (by omega)

theorem decOpcode_keeps_posInRegion {s t : State} (hs : PosInRegion s) (hp : s.dec.phase = .ops)
    (h : decOpcode s = .next t) : PosInRegion t := by
  rcases decOpcode_cases h with ⟨i, hfetch, hexec⟩ | ⟨_, rfl⟩ | ⟨_, rfl⟩
  case inl =>
    have hend := fetch_opcode_length hfetch
    have hpos := toNat_add_ofNat_of_le (p := s.dec.pos) (n := i.length) (len := s.dec.cfgLen) (by omega)
    obtain ⟨hlo, -⟩ := hs.1 hp
    obtain ⟨-, rfl⟩ := exec_next hexec
    exact .of_pass (by simpa using hp) (by simp [hpos]; omega) (by simp [hpos]; omega)
  all_goals exact .of_phase_ne (by simp) (by simp)

theorem decMove_keeps_posInRegion {s t : State} (hs : PosInRegion s) (h : decMove s = .next t) : PosInRegion t := by
  rcases decMove_cases h with ⟨rfl, _⟩ | ⟨hp, _, hop⟩ | ⟨_, hend, rfl⟩
  · exact hs
  · exact decOpcode_keeps_posInRegion hs hp hop
  · exact ⟨fun hp => by simp at hp, fun _ => hend⟩

/-- DEC's start fails, or enters the opcode region at its first byte with `LEN` at least 22. -/
theorem decStart_posInRegion {s t : State} (h : decStart s = .next t) : PosInRegion t := by
  rcases decStart_next h with ⟨_, _, rfl⟩ | ⟨hheader, _, _, _, _, _, _, _, _, _, _, rfl⟩
  · exact .of_phase_ne (by simp) (by simp)
  · obtain ⟨hlen, -⟩ := headerCheck_none hheader
    exact .of_pass rfl (le_refl 14) hlen

theorem hostMove_keeps_posInRegion {s t : State} (hs : PosInRegion s) (h : hostMove s = .next t) : PosInRegion t := by
  rcases hostMove_dec h with hd | ⟨_, _, hd⟩ | ⟨_, _, _, hstart⟩ | hd
  · exact hs.of_dec_eq hd
  · unfold PosInRegion at hs ⊢
    simpa [hd] using hs
  · exact decStart_posInRegion hstart
  · exact .of_phase_ne (by simp [hd, Dec.reset]) (by simp [hd, Dec.reset])

end Sys2Proof.Machine

namespace Sys2Proof.Claims

open Sys2Proof.Machine

/-- Settles O55: only DEC's own moves, its start and reset write `pos`, and each keeps it in the region. -/
theorem everyStepKeepsPosInRegion : Obligations.EveryStepKeepsPosInRegion := by
  intro s t hs h
  have hpop : PosInRegion (popTurn s) := hs.of_dec_eq rfl
  rcases step_cases h with henc | hdec | hhost
  · exact hpop.of_dec_eq (encMove_dec henc)
  · exact decMove_keeps_posInRegion hpop hdec
  · exact hostMove_keeps_posInRegion hpop hhost

end Sys2Proof.Claims
end

