-- ==== Sys2Proof/Proofs/StatusWord.lean ====
section
/-! PROOF. The STATUS word field by field (spec/10_state.md R39, R47). -/

namespace Sys2Proof.Machine

section Fields

variable (busy done err : Bool) (code detail : BitVec 4)

theorem statusWord_busy : (statusWord busy done err code detail).getLsbD 0 = busy := by
  simp only [statusWord, BitVec.getLsbD_append]; simp

theorem statusWord_done : (statusWord busy done err code detail).getLsbD 1 = done := by
  simp only [statusWord, BitVec.getLsbD_append]; simp

theorem statusWord_err : (statusWord busy done err code detail).getLsbD 2 = err := by
  simp only [statusWord, BitVec.getLsbD_append]; simp

theorem statusWord_gap : (statusWord busy done err code detail).getLsbD 3 = false := by
  simp only [statusWord, BitVec.getLsbD_append]; simp

/-- Above the three flags and the gap stand the error registers. -/
theorem statusWord_above_flags (lo n : Nat) :
    (statusWord busy done err code detail).extractLsb' (lo + 4) n = (0#20 ++ detail ++ code).extractLsb' lo n :=
  calc (0#20 ++ detail ++ code ++ 0#1 ++ BitVec.ofBool err ++ BitVec.ofBool done ++ BitVec.ofBool busy).extractLsb' (lo + 4) n
    _ = (0#20 ++ detail ++ code ++ 0#1 ++ BitVec.ofBool err ++ BitVec.ofBool done).extractLsb' (lo + 3) n :=
      BitVec.extractLsb'_append_eq_of_le (by omega)
    _ = (0#20 ++ detail ++ code ++ 0#1 ++ BitVec.ofBool err).extractLsb' (lo + 2) n :=
      BitVec.extractLsb'_append_eq_of_le (by omega)
    _ = (0#20 ++ detail ++ code ++ 0#1).extractLsb' (lo + 1) n := BitVec.extractLsb'_append_eq_of_le (by omega)
    _ = (0#20 ++ detail ++ code).extractLsb' lo n := BitVec.extractLsb'_append_eq_of_le (by omega)

theorem statusWord_errcode : (statusWord busy done err code detail).extractLsb' 4 4 = code := by
  rw [statusWord_above_flags (lo := 0)]
  exact BitVec.extractLsb'_append_eq_right

theorem statusWord_errdetail : (statusWord busy done err code detail).extractLsb' 8 4 = detail := by
  rw [statusWord_above_flags (lo := 4), BitVec.extractLsb'_append_eq_of_le (le_refl 4)]
  exact BitVec.extractLsb'_append_eq_right

theorem statusWord_high : (statusWord busy done err code detail).extractLsb' 12 20 = 0 := by
  rw [statusWord_above_flags (lo := 8), BitVec.extractLsb'_append_eq_of_le (by decide)]
  exact BitVec.extractLsb'_append_eq_left

end Fields

end Sys2Proof.Machine

namespace Sys2Proof.Claims

open Sys2Proof.Machine

/-- Settles O40: both STATUS registers are the one status word, of their unit's phase and error registers. -/
theorem statusWordLayout : Obligations.StatusWordLayout :=
  ⟨fun _ => ⟨statusWord_busy .., statusWord_done .., statusWord_err .., statusWord_gap .., statusWord_errcode ..,
    statusWord_errdetail .., statusWord_high ..⟩,
   fun _ => ⟨statusWord_busy .., statusWord_done .., statusWord_err .., statusWord_gap .., statusWord_errcode ..,
    statusWord_errdetail .., statusWord_high ..⟩⟩

end Sys2Proof.Claims
end

