-- ==== Sys2Proof/Proofs/RegisterAccess.lean ====
section
/-! PROOF. What a whole-word access of the register space does, by the register at its offset (spec/10_state.md R37 to R56), and
the statements about reads and writes that follow. -/

namespace Sys2Proof.Machine

/-! ### The two halves of a 64-bit register -/

theorem lo32_toNat (v : Index) : (lo32 v).toNat = v.toNat % 2 ^ 32 := by
  simp [lo32, BitVec.extractLsb'_toNat]

theorem hi32_toNat (v : Index) : (hi32 v).toNat = v.toNat / 2 ^ 32 := by
  have := v.isLt
  rw [hi32, BitVec.extractLsb'_toNat, Nat.shiftRight_eq_div_pow]
  exact Nat.mod_eq_of_lt (by omega)

theorem lo32_eq_ofNat (v : Index) : lo32 v = BitVec.ofNat 32 v.toNat :=
  BitVec.eq_of_toNat_eq (by rw [lo32_toNat, BitVec.toNat_ofNat])

theorem hi32_eq_ofNat (v : Index) : hi32 v = BitVec.ofNat 32 (v.toNat / 2 ^ 32) := by
  rw [← hi32_toNat, BitVec.ofNat_toNat, BitVec.setWidth_eq]

/-! ### Offsets of the map and outside it -/

/-- R37's map: 22 registers at the multiples of 4 from 0 to 0x24 and from 0x40 to 0x6C. -/
theorem regAt_eq_none {off : Nat} (h : 0x6C < off ∨ off % 4 ≠ 0 ∨ (0x24 < off ∧ off < 0x40)) : regAt off = none := by
  unfold regAt
  split
  case h_23 => rfl
  all_goals omega

theorem perform_read_reserved {off : Nat} (h : regAt off = none) (s : State) :
    perform (.regRead .word off) s = .next { s with replies := .word off 0 :: s.replies } := by
  simp [perform, readReg, h, reply]

theorem perform_write_reserved {off : Nat} (h : regAt off = none) (v : Word) (s : State) :
    perform (.regWrite .word off v) s = .next s := by
  simp [perform, writeAt, h]

/-! ### Reads -/

theorem reads_readValue {off : Nat} {r : Reg} (h : regAt off = some r) (s : State) :
    Claims.Reads off (readValue off r s) s :=
  ⟨readReg off s, rfl, readReg_replies h s⟩

theorem reads_of_settled {off : Nat} {r : Reg} {s : State} (h : regAt off = some r) (hs : regSettled r s = true) :
    Claims.Reads off (regValue r s) s :=
  readValue_of_settled (offset := off) hs ▸ reads_readValue h s

/-- A word within its low byte is that byte. -/
theorem eq_setWidth_of_and_low {w : Word} (h : w &&& 0x000000FF = w) : w = (w.setWidth 8).setWidth 32 := by
  have hlow : w.toNat % 2 ^ 8 = w.toNat := by
    rw [← Nat.and_two_pow_sub_one_eq_mod]
    exact congrArg BitVec.toNat h
  apply BitVec.eq_of_toNat_eq
  rw [BitVec.toNat_setWidth, BitVec.toNat_setWidth, hlow, Nat.mod_eq_of_lt w.isLt]

/-- A register with no bit above its low byte reads as a byte, settled or not. -/
theorem reads_byte {off : Nat} {r : Reg} (h : regAt off = some r) (hbits : implementedBits r = 0x000000FF) (s : State) :
    ∃ b : Byte, Claims.Reads off (b.setWidth 32) s :=
  ⟨(readValue off r s).setWidth 8,
    eq_setWidth_of_and_low (hbits ▸ readValue_and_implemented off r s) ▸ reads_readValue h s⟩

/-! ### Writes of configuration registers -/

theorem writeEncConfig_of_busy {s : State} (h : s.enc.phase = .pix) (f : Enc → Enc) : writeEncConfig f s = s := by
  simp [writeEncConfig, encBusy, h]

theorem writeEncConfig_of_not_busy {s : State} (h : s.enc.phase ≠ .pix) (f : Enc → Enc) :
    writeEncConfig f s = { s with enc := f s.enc } := by
  simp [writeEncConfig, encBusy, h]

theorem writeDecLen_of_busy {s : State} (h : s.dec.phase = .ops) (n : Index) : writeDecLen n s = s := by
  simp [writeDecLen, decBusy, h]

theorem writeDecLen_of_not_busy {s : State} (h : s.dec.phase ≠ .ops) (n : Index) :
    writeDecLen n s = { s with dec := { s.dec with len := n } } := by
  simp [writeDecLen, decBusy, h]

end Sys2Proof.Machine

namespace Sys2Proof.Claims

open Sys2Proof.Machine

/-- Settles O44: none of these registers is written by a pass, so each read is settled in every phase. -/
theorem controlAndConfigurationReadBack : Obligations.ControlAndConfigurationReadBack := by
  intro s
  rw [← lo32_eq_ofNat, ← hi32_eq_ofNat, BitVec.ofNat_toNat, BitVec.ofNat_toNat]
  exact ⟨reads_of_settled (r := .encCtrl) rfl rfl, reads_of_settled (r := .decCtrl) rfl rfl,
    reads_of_settled (r := .encStatus) rfl rfl, reads_of_settled (r := .decStatus) rfl rfl,
    reads_of_settled (r := .encWidth) rfl rfl, reads_of_settled (r := .encHeight) rfl rfl,
    reads_of_settled (r := .encChannels) rfl rfl, reads_of_settled (r := .encColorspace) rfl rfl,
    reads_of_settled (r := .decLenLo) rfl rfl, reads_of_settled (r := .decLenHi) rfl rfl⟩

/-- Settles O42: by the register, if any, at the offset. -/
theorem reservedAndReadOnlyIgnoreWrites : Obligations.ReservedAndReadOnlyIgnoreWrites := by
  intro off v s
  refine ⟨fun hbyte => ?_, fun hout => ?_, fun hro => ?_, fun size hsize => ?_⟩
  · fin_cases hbyte
    · exact reads_byte (r := .encChannels) rfl rfl s
    · exact reads_byte (r := .encColorspace) rfl rfl s
    · exact reads_byte (r := .decChannels) rfl rfl s
    · exact reads_byte (r := .decColorspace) rfl rfl s
  · exact ⟨perform_read_reserved (regAt_eq_none hout) s, perform_write_reserved (regAt_eq_none hout) v s⟩
  · fin_cases hro <;> rfl
  · cases size with
    | word => exact absurd rfl hsize
    | byte | half => exact ⟨rfl, rfl⟩

/-- Settles O41: a busy unit drops the write; otherwise the register holds the written bits, and a half of DEC_LEN leaves the
other half as it was. -/
theorem configurationWritesIgnoredWhileBusy : Obligations.ConfigurationWritesIgnoredWhileBusy := by
  intro v s
  refine ⟨fun hbusy off hoff => ?_, fun hbusy off hoff => ?_, fun hidle => ?_, fun hidle => ?_⟩
  · fin_cases hoff <;> exact congrArg _ (writeEncConfig_of_busy hbusy _)
  · fin_cases hoff <;> exact congrArg _ (writeDecLen_of_busy hbusy _)
  · rw [BitVec.setWidth_eq_extractLsb' (by decide)]
    exact ⟨congrArg _ (writeEncConfig_of_not_busy hidle _), congrArg _ (writeEncConfig_of_not_busy hidle _),
      congrArg _ (writeEncConfig_of_not_busy hidle _), congrArg _ (writeEncConfig_of_not_busy hidle _)⟩
  · refine ⟨⟨hi32 s.dec.len ++ v, ?_, congrArg _ (writeDecLen_of_not_busy hidle _)⟩,
      ⟨v ++ lo32 s.dec.len, ?_, congrArg _ (writeDecLen_of_not_busy hidle _)⟩⟩
    · rw [toNat_append_eq_add, hi32_toNat]
    · rw [toNat_append_eq_add, lo32_toNat]

end Sys2Proof.Claims
end

