-- ==== Sys2Proof/Proofs/ResetInvariants.lean ====
section
/-! PROOF. Power-on reset, where both units are idle, meets every invariant (spec/10_state.md R55). -/

namespace Sys2Proof.Machine

theorem reset_buffersCanonical : BuffersCanonical State.reset := ⟨rfl, rfl, rfl, rfl⟩

theorem reset_runBounded : RunBounded State.reset := .of_run_zero rfl (le_refl 0)

/-- R31's start value is the first of the two an entry may hold. -/
theorem reset_encCacheSelfIndexed : EncCacheSelfIndexed State.reset := fun k => .inl (cacheRead_clear k)

theorem reset_encAlphaOpaque : EncAlphaOpaque State.reset := nofun

theorem reset_errorRegistersLegal : ErrorRegistersLegal State.reset :=
  ⟨nofun, fun _ => ⟨rfl, rfl⟩, nofun, fun _ => ⟨rfl, rfl⟩⟩

theorem reset_posInRegion : PosInRegion State.reset := .of_phase_ne nofun nofun

theorem reset_outputBounded : OutputBounded State.reset := ⟨nofun, nofun⟩

end Sys2Proof.Machine

namespace Sys2Proof.Claims

open Sys2Proof.Machine

/-- Settles O49: the invariants about a pass hold because no pass runs, the others by the reset values. -/
theorem resetMeetsEveryInvariant : Obligations.ResetMeetsEveryInvariant where
  buffers := reset_buffersCanonical
  run := reset_runBounded
  cache := reset_encCacheSelfIndexed
  alpha := reset_encAlphaOpaque
  errors := reset_errorRegistersLegal
  pos := reset_posInRegion
  output := reset_outputBounded

end Sys2Proof.Claims
end

