-- ==== Sys2Proof/Proofs/BuffersCanonical.lean ====
section
/-! PROOF. Every step keeps the four buffers in their canonical form (spec/20_memory.md R60): what is written into a buffer goes
through `Memory.write`, and the host's other moves empty one or keep some of another's entries. -/

namespace Sys2Proof.Machine

/-- The form is about the four buffers and nothing else of the state. -/
theorem BuffersCanonical.of_buffers_eq {s t : State} (h : BuffersCanonical s)
    (hbuffers : t.pixIn = s.pixIn ∧ t.outBuf = s.outBuf ∧ t.inBuf = s.inBuf ∧ t.pixOut = s.pixOut) :
    BuffersCanonical t := by
  obtain ⟨hpixIn, hout, hin, hpixOut⟩ := hbuffers
  unfold BuffersCanonical at h ⊢
  rwa [hpixIn, hout, hin, hpixOut]

/-- `Emit` writes `OUT` only. -/
theorem emitAll_keeps_buffersCanonical {bs : List Byte} {s : State} (hs : BuffersCanonical s) :
    BuffersCanonical (emitAll bs s) := by
  obtain ⟨hpixIn, hout, hin, hpixOut⟩ := hs
  exact ⟨by simpa using hpixIn, wf_emitAll bs s hout, by simpa using hin, by simpa using hpixOut⟩

/-- `PixWrite` writes `PIXOUT` only. -/
theorem produceN_keeps_buffersCanonical {n : Nat} {p : Pixel} {s : State} (hs : BuffersCanonical s) :
    BuffersCanonical (produceN n p s) := by
  obtain ⟨hpixIn, hout, hin, hpixOut⟩ := hs
  exact ⟨by simpa using hpixIn, by simpa using hout, by simpa using hin, wf_produceN n p s hpixOut⟩

theorem encMove_keeps_buffersCanonical {s t : State} (hs : BuffersCanonical s) (h : encMove s = .next t) :
    BuffersCanonical t := by
  rcases encMove_cases h with ⟨rfl, _⟩ | ⟨_, _, _, _, hpx⟩ | ⟨_, _, hfin⟩
  case inl => exact hs
  case inr.inl =>
    rcases encPixelOf_cases hpx with ⟨_, _, _, rfl⟩ | ⟨_, _, rfl⟩ | ⟨_, _, rfl⟩
    · exact emitAll_keeps_buffersCanonical (hs.of_buffers_eq (by simp))
    · exact hs.of_buffers_eq (by simp)
    · exact emitAll_keeps_buffersCanonical (hs.of_buffers_eq (by simp))
  case inr.inr =>
    obtain ⟨-, rfl⟩ := encFinish_next hfin
    exact emitAll_keeps_buffersCanonical (hs.of_buffers_eq (by simp))

theorem decMove_keeps_buffersCanonical {s t : State} (hs : BuffersCanonical s) (h : decMove s = .next t) :
    BuffersCanonical t := by
  rcases decMove_cases h with ⟨rfl, _⟩ | ⟨_, _, hop⟩ | ⟨_, _, rfl⟩
  case inl => exact hs
  case inr.inl =>
    rcases decOpcode_cases hop with ⟨i, _, hexec⟩ | ⟨_, rfl⟩ | ⟨_, rfl⟩
    · obtain ⟨-, rfl⟩ := exec_next hexec
      have hproduced := produceN_keeps_buffersCanonical (n := yieldedCount i) (p := yieldedPixel i s.dec) hs
      exact hproduced.of_buffers_eq (by simp)
    · exact hs.of_buffers_eq (by simp)
    · exact hs.of_buffers_eq (by simp)
  case inr.inr => exact hs.of_buffers_eq (by simp)

theorem encBegin_keeps_buffersCanonical {s : State} (hs : BuffersCanonical s) : BuffersCanonical (encBegin s) :=
  hs.of_buffers_eq ⟨rfl, rfl, rfl, rfl⟩

theorem decBegin_keeps_buffersCanonical {s : State} (hs : BuffersCanonical s) : BuffersCanonical (decBegin s) :=
  hs.of_buffers_eq ⟨rfl, rfl, rfl, rfl⟩

theorem encStart_keeps_buffersCanonical {s t : State} (hs : BuffersCanonical s) (h : encStart s = .next t) :
    BuffersCanonical t := by
  have hbegin := encBegin_keeps_buffersCanonical hs
  rcases encStart_next h with ⟨_, rfl⟩ | ⟨_, _, _, _, rfl⟩
  · exact hbegin.of_buffers_eq (by simp)
  · exact emitAll_keeps_buffersCanonical (hbegin.of_buffers_eq (by simp))

theorem decStart_keeps_buffersCanonical {s t : State} (hs : BuffersCanonical s) (h : decStart s = .next t) :
    BuffersCanonical t := by
  have hbegin := decBegin_keeps_buffersCanonical hs
  rcases decStart_next h with ⟨_, _, rfl⟩ | ⟨_, _, _, _, _, _, _, _, _, _, _, rfl⟩
  · exact hbegin.of_buffers_eq (by simp)
  · exact hbegin.of_buffers_eq ⟨rfl, rfl, rfl, rfl⟩

theorem writeReg_keeps_buffersCanonical {r : Reg} {v : Word} {s t : State} (hs : BuffersCanonical s)
    (h : writeReg r v s = .next t) : BuffersCanonical t := by
  rcases writeReg_cases h with rfl | ⟨_, _, _, _, _, rfl⟩ | ⟨_, _, rfl⟩ | ⟨_, hstart⟩ | ⟨_, hstart⟩
  · exact hs
  · exact hs.of_buffers_eq (by simp)
  · exact hs.of_buffers_eq (by simp)
  · exact encStart_keeps_buffersCanonical hs hstart
  · exact decStart_keeps_buffersCanonical hs hstart

theorem perform_keeps_buffersCanonical {m : HostMove} {s t : State} (hs : BuffersCanonical s)
    (h : perform m s = .next t) : BuffersCanonical t := by
  have ⟨hpixIn, hout, hin, hpixOut⟩ := hs
  rcases perform_cases h with ⟨_, _, _, _, _, _, rfl⟩ | ⟨_, _, hw⟩ | ⟨_, _, _, rfl⟩ | ⟨_, _, _, rfl⟩ | ⟨_, _, rfl⟩ |
    ⟨_, _, rfl⟩ | ⟨_, _, rfl⟩ | rfl
  · exact hs.of_buffers_eq (by simp)
  · exact writeReg_keeps_buffersCanonical hs hw
  · exact ⟨Memory.wf_writeAll _ _ _ hpixIn, hout, hin, hpixOut⟩
  · exact ⟨hpixIn, hout, Memory.wf_writeAll _ _ _ hin, hpixOut⟩
  · exact ⟨hpixIn, rfl, hin, hpixOut⟩
  · exact ⟨hpixIn, hout, hin, rfl⟩
  · exact ⟨hpixIn, hout, Memory.wf_filter _ _ hout, hpixOut⟩
  · exact hs.of_buffers_eq ⟨rfl, rfl, rfl, rfl⟩

theorem hostMove_keeps_buffersCanonical {s t : State} (hs : BuffersCanonical s) (h : hostMove s = .next t) :
    BuffersCanonical t := by
  rcases hostMove_cases h with rfl | ⟨_, rest, _, hm⟩
  · exact hs
  · exact perform_keeps_buffersCanonical (s := { s with host := rest }) (hs.of_buffers_eq ⟨rfl, rfl, rfl, rfl⟩) hm

end Sys2Proof.Machine

namespace Sys2Proof.Claims

open Sys2Proof.Machine

/-- Settles O50: each agent's move keeps the form, and taking the turn touches no buffer. -/
theorem everyStepKeepsBuffersCanonical : Obligations.EveryStepKeepsBuffersCanonical := by
  intro s t hs h
  have hpop : BuffersCanonical (popTurn s) := hs.of_buffers_eq (by simp)
  rcases step_cases h with henc | hdec | hhost
  · exact encMove_keeps_buffersCanonical hpop henc
  · exact decMove_keeps_buffersCanonical hpop hdec
  · exact hostMove_keeps_buffersCanonical hpop hhost

end Sys2Proof.Claims
end

