-- ==== Sys2Proof/Proofs/UnitStepsCommute.lean ====
section
/-! PROOF. ENC's and DEC's own moves commute (spec/00_scope.md R11, spec/20_memory.md R75): what a unit's move writes, the other
unit's move neither reads nor writes. `setEncPart` and `setDecPart` replace the two parts, `mapNext` changes the next state of
an answer. -/

namespace Sys2Proof.Machine

/-- The state with what a move of ENC may write replaced: its registers and `OUT`. -/
def setEncPart (e : Enc) (o : Memory Byte) (s : State) : State := { s with enc := e, outBuf := o }

/-- The state with what a move of DEC may write replaced: its registers and `PIXOUT`. -/
def setDecPart (d : Dec) (m : Memory Pixel) (s : State) : State := { s with dec := d, pixOut := m }

/-- An answer with its next state, if it has one, changed. -/
def mapNext (f : State → State) (r : Result) : Result :=
  match r with
  | .next s => .next (f s)
  | .fault x => .fault x
  | .refused x => .refused x

theorem setEncPart_setDecPart (e : Enc) (o : Memory Byte) (d : Dec) (m : Memory Pixel) (s : State) :
    setEncPart e o (setDecPart d m s) = setDecPart d m (setEncPart e o s) := rfl

/-! ### What a move writes -/

/-- Bytes emitted after an update of ENC's part are an update of ENC's part. -/
theorem emitAll_writes_encPart {bs : List Byte} {s t : State} (h : ∃ e o, t = setEncPart e o s) :
    ∃ e o, emitAll bs t = setEncPart e o s := by
  obtain ⟨e, o, rfl⟩ := h
  exact ⟨_, _, emitAll_eq _ _⟩

theorem encMove_writes_encPart {s t : State} (h : encMove s = .next t) : ∃ e o, t = setEncPart e o s := by
  rcases encMove_cases h with ⟨rfl, _⟩ | ⟨_, _, _, _, hpx⟩ | ⟨_, _, hfin⟩
  · exact ⟨_, _, rfl⟩
  · rcases encPixelOf_cases hpx with ⟨_, _, _, rfl⟩ | ⟨_, _, rfl⟩ | ⟨_, _, rfl⟩
    · exact emitAll_writes_encPart ⟨_, _, rfl⟩
    · exact ⟨_, _, rfl⟩
    · exact emitAll_writes_encPart ⟨_, _, rfl⟩
  · obtain ⟨-, rfl⟩ := encFinish_next hfin
    exact emitAll_writes_encPart ⟨_, _, rfl⟩

theorem decMove_writes_decPart {s t : State} (h : decMove s = .next t) : ∃ d m, t = setDecPart d m s := by
  rcases decMove_cases h with ⟨rfl, _⟩ | ⟨_, _, hop⟩ | ⟨_, _, rfl⟩
  · exact ⟨_, _, rfl⟩
  · rcases decOpcode_cases hop with ⟨i, _, hx⟩ | ⟨_, rfl⟩ | ⟨_, rfl⟩
    · obtain ⟨-, rfl⟩ := exec_next hx
      rw [produceN_eq]
      exact ⟨_, _, rfl⟩
    · exact ⟨_, _, rfl⟩
    · exact ⟨_, _, rfl⟩
  · exact ⟨_, _, rfl⟩

/-! ### ENC's move does not read DEC's part -/

section EncIgnoresDecPart

variable (d : Dec) (m : Memory Pixel)

theorem emitAll_setDecPart (bs : List Byte) (s : State) :
    emitAll bs (setDecPart d m s) = setDecPart d m (emitAll bs s) := by
  induction bs generalizing s with
  | nil => rfl
  | cons b t ih => exact ih (emit b s)

theorem emitBytes_setDecPart (bs : List Byte) (s : State) :
    emitBytes bs (setDecPart d m s) = mapNext (setDecPart d m) (emitBytes bs s) := by
  have hroom : outHasRoom bs.length (setDecPart d m s) = outHasRoom bs.length s := rfl
  unfold emitBytes
  rw [hroom, emitAll_setDecPart]
  split_ifs <;> rfl

theorem encAbsorb_setDecPart (last : Bool) (s : State) :
    encAbsorb last (setDecPart d m s) = mapNext (setDecPart d m) (encAbsorb last s) := by
  have hrun : (setDecPart d m s).enc.run = s.enc.run := rfl
  unfold encAbsorb
  simp only [hrun]
  split_ifs
  · exact emitBytes_setDecPart d m _ (encSetRun 0 s)
  · rfl

theorem encPixelOf_setDecPart (p : Pixel) (s : State) :
    encPixelOf p (setDecPart d m s) = mapNext (setDecPart d m) (encPixelOf p s) := by
  have henc : (setDecPart d m s).enc = s.enc := rfl
  unfold encPixelOf
  simp only [henc]
  split_ifs
  · exact encAbsorb_setDecPart d m _ (encTake s)
  · exact emitBytes_setDecPart d m _ (encRecord _ (encSetRun 0 (encTake s)))

theorem encPixel_setDecPart (s : State) :
    encPixel (setDecPart d m s) = mapNext (setDecPart d m) (encPixel s) := by
  have hread : Memory.read (setDecPart d m s).pixIn (setDecPart d m s).enc.i.toNat = Memory.read s.pixIn s.enc.i.toNat := rfl
  unfold encPixel
  rw [hread]
  split
  · exact encPixelOf_setDecPart d m _ s
  · rfl

theorem encMove_setDecPart (s : State) : encMove (setDecPart d m s) = mapNext (setDecPart d m) (encMove s) := by
  have henc : (setDecPart d m s).enc = s.enc := rfl
  unfold encMove
  rw [henc]
  split
  case h_1 =>
    split_ifs
    · exact encPixel_setDecPart d m s
    · exact emitBytes_setDecPart d m _ { s with enc := { s.enc with phase := .done } }
    · rfl
  all_goals rfl

end EncIgnoresDecPart

/-! ### DEC's move does not read ENC's part -/

section DecIgnoresEncPart

variable (e : Enc) (o : Memory Byte)

theorem produceN_setEncPart (n : Nat) (p : Pixel) (s : State) :
    produceN n p (setEncPart e o s) = setEncPart e o (produceN n p s) := by
  induction n generalizing s with
  | zero => rfl
  | succ k ih => exact ih (produce p s)

theorem exec_setEncPart (i : Instr) (s : State) :
    exec i (setEncPart e o s) = mapNext (setEncPart e o) (exec i s) := by
  have hdec : (setEncPart e o s).dec = s.dec := rfl
  have hroom : ∀ n, pixOutHasRoom n (setEncPart e o s) = pixOutHasRoom n s := fun _ => rfl
  rw [exec_eq, exec_eq, hdec]
  unfold yieldPixels
  rw [hroom, produceN_setEncPart]
  split_ifs <;> rfl

theorem decOpcode_setEncPart (s : State) :
    decOpcode (setEncPart e o s) = mapNext (setEncPart e o) (decOpcode s) := by
  have hdec : (setEncPart e o s).dec = s.dec := rfl
  have hin : (setEncPart e o s).inBuf = s.inBuf := rfl
  unfold decOpcode
  rw [hdec, hin]
  split
  case h_1 i _ => exact exec_setEncPart e o i s
  all_goals rfl

theorem decMove_setEncPart (s : State) : decMove (setEncPart e o s) = mapNext (setEncPart e o) (decMove s) := by
  have hdec : (setEncPart e o s).dec = s.dec := rfl
  unfold decMove
  rw [hdec]
  split
  case h_1 =>
    split_ifs
    · exact decOpcode_setEncPart e o s
    · rfl
    · rfl
  all_goals rfl

end DecIgnoresEncPart

end Sys2Proof.Machine

namespace Sys2Proof.Claims

open Sys2Proof.Machine

/-- Settles O57: each unit writes its own part only and does not read the other's, so either order ends with both
parts written. -/
theorem unitStepsCommute : Obligations.UnitStepsCommute := by
  intro s t u henc hdec
  obtain ⟨e, o, rfl⟩ := encMove_writes_encPart henc
  obtain ⟨d, m, rfl⟩ := decMove_writes_decPart hdec
  refine ⟨⟨rfl, rfl, rfl⟩, ⟨rfl, rfl, rfl⟩, setEncPart e o (setDecPart d m s), ?_, ?_⟩
  · rw [decMove_setEncPart, hdec, mapNext]
  · rw [encMove_setDecPart, henc, mapNext, setEncPart_setDecPart]

end Sys2Proof.Claims
end

