-- ==== Sys2Proof/Proofs/HostReads.lean ====
section
/-! PROOF. What the host's reads answer and leave alone (spec/20_memory.md R70), and what a read of STATUS with DONE or ERR
guarantees to the reads after it (R76). -/

namespace Sys2Proof.Machine

/-! ### A register read and the same read again -/

/-- A read changes nothing that the value of the register it read depends on (R70). -/
theorem readValue_readReg {off : Nat} {r : Reg} (h : regAt off = some r) (s : State) :
    readValue off r (readReg off s) = readValue off r s := by
  unfold readReg
  rw [h]
  cases r <;> rfl

/-- Every offset reads as some word, and as the same word after that read. -/
theorem readReg_repeats (off : Nat) (s : State) :
    ∃ v, (readReg off s).replies = .word off v :: s.replies ∧ Claims.Reads off v (readReg off s) := by
  cases h : regAt off with
  | none =>
    have hread : ∀ t, readReg off t = reply (.word off 0) t := fun t => by simp [readReg, h]
    exact ⟨0, by rw [hread]; rfl, readReg off (readReg off s), rfl, by rw [hread (readReg off s)]; rfl⟩
  | some r => exact ⟨readValue off r s, readReg_replies h s, readValue_readReg h s ▸ reads_readValue h (readReg off s)⟩

/-! ### Reads after the host has read the end of a pass -/

/-- The host's read of ENC_STATUS with DONE = 1 or ERR = 1 settles ENC's counters. -/
theorem encSettled_readReg_encStatus {s : State} (h : s.enc.phase = .done ∨ s.enc.phase = .error) :
    encSettled (readReg 0x04 s) = true := by
  rcases h with h | h <;> simp [readReg, regAt, acquire, reply, encSettled, encEnded, h]

/-- The host's read of DEC_STATUS with DONE = 1 or ERR = 1 settles DEC's counters and header registers. -/
theorem decSettled_readReg_decStatus {s : State} (h : s.dec.phase = .done ∨ s.dec.phase = .error) :
    decSettled (readReg 0x44 s) = true := by
  rcases h with h | h <;> simp [readReg, regAt, acquire, reply, decSettled, decEnded, h]

/-- With DONE = 1 in that read, every byte ENC wrote is what the host reads of `OUT`. -/
theorem readOut_after_done {s : State} {a : Index} {b : Byte} (hdone : s.enc.phase = .done)
    (ha : a.toNat < s.enc.outlen.toNat) (hb : Memory.read s.outBuf a.toNat = some b) :
    readOut a (readReg 0x04 s) = reply (.outByte a b) (readReg 0x04 s) :=
  readOut_of_valid (by rwa [readReg_encStatus_outValid hdone]) hb

/-- With DONE = 1 in that read, every pixel DEC produced is what the host reads of `PIXOUT`. -/
theorem readPixOut_after_done {s : State} {i : Index} {p : Pixel} (hdone : s.dec.phase = .done)
    (hi : i.toNat < s.dec.pixcnt.toNat) (hp : Memory.read s.pixOut i.toNat = some p) :
    readPixOut i (readReg 0x44 s) = reply (.pixel i p) (readReg 0x44 s) :=
  readPixOut_of_valid (by rwa [readReg_decStatus_pixOutValid hdone]) hp

end Sys2Proof.Machine

namespace Sys2Proof.Claims

open Sys2Proof.Machine

/-- Settles O43: a read changes only the replies and what the host has seen, none of which the value it returns depends on. -/
theorem registerReadsHaveNoSideEffect : Obligations.RegisterReadsHaveNoSideEffect := by
  intro off s
  obtain ⟨v, hreply, hagain⟩ := readReg_repeats off s
  refine ⟨readReg off s, v, rfl, hreply, hagain, ?_⟩
  rw [readReg_spec]
  exact ⟨rfl, rfl, rfl, rfl, rfl, rfl, rfl, rfl, rfl⟩

/-- Settles O45: the read of STATUS settles the unit's registers, and with DONE = 1 its output. -/
theorem readsAfterDoneAreGuaranteed : Obligations.ReadsAfterDoneAreGuaranteed := by
  intro s
  simp only [← lo32_eq_ofNat, ← hi32_eq_ofNat]
  simp only [BitVec.ofNat_toNat]
  refine ⟨fun hend => ⟨readReg 0x04 s, rfl, readReg_replies (r := .encStatus) rfl s, ?_⟩,
    fun hend => ⟨readReg 0x44 s, rfl, readReg_replies (r := .decStatus) rfl s, ?_⟩⟩
  · have hset := encSettled_readReg_encStatus hend
    exact ⟨reads_of_settled (r := .encPixidxLo) rfl hset, reads_of_settled (r := .encPixidxHi) rfl hset,
      reads_of_settled (r := .encOutlenLo) rfl hset, reads_of_settled (r := .encOutlenHi) rfl hset,
      fun hdone a b ha hb => ⟨_, rfl, congrArg State.replies (readOut_after_done hdone ha hb)⟩⟩
  · have hset := decSettled_readReg_decStatus hend
    exact ⟨reads_of_settled (r := .decWidth) rfl hset, reads_of_settled (r := .decHeight) rfl hset,
      reads_of_settled (r := .decChannels) rfl hset, reads_of_settled (r := .decColorspace) rfl hset,
      reads_of_settled (r := .decPosLo) rfl hset, reads_of_settled (r := .decPosHi) rfl hset,
      reads_of_settled (r := .decPixcntLo) rfl hset, reads_of_settled (r := .decPixcntHi) rfl hset,
      fun hdone i p hi hp => ⟨_, rfl, congrArg State.replies (readPixOut_after_done hdone hi hp)⟩⟩

end Sys2Proof.Claims
end

