-- ==== Sys2Proof/Proofs/OpcodeFormat.lean ====
section
/-! PROOF. The six opcode formats as bit layouts (spec/30_encoding.md R91 to R96). The decoder (R98, R100) and the encoder
(R101) both realise them, every byte begins one (R99) and every well-formed instruction has one: so each undoes the other. -/

namespace Sys2Proof

/-! ### The formats -/

/-- The payload of a DIFF (R92). -/
def diffPayload (ur ug ub : BitVec 2) : BitVec 6 := ur ++ ug ++ ub

/-- R91 to R96: the instruction an opcode's fields stand for, and the bytes those fields are laid out in, high bits first.
It names neither the decoder nor the encoder. -/
inductive Format : Instr → List Byte → Prop where
  | rgba (r g b a : Byte) : Format (.rgba r g b a) [0xFF, r, g, b, a]
  | rgb (r g b : Byte) : Format (.rgb r g b) [0xFE, r, g, b]
  | index (idx : BitVec 6) : Format (.index idx) [0#2 ++ idx]
  | diff (ur ug ub : BitVec 2) :
    Format (.diff (ur.toNat - 2) (ug.toNat - 2) (ub.toNat - 2)) [1#2 ++ diffPayload ur ug ub]
  | luma (ug : BitVec 6) (urg ubg : BitVec 4) :
    Format (.luma (ug.toNat - 32) (urg.toNat - 8) (ubg.toNat - 8)) [2#2 ++ ug, urg ++ ubg]
  | run (ul : BitVec 6) (hul : ul.toNat ≤ 61) : Format (.run (ul.toNat + 1)) [3#2 ++ ul]

/-! ### A byte and its fields -/

@[simp] theorem tag_append (t : BitVec 2) (p : BitVec 6) : tag (t ++ p) = t :=
  BitVec.extractLsb'_append_eq_left

@[simp] theorem payload_append (t : BitVec 2) (p : BitVec 6) : payload (t ++ p) = p :=
  BitVec.extractLsb'_append_eq_right

theorem tag_toNat (b : Byte) : (tag b).toNat = b.toNat / 64 := by
  have := b.isLt
  simp only [tag, BitVec.extractLsb'_toNat, Nat.shiftRight_eq_div_pow]
  omega

theorem tag_eq_two_iff (b : Byte) : tag b = 2 ↔ 0x80 ≤ b.toNat ∧ b.toNat ≤ 0xBF := by
  rw [← BitVec.toNat_inj, tag_toNat]
  show b.toNat / 64 = 2 ↔ _
  omega

theorem biasedField_eq (b : Byte) (lo n : Nat) (bias : Int) :
    biasedField b lo n bias = (b.toNat / 2 ^ lo % 2 ^ n : Nat) - bias := by
  rw [biasedField, BitVec.extractLsb'_toNat, Nat.shiftRight_eq_div_pow]

theorem diffPayload_toNat (ur ug ub : BitVec 2) :
    (diffPayload ur ug ub).toNat = ur.toNat * 16 + ug.toNat * 4 + ub.toNat := by
  simp only [diffPayload, Machine.toNat_append_eq_add]
  omega

/-- A word is the concatenation of two fields, wherever it is cut. -/
theorem exists_append {m n : Nat} (x : BitVec (m + n)) : ∃ (hi : BitVec m) (lo : BitVec n), x = hi ++ lo :=
  ⟨_, _, BitVec.extractLsb'_append_extractLsb'.symm⟩

theorem exists_payload_of_tag {b : Byte} {t : BitVec 2} (h : tag b = t) : ∃ p : BitVec 6, b = t ++ p := by
  obtain ⟨t', p, rfl⟩ := exists_append (m := 2) (n := 6) b
  exact ⟨p, by rw [← h, tag_append]⟩

/-- The 64 bytes of a range of R99 share a tag. -/
theorem exists_payload_of_div {b : Byte} (t : Nat) (h : b.toNat / 64 = t) :
    ∃ p : BitVec 6, b = BitVec.ofNat 2 t ++ p := by
  have := b.isLt
  exact exists_payload_of_tag (BitVec.eq_of_toNat_eq (by rw [tag_toNat, h, BitVec.toNat_ofNat]; omega))

theorem exists_diffPayload (p : BitVec 6) : ∃ ur ug ub, p = diffPayload ur ug ub := by
  obtain ⟨hi, ub, rfl⟩ := exists_append (m := 4) (n := 2) p
  obtain ⟨ur, ug, rfl⟩ := exists_append (m := 2) (n := 2) hi
  exact ⟨ur, ug, ub, rfl⟩

/-- The exact matches of R98 take the two bytes with tag 11 that are no RUN (R95), and no other. -/
theorem append_ne_verbatim_iff (t : BitVec 2) (p : BitVec 6) :
    ((t ++ p : Byte) ≠ 0xFF ∧ (t ++ p : Byte) ≠ 0xFE) ↔ (t = 3#2 → p.toNat ≤ 61) := by
  have := p.isLt
  simp only [ne_eq, ← BitVec.toNat_inj, Machine.toNat_append_eq_add, BitVec.ofNat_eq_ofNat, BitVec.toNat_ofNat]
  omega

theorem oplen_append {t : BitVec 2} {p : BitVec 6} (h : t = 3#2 → p.toNat ≤ 61) :
    oplen (t ++ p) = if t = 2#2 then 2 else 1 := by
  obtain ⟨hff, hfe⟩ := (append_ne_verbatim_iff t p).mpr h
  rw [oplen, if_neg hff, if_neg hfe, tag_append]
  rfl

/-- R99: every byte begins one of the six formats. -/
theorem first_byte_cases (b : Byte) :
    b = 0xFF ∨ b = 0xFE ∨ (∃ idx : BitVec 6, b = 0#2 ++ idx) ∨ (∃ ur ug ub, b = 1#2 ++ diffPayload ur ug ub) ∨
    (∃ ug : BitVec 6, b = 2#2 ++ ug) ∨ ∃ ul : BitVec 6, ul.toNat ≤ 61 ∧ b = 3#2 ++ ul := by
  have tags : ∀ t : BitVec 2, t = 0#2 ∨ t = 1#2 ∨ t = 2#2 ∨ t = 3#2 := by decide
  by_cases hrgba : b = 0xFF
  · exact .inl hrgba
  by_cases hrgb : b = 0xFE
  · exact .inr (.inl hrgb)
  refine .inr (.inr ?_)
  rcases tags (tag b) with h | h | h | h <;> obtain ⟨p, rfl⟩ := exists_payload_of_tag h
  · exact .inl ⟨p, rfl⟩
  · obtain ⟨ur, ug, ub, rfl⟩ := exists_diffPayload p
    exact .inr (.inl ⟨ur, ug, ub, rfl⟩)
  · exact .inr (.inr (.inl ⟨p, rfl⟩))
  · exact .inr (.inr (.inr ⟨p, (append_ne_verbatim_iff 3#2 p).mp ⟨hrgba, hrgb⟩ rfl, rfl⟩))

/-! ### Well-formed instructions are the ones with a format -/

theorem inRange_iff (lo hi x : Int) : inRange lo hi x = true ↔ lo ≤ x ∧ x ≤ hi := by
  simp only [inRange, Bool.and_eq_true, decide_eq_true_eq]

theorem Instr.wf_diff_iff (dr dg db : Int) :
    (Instr.diff dr dg db).wf = true ↔ -2 ≤ dr ∧ dr ≤ 1 ∧ -2 ≤ dg ∧ dg ≤ 1 ∧ -2 ≤ db ∧ db ≤ 1 := by
  simp only [Instr.wf, Bool.and_eq_true, inRange_iff, and_assoc]

theorem Instr.wf_luma_iff (dg drDg dbDg : Int) :
    (Instr.luma dg drDg dbDg).wf = true ↔ -32 ≤ dg ∧ dg ≤ 31 ∧ -8 ≤ drDg ∧ drDg ≤ 7 ∧ -8 ≤ dbDg ∧ dbDg ≤ 7 := by
  simp only [Instr.wf, Bool.and_eq_true, inRange_iff, and_assoc]

theorem Instr.wf_run_iff (len : Nat) : (Instr.run len).wf = true ↔ 1 ≤ len ∧ len ≤ 62 := by
  simp only [Instr.wf, Bool.and_eq_true, decide_eq_true_eq]

theorem Format.wf {i : Instr} {bs : List Byte} (h : Format i bs) : i.wf = true := by
  cases h with
  | rgba r g b a => rfl
  | rgb r g b => rfl
  | index idx => rfl
  | diff ur ug ub => rw [Instr.wf_diff_iff]; omega
  | luma ug urg ubg => rw [Instr.wf_luma_iff]; omega
  | run ul hul => rw [Instr.wf_run_iff]; omega

/-- An operand in the range of a biased `n`-bit field is what some value of the field stands for (R100). -/
theorem exists_field (n : Nat) (bias : Int) {x : Int} (hlo : -bias ≤ x) (hhi : x < 2 ^ n - bias) :
    ∃ u : BitVec n, (u.toNat : Int) - bias = x := by
  refine ⟨BitVec.ofNat n (x + bias).toNat, ?_⟩
  rw [BitVec.toNat_ofNat, Nat.mod_eq_of_lt ((Int.toNat_lt (by omega)).mpr (by push_cast; omega))]
  omega

theorem Format.exists_of_wf {i : Instr} (h : i.wf = true) : ∃ bs, Format i bs := by
  cases i with
  | rgba r g b a => exact ⟨_, .rgba r g b a⟩
  | rgb r g b => exact ⟨_, .rgb r g b⟩
  | index idx => exact ⟨_, .index idx⟩
  | diff dr dg db =>
    obtain ⟨hr, hr', hg, hg', hb, hb'⟩ := (Instr.wf_diff_iff dr dg db).mp h
    obtain ⟨ur, rfl⟩ := exists_field 2 2 hr (by omega)
    obtain ⟨ug, rfl⟩ := exists_field 2 2 hg (by omega)
    obtain ⟨ub, rfl⟩ := exists_field 2 2 hb (by omega)
    exact ⟨_, .diff ur ug ub⟩
  | luma dg drDg dbDg =>
    obtain ⟨hg, hg', hr, hr', hb, hb'⟩ := (Instr.wf_luma_iff dg drDg dbDg).mp h
    obtain ⟨ug, rfl⟩ := exists_field 6 32 hg (by omega)
    obtain ⟨urg, rfl⟩ := exists_field 4 8 hr (by omega)
    obtain ⟨ubg, rfl⟩ := exists_field 4 8 hb (by omega)
    exact ⟨_, .luma ug urg ubg⟩
  | run len =>
    obtain ⟨hlo, hhi⟩ := (Instr.wf_run_iff len).mp h
    obtain ⟨ul, hul⟩ := exists_field 6 (-1) (x := len) (by omega) (by omega)
    obtain rfl : ul.toNat + 1 = len := by omega
    exact ⟨_, .run ul (by omega)⟩

/-! ### The encoder writes the format -/

/-- The bias added on emit is the one taken off by the field, so the operand is the field again. -/
theorem biased_field {n : Nat} (bias : Int) (u : BitVec n) : biased bias (u.toNat - bias) = u.setWidth 8 := by
  rw [biased, Int.sub_add_cancel, BitVec.ofInt_natCast, BitVec.ofNat_toNat]

/-- The `|` of shifted fields that R101 emits is their concatenation. -/
theorem shiftLeft_or_eq_append {m n : Nat} (hi : BitVec m) (lo : BitVec n) :
    hi.setWidth (m + n) <<< n ||| lo.setWidth (m + n) = hi ++ lo := by
  rw [← BitVec.setWidth_append_eq_shiftLeft_setWidth_or, BitVec.setWidth_eq]

theorem Format.encode_eq {i : Instr} {bs : List Byte} (h : Format i bs) : encode i = bs := by
  cases h with
  | rgba r g b a => rfl
  | rgb r g b => rfl
  | index idx => exact congrArg ([·]) (shiftLeft_or_eq_append 0#2 idx)
  | diff ur ug ub =>
    rw [encode, biased_field, biased_field, biased_field, ← shiftLeft_or_eq_append, diffPayload,
      BitVec.setWidth_append_append_eq_shiftLeft_setWidth_or, BitVec.or_assoc, BitVec.or_assoc, BitVec.or_assoc]
    rfl
  | luma ug urg ubg =>
    rw [encode, biased_field, biased_field, biased_field, ← shiftLeft_or_eq_append, ← shiftLeft_or_eq_append]
    rfl
  | run ul hul =>
    rw [encode, Nat.add_sub_cancel, BitVec.ofNat_toNat, ← shiftLeft_or_eq_append]
    rfl

/-! ### The decoder reads the format -/

theorem biasedField_diff (ur ug ub : BitVec 2) :
    biasedField (1#2 ++ diffPayload ur ug ub) 4 2 2 = ur.toNat - 2 ∧
    biasedField (1#2 ++ diffPayload ur ug ub) 2 2 2 = ug.toNat - 2 ∧
    biasedField (1#2 ++ diffPayload ur ug ub) 0 2 2 = ub.toNat - 2 := by
  simp only [biasedField_eq, Machine.toNat_append_eq_add, diffPayload_toNat]
  omega

theorem biasedField_luma_green (ug : BitVec 6) : biasedField (2#2 ++ ug) 0 6 32 = ug.toNat - 32 := by
  simp only [biasedField_eq, Machine.toNat_append_eq_add]
  omega

theorem biasedField_luma_residuals (urg ubg : BitVec 4) :
    biasedField (urg ++ ubg) 4 4 8 = urg.toNat - 8 ∧ biasedField (urg ++ ubg) 0 4 8 = ubg.toNat - 8 := by
  simp only [biasedField_eq, Machine.toNat_append_eq_add]
  omega

theorem Format.decode_append {i : Instr} {bs : List Byte} (h : Format i bs) (rest : List Byte) :
    decode (bs ++ rest) = .ok (i, rest) := by
  cases h with
  | rgba r g b a => rfl
  | rgb r g b => rfl
  | index idx =>
    have hne := (append_ne_verbatim_iff 0#2 idx).mpr (by simp)
    simp only [List.cons_append, decode, hne, if_false, tag_append, payload_append]
    rfl
  | diff ur ug ub =>
    have hne := (append_ne_verbatim_iff 1#2 (diffPayload ur ug ub)).mpr (by simp)
    simp only [List.cons_append, decode, hne, if_false, tag_append, biasedField_diff]
    rfl
  | luma ug urg ubg =>
    have hne := (append_ne_verbatim_iff 2#2 ug).mpr (by simp)
    simp only [List.cons_append, decode, hne, if_false, tag_append, biasedField_luma_green, biasedField_luma_residuals]
    rfl
  | run ul hul =>
    have hne := (append_ne_verbatim_iff 3#2 ul).mpr fun _ => hul
    simp only [List.cons_append, decode, hne, if_false, tag_append, payload_append]
    rfl

/-- Bytes that begin with a format are read as that format and nothing else. -/
theorem Format.of_decode_append {i j : Instr} {bs t rest : List Byte} (hj : Format j bs)
    (h : decode (bs ++ t) = .ok (i, rest)) : Format i bs ∧ bs ++ rest = bs ++ t := by
  cases (hj.decode_append t).symm.trans h
  exact ⟨hj, rfl⟩

/-- As many bytes as the first one asks for (R97) are some instruction's format, whatever the others are (R102). -/
theorem Format.exists_of_oplen {b : Byte} {ops : List Byte} (h : ops.length + 1 = oplen b) :
    ∃ i, Format i (b :: ops) := by
  rcases first_byte_cases b with rfl | rfl | ⟨idx, rfl⟩ | ⟨ur, ug, ub, rfl⟩ | ⟨ug, rfl⟩ | ⟨ul, hul, rfl⟩
  · obtain ⟨r, g, b, a, rfl⟩ := List.length_eq_four.mp (Nat.succ.inj h)
    exact ⟨_, .rgba r g b a⟩
  · obtain ⟨r, g, b, rfl⟩ := List.length_eq_three.mp (Nat.succ.inj h)
    exact ⟨_, .rgb r g b⟩
  · obtain rfl := List.length_eq_zero_iff.mp (Nat.succ.inj (h.trans (oplen_append (by simp))))
    exact ⟨_, .index idx⟩
  · obtain rfl := List.length_eq_zero_iff.mp (Nat.succ.inj (h.trans (oplen_append (by simp))))
    exact ⟨_, .diff ur ug ub⟩
  · obtain ⟨b1, rfl⟩ := List.length_eq_one_iff.mp (Nat.succ.inj (h.trans (oplen_append (by simp))))
    obtain ⟨urg, ubg, rfl⟩ := exists_append (m := 4) (n := 4) b1
    exact ⟨_, .luma ug urg ubg⟩
  · obtain rfl := List.length_eq_zero_iff.mp (Nat.succ.inj (h.trans (oplen_append fun _ => hul)))
    exact ⟨_, .run ul hul⟩

/-- Whatever the decoder accepts begins with bytes in the format of the instruction it reads. -/
theorem Format.exists_of_decode {bytes rest : List Byte} {i : Instr} (h : decode bytes = .ok (i, rest)) :
    ∃ bs, Format i bs ∧ bs ++ rest = bytes := by
  rcases bytes with _ | ⟨b, t⟩
  · cases h
  rcases first_byte_cases b with rfl | rfl | ⟨idx, rfl⟩ | ⟨ur, ug, ub, rfl⟩ | ⟨ug, rfl⟩ | ⟨ul, hul, rfl⟩
  · simp only [decode, if_true] at h
    split at h <;> cases h
    exact ⟨_, .rgba .., rfl⟩
  · simp only [decode, if_true] at h
    rw [if_neg (by decide)] at h
    split at h <;> cases h
    exact ⟨_, .rgb .., rfl⟩
  · exact ⟨_, (Format.index idx).of_decode_append h⟩
  · exact ⟨_, (Format.diff ur ug ub).of_decode_append h⟩
  · rcases t with _ | ⟨b1, t⟩
    · have hne := (append_ne_verbatim_iff 2#2 ug).mpr (by simp)
      simp only [decode, hne, if_false, tag_append] at h
      cases h
    · obtain ⟨urg, ubg, rfl⟩ := exists_append (m := 4) (n := 4) b1
      exact ⟨_, (Format.luma ug urg ubg).of_decode_append h⟩
  · exact ⟨_, (Format.run ul hul).of_decode_append h⟩

end Sys2Proof

namespace Sys2Proof.Claims

/-- Settles O1: a well-formed instruction has a format, the encoder writes it and the decoder reads it. -/
theorem decodingUndoesEncoding : Obligations.DecodingUndoesEncoding := by
  intro i rest hwf
  obtain ⟨bs, hbs⟩ := Format.exists_of_wf hwf
  rw [hbs.encode_eq, hbs.decode_append]

/-- Settles O2: accepted bytes begin with a format, whose instruction is well-formed and encodes to it. -/
theorem encodingUndoesDecoding : Obligations.EncodingUndoesDecoding := by
  intro bytes rest i h
  obtain ⟨bs, hbs, rfl⟩ := Format.exists_of_decode h
  exact ⟨hbs.wf, by rw [hbs.encode_eq]⟩

/-- Settles O3: the length's three tests are ranges of the byte, and that many bytes are a format. -/
theorem lengthFromFirstByte : Obligations.LengthFromFirstByte := by
  refine ⟨fun b0 => ?_, fun b0 ops rest h => ?_⟩
  · simp only [oplen, tag_eq_two_iff]
    simp only [← BitVec.toNat_inj]
    rfl
  · obtain ⟨i, hi⟩ := Format.exists_of_oplen h
    exact ⟨i, hi.decode_append rest⟩

/-- Settles O4: a range of 64 first bytes is a tag, and the payload is what the byte exceeds the range's start by. -/
theorem firstByteMap : Obligations.FirstByteMap := by
  intro b0 b1 b2 b3 b4 rest
  refine ⟨fun hhi => ?index, fun hlo hhi => ?diff, fun hlo hhi => ?luma, fun hlo hhi => ?run, fun h => ?rgb, fun h => ?rgba⟩
  case index =>
    obtain ⟨idx, rfl⟩ := exists_payload_of_div (b := b0) 0 (by omega)
    have hidx : BitVec.ofNat 6 (0#2 ++ idx : Byte).toNat = idx := by
      rw [Machine.toNat_append_eq_add]
      simp
    rw [hidx]
    exact (Format.index idx).decode_append rest
  case diff =>
    obtain ⟨p, rfl⟩ := exists_payload_of_div (b := b0) 1 (by omega)
    obtain ⟨ur, ug, ub, rfl⟩ := exists_diffPayload p
    refine ⟨ur.toNat, ug.toNat, ub.toNat, ur.isLt, ug.isLt, ub.isLt, ?_, (Format.diff ur ug ub).decode_append rest⟩
    rw [Machine.toNat_append_eq_add, diffPayload_toNat, BitVec.toNat_ofNat]
    omega
  case luma =>
    obtain ⟨ug, rfl⟩ := exists_payload_of_div (b := b0) 2 (by omega)
    obtain ⟨urg, ubg, rfl⟩ := exists_append (m := 4) (n := 4) b1
    have hug : ((2#2 ++ ug : Byte).toNat : Int) - 0x80 - 32 = ug.toNat - 32 := by
      rw [Machine.toNat_append_eq_add, BitVec.toNat_ofNat]
      omega
    rw [hug]
    exact ⟨urg.toNat, ubg.toNat, urg.isLt, ubg.isLt, Machine.toNat_append_eq_add urg ubg,
      (Format.luma ug urg ubg).decode_append rest⟩
  case run =>
    obtain ⟨ul, rfl⟩ := exists_payload_of_div (b := b0) 3 (by omega)
    have hul : (3#2 ++ ul : Byte).toNat = 0xC0 + ul.toNat := Machine.toNat_append_eq_add 3#2 ul
    rw [hul, Nat.add_sub_cancel_left]
    exact (Format.run ul (by omega)).decode_append rest
  case rgb =>
    obtain rfl : b0 = 0xFE := BitVec.eq_of_toNat_eq h
    exact (Format.rgb b1 b2 b3).decode_append rest
  case rgba =>
    obtain rfl : b0 = 0xFF := BitVec.eq_of_toNat_eq h
    exact (Format.rgba b1 b2 b3 b4).decode_append rest

/-- Settles O5: each word is its format at the fields written out. -/
theorem writtenOutWordsDecode : Obligations.WrittenOutWordsDecode :=
  ⟨(Format.rgba 10 20 30 255).decode_append [], (Format.rgb 200 10 10).decode_append [], (Format.index 11).decode_append [],
   (Format.diff 3 0 3).decode_append [], (Format.luma 34 7 9).decode_append [],
   (Format.run 61 (by decide)).decode_append []⟩

end Sys2Proof.Claims
end

