-- ==== Sys2Proof/Proofs/Assembler.lean ====
section
/-! PROOF. The assembler's refusals and its bytes (spec/30_encoding.md R105). -/

namespace Sys2Proof

/-- A line is refused for its operands and for nothing else. -/
theorem assembleLine_eq_none_iff (l : AsmLine) : assembleLine l = none ↔ ¬ l.wf = true := by
  unfold assembleLine
  split
  next h => cases l <;> simp [h]
  next h => simp [h]

theorem assembleLine_op_eq_some {i : Instr} {bytes : List Byte} (h : assembleLine (.op i) = some bytes) :
    i.wf = true ∧ encode i = bytes := by
  unfold assembleLine at h
  split at h
  next hwf => exact ⟨hwf, Option.some.inj h⟩
  next => cases h

theorem AsmLine.wf_header_iff (w h c s : Nat) :
    (AsmLine.header w h c s).wf = true ↔ w < 2 ^ 32 ∧ h < 2 ^ 32 ∧ c < 256 ∧ s < 256 := by
  simp only [AsmLine.wf, Bool.and_eq_true, decide_eq_true_eq, and_assoc]

end Sys2Proof

namespace Sys2Proof.Claims

/-- Settles O6: a line is refused exactly when its operands are out of range, and an accepted opcode line is its encoding. -/
theorem assemblerRefusesRatherThanWraps : Obligations.AssemblerRefusesRatherThanWraps := by
  refine ⟨fun dr dg db => ?_, fun dg x y => ?_, fun len => ?_, fun w h c s => ?_, fun i bytes h => ?_⟩
  · exact (assembleLine_eq_none_iff _).trans (not_congr (Instr.wf_diff_iff dr dg db))
  · exact (assembleLine_eq_none_iff _).trans (not_congr (Instr.wf_luma_iff dg x y))
  · exact (assembleLine_eq_none_iff _).trans (not_congr (Instr.wf_run_iff len))
  · exact (assembleLine_eq_none_iff _).trans (not_congr (AsmLine.wf_header_iff w h c s))
  · obtain ⟨hwf, rfl⟩ := assembleLine_op_eq_some h
    simpa using decodingUndoesEncoding i [] hwf

end Sys2Proof.Claims
end

