-- ==== Sys2Proof/Proofs/OpcodeChoice.lean ====
section
/-! PROOF. The opcode ENC chooses (spec/42_encoder.md R168 to R173). -/

namespace Sys2Proof.Machine

/-- DIFF and LUMA are chosen only when their deltas fit, which is what makes their operands well-formed. -/
theorem selectDelta_wf (px : Pixel) (dr dg db : Int) : (selectDelta px dr dg db).wf = true := by
  unfold selectDelta
  split
  next hdiff => exact hdiff
  next =>
    split
    next hluma => exact hluma
    next => rfl

theorem selectOpcode_wf (mode : DeltaArith) (cache : Cache) (prev px : Pixel) :
    (selectOpcode mode cache prev px).wf = true := by
  unfold selectOpcode
  split
  next => rfl
  next =>
    split
    next => exact selectDelta_wf ..
    next => rfl

end Sys2Proof.Machine

namespace Sys2Proof.Claims

/-- Settles O31: the delta opcodes are chosen by their own ranges, and INDEX, RGB and RGBA have none. -/
theorem chosenOpcodeIsWellFormed : Obligations.ChosenOpcodeIsWellFormed :=
  Machine.selectOpcode_wf

end Sys2Proof.Claims
end

