-- ==== Sys2Proof/Proofs/HashCache.lean ====
section
/-! PROOF. The hash, the cache write and the cleared cache (spec/40_hash_cache.md R120, R123, R124). -/

namespace Sys2Proof.Machine

/-- R120's sum modulo 64 fits the six bits of an index, so nothing of it is cut off. -/
theorem pixelHash_toNat (p : Pixel) :
    (pixelHash p).toNat = (3 * p.r.toNat + 5 * p.g.toNat + 7 * p.b.toNat + 11 * p.a.toNat) % 64 := by
  rw [pixelHash, BitVec.toNat_ofNat]
  exact Nat.mod_mod _ 64

@[simp] theorem pixelHash_zero : pixelHash Pixel.zero = 0 := rfl

/-- In a cleared cache every entry is `(0,0,0,0)`, which hashes to 0 only. -/
theorem pixelHash_cacheRead_clear_eq_iff (k : BitVec 6) : pixelHash (cacheRead Cache.clear k) = k ↔ k = 0 := by
  rw [cacheRead_clear, pixelHash_zero]
  exact eq_comm

/-- What the lookup at a pixel's hash finds in a cleared cache is `(0,0,0,0)`, whatever the hash. -/
theorem cacheRead_clear_pixelHash_eq_iff (px : Pixel) :
    cacheRead Cache.clear (pixelHash px) = px ↔ px = Pixel.zero := by
  rw [cacheRead_clear]
  exact eq_comm

end Sys2Proof.Machine

namespace Sys2Proof.Claims

open Sys2Proof.Machine

/-- Settles O9: the six bits hold the sum modulo 64, and the rule's four pixels are evaluated. -/
theorem hashIsWeightedSum : Obligations.HashIsWeightedSum :=
  ⟨pixelHash_toNat, by decide, by decide, by decide, by decide⟩

/-- Settles O10: by whether the entry read is the one at the pixel's hash. -/
theorem cacheWriteTouchesOneEntry : Obligations.CacheWriteTouchesOneEntry := by
  intro c p
  exact ⟨cacheRead_cacheWrite_hash c p, fun k hk => cacheRead_cacheWrite_of_ne c p hk⟩

/-- Settles O11: a start step leaves the cleared cache, however it ends. -/
theorem freshCacheHoldsOneSelfHashedEntry : Obligations.FreshCacheHoldsOneSelfHashedEntry := by
  refine ⟨fun s t h => ?_, fun s t h => ?_⟩
  · obtain ⟨hcache, -⟩ := encStart_initial h
    rw [hcache]
    exact ⟨pixelHash_cacheRead_clear_eq_iff, cacheRead_clear_pixelHash_eq_iff⟩
  · obtain ⟨hcache, -⟩ := decStart_initial h
    rw [hcache]
    exact pixelHash_cacheRead_clear_eq_iff

end Sys2Proof.Claims
end

