-- ==== Sys2Proof/Proofs/EncCacheSelfIndexed.lean ====
section
/-! PROOF. ENC's cache stays self-indexed (spec/40_hash_cache.md R125): a step leaves it alone, writes one pixel at that pixel's
hash, or clears it. -/

namespace Sys2Proof.Machine

/-! ### What a step can do to ENC's cache -/

/-- ENC's turn writes its cache for a literal pixel only (R174). -/
theorem encMove_enc_cache {s t : State} (h : encMove s = .next t) :
    t.enc.cache = s.enc.cache ∨ ∃ px, t.enc.cache = cacheWrite s.enc.cache px := by
  rcases encMove_cases h with ⟨rfl, _⟩ | ⟨_, _, p, _, hpx⟩ | ⟨_, _, hfin⟩
  case inl => exact .inl rfl
  case inr.inl =>
    rcases encPixelOf_cases hpx with ⟨_, _, _, rfl⟩ | ⟨_, _, rfl⟩ | ⟨_, _, rfl⟩
    · exact .inl (by simp)
    · exact .inl (by simp)
    · exact .inr ⟨implicitAlpha s.enc.cfgChannels p, by simp⟩
  case inr.inr =>
    obtain ⟨-, rfl⟩ := encFinish_next hfin
    exact .inl (by simp)

/-- The host's turn reaches ENC's cache through a start or reset only, and both clear it (R31, R55). -/
theorem hostMove_enc_cache {s t : State} (h : hostMove s = .next t) :
    t.enc.cache = s.enc.cache ∨ t.enc.cache = Cache.clear := by
  rcases hostMove_enc h with he | ⟨_, _, _, _, _, he⟩ | ⟨_, _, _, _, hstart⟩ | he
  · exact .inl (by rw [he])
  · exact .inl (by rw [he])
  · obtain ⟨hcache, -⟩ := encStart_initial hstart
    exact .inr hcache
  · exact .inr (by rw [he]; rfl)

/-- One step of the machine leaves ENC's cache alone, writes one pixel, or clears it. -/
theorem step_enc_cache {s t : State} (h : step s = .next t) :
    t.enc.cache = s.enc.cache ∨ (∃ px, t.enc.cache = cacheWrite s.enc.cache px) ∨ t.enc.cache = Cache.clear := by
  rcases step_cases h with henc | hdec | hhost
  · rcases encMove_enc_cache henc with hsame | hwrite
    · exact .inl hsame
    · exact .inr (.inl hwrite)
  · exact .inl (by rw [decMove_enc hdec, popTurn_enc])
  · rcases hostMove_enc_cache hhost with hsame | hclear
    · exact .inl hsame
    · exact .inr (.inr hclear)

/-! ### Each keeps the cache self-indexed -/

theorem EncCacheSelfIndexed.of_cache_eq {s t : State} (hs : EncCacheSelfIndexed s) (hc : t.enc.cache = s.enc.cache) :
    EncCacheSelfIndexed t := by
  unfold EncCacheSelfIndexed at hs ⊢
  rwa [hc]

theorem EncCacheSelfIndexed.of_cache_clear {t : State} (hc : t.enc.cache = Cache.clear) : EncCacheSelfIndexed t :=
  fun k => .inl (by rw [hc, cacheRead_clear])

/-- The entry written is the pixel, at its own hash; every other entry is as it was. -/
theorem EncCacheSelfIndexed.of_cacheWrite {s t : State} {px : Pixel} (hs : EncCacheSelfIndexed s)
    (hc : t.enc.cache = cacheWrite s.enc.cache px) : EncCacheSelfIndexed t := by
  intro k
  rw [hc]
  by_cases hk : k = pixelHash px
  · subst hk
    exact .inr (by rw [cacheRead_cacheWrite_hash])
  · rw [cacheRead_cacheWrite_of_ne _ _ hk]
    exact hs k

end Sys2Proof.Machine

namespace Sys2Proof.Claims

open Sys2Proof.Machine

/-- Settles O52: each of the three things a step can do to ENC's cache keeps it self-indexed. -/
theorem everyStepKeepsEncCacheSelfIndexed : Obligations.EveryStepKeepsEncCacheSelfIndexed := by
  intro s t hs h
  rcases step_enc_cache h with hsame | ⟨px, hwrite⟩ | hclear
  · exact hs.of_cache_eq hsame
  · exact hs.of_cacheWrite hwrite
  · exact .of_cache_clear hclear

end Sys2Proof.Claims
end

