-- ==== Sys2Proof/Proofs/Serdes.lean ====
section
/-! PROOF. The big-endian codec on a buffer (spec/41_serdes.md R140 to R142): `read32` undoes `write32`, and the write's bytes and
frame. -/

namespace Sys2Proof

/-- Byte `k` of a 32-bit value, counted from the most significant one, is its base-256 digit of weight `256 ^ (3 - k)`. -/
theorem be32_getElem?_toNat (v : Word) {k : Nat} (hk : k < 4) :
    (be32 v)[k]?.map BitVec.toNat = some (v.toNat / 256 ^ (3 - k) % 256) := by
  have hbyte : (be32 v)[k]? = some (v.extractLsb' (8 * (3 - k)) 8) := by
    match k, hk with
    | 0, _ | 1, _ | 2, _ | 3, _ => rfl
  have hweight : 2 ^ (8 * (3 - k)) = 256 ^ (3 - k) := pow_mul 2 8 (3 - k)
  rw [hbyte, Option.map_some, BitVec.extractLsb'_toNat, Nat.shiftRight_eq_div_pow, hweight]

end Sys2Proof

namespace Sys2Proof.Machine

/-- What a byte buffer reads as after `write32`: the value's bytes in the four places written, the old bytes elsewhere. -/
theorem read_write32 (m : Memory Byte) (addr : Nat) (v : Word) (a : Nat) :
    Memory.read (write32 m addr v) a =
      if addr ≤ a ∧ a < addr + 4 then (be32 v)[a - addr]? else Memory.read m a :=
  Memory.read_writeAll (be32 v) m addr a

/-- The multi-byte read of the four bytes `write32` wrote is the value as a number. -/
theorem memRead_write32 (m : Memory Byte) (addr : Nat) (v : Word) :
    memRead (write32 m addr v) addr 4 = some v.toNat := by
  rw [← beNat_be32 v]
  exact (memRead_eq_iff rfl).mpr (Memory.readAll_writeAll (be32 v) m addr)

theorem read32_write32 (m : Memory Byte) (addr : Nat) (v : Word) : read32 (write32 m addr v) addr = some v := by
  rw [read32, memRead_write32, Option.map_some, BitVec.ofNat_toNat, BitVec.setWidth_eq]

end Sys2Proof.Machine

namespace Sys2Proof.Claims

open Sys2Proof.Machine

/-- Settles O8: the bytes written are the value's base-256 digits, by place: inside the four written or outside. -/
theorem read32UndoesWrite32 : Obligations.Read32UndoesWrite32 := by
  intro m addr v
  refine ⟨read32_write32 m addr v, fun k hk => ?_, fun a ha => ?_⟩
  · rw [read_write32, if_pos (by omega), Nat.add_sub_cancel_left, be32_getElem?_toNat v hk]
  · rw [read_write32, if_neg (by omega)]

end Sys2Proof.Claims
end

