-- ==== Sys2Proof/Proofs/EncAlphaOpaque.lean ====
section
/-! PROOF. In a 3-channel pass of ENC every pixel is opaque (spec/42_encoder.md R164, R177), so RGBA is never chosen (R173). -/

namespace Sys2Proof.Machine

/-! ### RGBA is chosen on a changed alpha only -/

theorem selectDelta_ne_rgba (px : Pixel) (dr dg db : Int) (r g b a : Byte) :
    selectDelta px dr dg db ≠ .rgba r g b a := by
  unfold selectDelta
  split_ifs <;> exact nofun

/-- R173: with an unchanged alpha the choice is INDEX, or one of the three opcodes that copy it. -/
theorem selectOpcode_ne_rgba_of_alpha_eq (mode : DeltaArith) (cache : Cache) {prev px : Pixel} (ha : px.a = prev.a)
    (r g b a : Byte) : selectOpcode mode cache prev px ≠ .rgba r g b a := by
  unfold selectOpcode
  split_ifs
  · exact nofun
  · exact selectDelta_ne_rgba px _ _ _ r g b a

theorem implicitAlpha_alpha_of_three {c : Byte} (hc : c = 3) (p : Pixel) : (implicitAlpha c p).a = 255 := by
  simp [implicitAlpha, hc]

/-- R177: with 3 channels both the pixel and the previous one are opaque. -/
theorem EncAlphaOpaque.selectOpcode_ne_rgba {s : State} (hs : EncAlphaOpaque s) (hp : s.enc.phase = .pix)
    (hc : s.enc.cfgChannels = 3) (p : Pixel) (r g b a : Byte) :
    selectOpcode s.deltaArith s.enc.cache s.enc.prev (implicitAlpha s.enc.cfgChannels p) ≠ .rgba r g b a := by
  obtain ⟨-, hopaque⟩ := hs hp
  exact selectOpcode_ne_rgba_of_alpha_eq _ _ ((implicitAlpha_alpha_of_three hc p).trans (hopaque hc).symm) r g b a

/-! ### Every move keeps the previous pixel opaque -/

theorem channelsLegal_iff (c : Byte) : channelsLegal c = true ↔ c = 3 ∨ c = 4 := by
  simp only [channelsLegal, Bool.or_eq_true, beq_iff_eq]

/-- What a pixel step leaves of the pass, and that it counts the pixel (R164). -/
theorem encPixelOf_pass {p : Pixel} {s t : State} (h : encPixelOf p s = .next t) :
    t.enc.phase = s.enc.phase ∧ t.enc.cfgChannels = s.enc.cfgChannels ∧ t.enc.i = s.enc.i + 1 := by
  rcases encPixelOf_cases h with ⟨_, _, _, rfl⟩ | ⟨_, _, rfl⟩ | ⟨_, _, rfl⟩ <;> simp

/-- After a pixel step the previous pixel is the pixel encoded: written by R174, or equal to it already (R165). -/
theorem encPixelOf_prev {p : Pixel} {s t : State} (h : encPixelOf p s = .next t) :
    t.enc.prev = implicitAlpha s.enc.cfgChannels p := by
  rcases encPixelOf_cases h with ⟨heq, _, _, rfl⟩ | ⟨heq, _, rfl⟩ | ⟨_, _, rfl⟩
  · simpa using heq.symm
  · simpa using heq.symm
  · simp

theorem EncAlphaOpaque.of_enc_eq {s t : State} (h : EncAlphaOpaque s) (he : t.enc = s.enc) : EncAlphaOpaque t := by
  unfold EncAlphaOpaque at h ⊢
  rwa [he]

/-- Outside a pass nothing is asked. -/
theorem EncAlphaOpaque.of_phase_ne {t : State} (hp : t.enc.phase ≠ .pix) : EncAlphaOpaque t :=
  fun h => absurd h hp

theorem encPixelOf_keeps_encAlphaOpaque {p : Pixel} {s t : State} (hs : EncAlphaOpaque s)
    (h : encPixelOf p s = .next t) : EncAlphaOpaque t := by
  obtain ⟨hphase, hchannels, -⟩ := encPixelOf_pass h
  intro hp
  obtain ⟨hlegal, -⟩ := hs (hphase ▸ hp)
  rw [hchannels, encPixelOf_prev h]
  exact ⟨hlegal, fun hc => implicitAlpha_alpha_of_three hc p⟩

theorem encMove_keeps_encAlphaOpaque {s t : State} (hs : EncAlphaOpaque s) (h : encMove s = .next t) :
    EncAlphaOpaque t := by
  rcases encMove_cases h with ⟨rfl, _⟩ | ⟨_, _, _, _, hpx⟩ | ⟨_, _, hfin⟩
  · exact hs
  · exact encPixelOf_keeps_encAlphaOpaque hs hpx
  · obtain ⟨-, rfl⟩ := encFinish_next hfin
    exact .of_phase_ne (by simp)

/-- A pass begins with 3 or 4 channels (R162) and the opaque seed (R30). -/
theorem encStart_encAlphaOpaque {s t : State} (h : encStart s = .next t) : EncAlphaOpaque t := by
  rcases encStart_next h with ⟨_, rfl⟩ | ⟨hlegal, _, _, _, rfl⟩
  · exact .of_phase_ne (by simp)
  · exact fun _ => ⟨by simpa [encBegin] using (channelsLegal_iff _).mp hlegal, fun _ => by simp [encBegin, Pixel.seed]⟩

theorem hostMove_keeps_encAlphaOpaque {s t : State} (hs : EncAlphaOpaque s) (h : hostMove s = .next t) :
    EncAlphaOpaque t := by
  rcases hostMove_enc h with he | ⟨hp, _, _, _, _, he⟩ | ⟨_, _, _, _, hstart⟩ | he
  · exact hs.of_enc_eq he
  · exact .of_phase_ne (by simpa [he] using hp)
  · exact encStart_encAlphaOpaque hstart
  · exact .of_phase_ne (by simp [he, Enc.reset])

end Sys2Proof.Machine

namespace Sys2Proof.Claims

open Sys2Proof.Machine

/-- Settles O53: the previous pixel is the seed or the pixel encoded last, both opaque with 3 channels. -/
theorem threeChannelPassNeverEmitsRgba : Obligations.ThreeChannelPassNeverEmitsRgba := by
  refine ⟨fun s t hs h => ?_, fun s p r g b a hs hp hc => hs.selectOpcode_ne_rgba hp hc p r g b a⟩
  have hpop : EncAlphaOpaque (popTurn s) := hs.of_enc_eq rfl
  rcases step_cases h with henc | hdec | hhost
  · exact encMove_keeps_encAlphaOpaque hpop henc
  · exact hpop.of_enc_eq (decMove_enc hdec)
  · exact hostMove_keeps_encAlphaOpaque hpop hhost

end Sys2Proof.Claims
end

