-- ==== Sys2Proof/Proofs/OutputBounded.lean ====
section
/-! PROOF. ENC's output stays within its bound (spec/42_encoder.md R179). A pixel step raises what is written, a pending run's
byte counted, by at most the longest opcode the pass can choose: 5 bytes, and 4 with 3 channels, where RGBA is not chosen. -/

namespace Sys2Proof

theorem encode_length (i : Instr) : (encode i).length = i.length := by
  cases i <;> rfl

theorem Instr.length_le_five (i : Instr) : i.length ≤ 5 := by
  cases i <;> simp [Instr.length]

/-- Only RGBA takes 5 bytes (R90). -/
theorem Instr.length_le_four {i : Instr} (h : ∀ r g b a, i ≠ .rgba r g b a) : i.length ≤ 4 := by
  cases i with
  | rgba r g b a => exact absurd rfl (h r g b a)
  | rgb | index | diff | luma | run => simp [Instr.length]

end Sys2Proof

namespace Sys2Proof.Machine

/-! ### The two bounds of R179 as one -/

/-- The longest opcode ENC chooses for an image of so many channels. -/
def bytesPerPixel (channels : Byte) : Nat := if channels = 3 then 4 else 5

theorem one_le_bytesPerPixel (c : Byte) : 1 ≤ bytesPerPixel c := by
  unfold bytesPerPixel
  split_ifs <;> decide

/-- The bytes in `OUT` and the byte a pending run will cost. -/
def bytesOwed (e : Enc) : Nat := e.outlen.toNat + pendingRunByte e

theorem bytesOwed_of_run_zero {e : Enc} (h : e.run = 0) : bytesOwed e = e.outlen.toNat := by
  simp [bytesOwed, pendingRunByte, h]

/-- The bound for 3 channels is the smaller of the two, so the bound of the pass's own channel count is both. -/
theorem outputBounded_iff (s : State) :
    OutputBounded s ↔
      (s.enc.phase = .pix → bytesOwed s.enc ≤ 14 + bytesPerPixel s.enc.cfgChannels * s.enc.i.toNat) ∧
      (s.enc.phase = .done → s.enc.outlen.toNat ≤ 22 + bytesPerPixel s.enc.cfgChannels * s.enc.npix.toNat) := by
  have hboth (base k x : Nat) :
      (x ≤ base + 5 * k ∧ (s.enc.cfgChannels = 3 → x ≤ base + 4 * k)) ↔
        x ≤ base + bytesPerPixel s.enc.cfgChannels * k := by
    unfold bytesPerPixel
    split_ifs with hc
    · simp only [hc, true_implies]; omega
    · simp only [hc, false_implies, and_true]
  unfold OutputBounded bytesOwed
  rw [hboth, hboth]

theorem OutputBounded.of_enc_eq {s t : State} (h : OutputBounded s) (he : t.enc = s.enc) : OutputBounded t := by
  unfold OutputBounded at h ⊢
  rwa [he]

/-- In IDLE and ERROR nothing is asked of the output. -/
theorem OutputBounded.of_phase_ne {t : State} (hpix : t.enc.phase ≠ .pix) (hdone : t.enc.phase ≠ .done) :
    OutputBounded t :=
  ⟨fun h => absurd h hpix, fun h => absurd h hdone⟩

/-- In a pass only the first bound is asked. -/
theorem OutputBounded.of_pass {t : State} (hp : t.enc.phase = .pix)
    (h : bytesOwed t.enc ≤ 14 + bytesPerPixel t.enc.cfgChannels * t.enc.i.toNat) : OutputBounded t :=
  (outputBounded_iff t).mpr ⟨fun _ => h, fun hdone => by simp [hp] at hdone⟩

/-! ### What a pixel step costs -/

theorem flushBytes_length (e : Enc) : (flushBytes e.run).length = pendingRunByte e := by
  unfold flushBytes pendingRunByte
  split_ifs <;> rfl

theorem EncAlphaOpaque.selectOpcode_length_le {s : State} (hs : EncAlphaOpaque s) (hp : s.enc.phase = .pix) (p : Pixel) :
    (selectOpcode s.deltaArith s.enc.cache s.enc.prev (implicitAlpha s.enc.cfgChannels p)).length ≤
      bytesPerPixel s.enc.cfgChannels := by
  by_cases hc : s.enc.cfgChannels = 3
  · rw [bytesPerPixel, if_pos hc]
    exact Instr.length_le_four (hs.selectOpcode_ne_rgba hp hc p)
  · rw [bytesPerPixel, if_neg hc]
    exact Instr.length_le_five _

/-- Emitting with no run pending leaves owed what was written and the new bytes. -/
theorem bytesOwed_emitAll {bs : List Byte} {s : State} (hrun : s.enc.run = 0)
    (hroom : s.enc.outlen.toNat + bs.length ≤ s.outRoom.toNat) :
    bytesOwed (emitAll bs s).enc = s.enc.outlen.toNat + bs.length := by
  rw [bytesOwed_of_run_zero (by simpa using hrun), emitAll_outlen_toNat hroom]

theorem pendingRunByte_le_one (e : Enc) : pendingRunByte e ≤ 1 := by
  unfold pendingRunByte
  split_ifs <;> decide

/-- A flushed run was owed but for its last pixel, a growing run owes its one byte, and a literal pays its own opcode. -/
theorem encPixelOf_bytesOwed_le {p : Pixel} {s t : State} (hs : EncAlphaOpaque s) (hp : s.enc.phase = .pix)
    (h : encPixelOf p s = .next t) : bytesOwed t.enc ≤ bytesOwed s.enc + bytesPerPixel s.enc.cfgChannels := by
  have hone := one_le_bytesPerPixel s.enc.cfgChannels
  rcases encPixelOf_cases h with ⟨_, _, hroom, rfl⟩ | ⟨_, _, rfl⟩ | ⟨_, hroom, rfl⟩
  case inl =>
    rw [bytesOwed_emitAll rfl hroom]
    simp only [encode_length, Instr.length, encSetRun_enc_outlen, encTake_enc_outlen, bytesOwed]
    omega
  case inr.inl =>
    have hpending := pendingRunByte_le_one (encSetRun (s.enc.run + 1) (encTake s)).enc
    simp only [bytesOwed, encSetRun_enc_outlen, encTake_enc_outlen] at hpending ⊢
    omega
  case inr.inr =>
    have hopcode := hs.selectOpcode_length_le hp p
    rw [bytesOwed_emitAll (by simp) (by simpa using hroom)]
    simp only [List.length_append, flushBytes_length, encode_length, encRecord_enc_outlen, encSetRun_enc_outlen,
      encTake_enc_outlen, bytesOwed]
    omega

/-! ### Every move keeps the bound -/

theorem encPixelOf_keeps_outputBounded {p : Pixel} {s t : State} (hs : OutputBounded s) (halpha : EncAlphaOpaque s)
    (hp : s.enc.phase = .pix) (hi : s.enc.i.toNat < s.enc.npix.toNat) (h : encPixelOf p s = .next t) :
    OutputBounded t := by
  obtain ⟨hphase, hchannels, hcount⟩ := encPixelOf_pass h
  have howed := ((outputBounded_iff s).mp hs).1 hp
  refine .of_pass (hphase.trans hp) ?_
  calc bytesOwed t.enc
    _ ≤ bytesOwed s.enc + bytesPerPixel s.enc.cfgChannels := encPixelOf_bytesOwed_le halpha hp h
    _ ≤ 14 + bytesPerPixel s.enc.cfgChannels * s.enc.i.toNat + bytesPerPixel s.enc.cfgChannels := by omega
    _ = 14 + bytesPerPixel t.enc.cfgChannels * t.enc.i.toNat := by
      rw [hchannels, hcount, toNat_succ_of_lt hi, Nat.mul_succ, Nat.add_assoc]

/-- The finish step adds the 8 bytes of the end marker, and every pixel is taken then. -/
theorem encFinish_keeps_outputBounded {s t : State} (hs : OutputBounded s) (hp : s.enc.phase = .pix)
    (hi : s.enc.i = s.enc.npix) (h : encFinish s = .next t) : OutputBounded t := by
  have howed := ((outputBounded_iff s).mp hs).1 hp
  obtain ⟨hroom, rfl⟩ := encFinish_next h
  have hlen := emitAll_outlen_toNat (bs := Config.endMarker) (s := { s with enc := { s.enc with phase := .done } }) hroom
  refine (outputBounded_iff _).mpr ⟨by simp, fun _ => ?_⟩
  rw [hlen, emitAll_enc_cfgChannels, emitAll_enc_npix]
  simp only [hi, bytesOwed, Config.endMarker, List.length_cons, List.length_nil] at howed ⊢
  omega

theorem encMove_keeps_outputBounded {s t : State} (hs : OutputBounded s) (halpha : EncAlphaOpaque s)
    (h : encMove s = .next t) : OutputBounded t := by
  rcases encMove_cases h with ⟨rfl, _⟩ | ⟨hp, hi, _, _, hpx⟩ | ⟨hp, hi, hfin⟩
  · exact hs
  · exact encPixelOf_keeps_outputBounded hs halpha hp hi hpx
  · exact encFinish_keeps_outputBounded hs hp hi hfin

/-- A pass begins with the 14 header bytes and no run pending (R163). -/
theorem encStart_outputBounded {s t : State} (h : encStart s = .next t) : OutputBounded t := by
  rcases encStart_next h with ⟨_, rfl⟩ | ⟨_, _, _, _, rfl⟩
  · exact .of_phase_ne (by simp) (by simp)
  · refine .of_pass (by simp) ?_
    rw [bytesOwed_of_run_zero (by simp [encBegin]), emitAll_enc_outlen]
    exact Nat.le_add_right 14 _

theorem hostMove_keeps_outputBounded {s t : State} (hs : OutputBounded s) (h : hostMove s = .next t) :
    OutputBounded t := by
  rcases hostMove_enc h with he | ⟨_, _, _, _, _, he⟩ | ⟨_, _, _, _, hstart⟩ | he
  · exact hs.of_enc_eq he
  · unfold OutputBounded at hs ⊢
    rw [he]
    exact hs
  · exact encStart_outputBounded hstart
  · exact .of_phase_ne (by simp [he, Enc.reset]) (by simp [he, Enc.reset])

end Sys2Proof.Machine

namespace Sys2Proof.Claims

open Sys2Proof.Machine

/-- Settles O56: a pixel step owes at most one opcode more, and the finish step writes the marker. -/
theorem everyStepKeepsOutputBounded : Obligations.EveryStepKeepsOutputBounded := by
  intro s t _ halpha hs h
  have hpop : OutputBounded (popTurn s) := hs.of_enc_eq rfl
  rcases step_cases h with henc | hdec | hhost
  · exact encMove_keeps_outputBounded hpop (halpha.of_enc_eq rfl) henc
  · exact hpop.of_enc_eq (decMove_enc hdec)
  · exact hostMove_keeps_outputBounded hpop hhost

end Sys2Proof.Claims
end

