-- ==== Sys2Proof/Proofs/EncDeltas.lean ====
section
/-! PROOF. ENC's deltas (spec/42_encoder.md R169), the choice of R180 they decide, and that DEC's wrapping sum (R210) undoes
them in both modes. -/

namespace Sys2Proof.Machine

/-! ### The delta of a channel -/

/-- The signed reading of a byte is the number of its residue class in [-128, 127] (R7). -/
theorem s8_eq (v : Int) : s8 v = (v + 128) % 256 - 128 := by
  rw [s8, trunc8, BitVec.toInt_ofInt, Int.bmod_def]
  omega

theorem channelDelta_eq_specDelta (mode : DeltaArith) (x y : Byte) :
    channelDelta mode x y = Claims.specDelta mode x y := by
  cases mode with
  | int => rfl
  | wrap8 => exact s8_eq _

/-- Whatever the mode, a delta is the difference modulo 256. -/
theorem channelDelta_emod (mode : DeltaArith) (x y : Byte) :
    channelDelta mode x y % 256 = ((x.toNat : Int) - y.toNat) % 256 := by
  cases mode with
  | int => rfl
  | wrap8 => rw [channelDelta, s8_eq]; omega

/-- DEC's sum wraps modulo 256 (R210), so of a delta only its residue counts. -/
theorem addChannel_channelDelta (mode : DeltaArith) (x y : Byte) : addChannel y (channelDelta mode x y) = x := by
  have hmod := channelDelta_emod mode x y
  have hx := x.isLt
  apply BitVec.eq_of_toNat_eq
  rw [addChannel, trunc8, BitVec.toNat_ofInt]
  omega

/-! ### The choice, case by case -/

theorem diffFits_iff (dr dg db : Int) :
    diffFits dr dg db = true ↔ -2 ≤ dr ∧ dr ≤ 1 ∧ -2 ≤ dg ∧ dg ≤ 1 ∧ -2 ≤ db ∧ db ≤ 1 :=
  Instr.wf_diff_iff dr dg db

theorem lumaFits_iff (dr dg db : Int) :
    lumaFits dr dg db = true ↔ -32 ≤ dg ∧ dg ≤ 31 ∧ -8 ≤ dr - dg ∧ dr - dg ≤ 7 ∧ -8 ≤ db - dg ∧ db - dg ≤ 7 :=
  Instr.wf_luma_iff dg (dr - dg) (db - dg)

section Choice

variable {mode : DeltaArith} {cache : Cache} {prev px : Pixel}

theorem selectOpcode_of_hit (hhit : cacheRead cache (pixelHash px) = px) :
    selectOpcode mode cache prev px = .index (pixelHash px) := if_pos hhit

theorem selectOpcode_of_alpha_ne (hmiss : cacheRead cache (pixelHash px) ≠ px) (ha : px.a ≠ prev.a) :
    selectOpcode mode cache prev px = .rgba px.r px.g px.b px.a := by
  rw [selectOpcode, if_neg hmiss, if_neg ha]

theorem selectOpcode_of_alpha_eq (hmiss : cacheRead cache (pixelHash px) ≠ px) (ha : px.a = prev.a) :
    selectOpcode mode cache prev px =
      selectDelta px (channelDelta mode px.r prev.r) (channelDelta mode px.g prev.g) (channelDelta mode px.b prev.b) := by
  rw [selectOpcode, if_neg hmiss, if_pos ha]

end Choice

/-- The model's choice is the one R180's priority gives. -/
theorem selectOpcode_chosen (mode : DeltaArith) (cache : Cache) (prev px : Pixel) :
    Claims.Chosen mode cache prev px (selectOpcode mode cache prev px) := by
  unfold Claims.Chosen
  simp only [← channelDelta_eq_specDelta, ← diffFits_iff, ← lumaFits_iff]
  refine ⟨selectOpcode_of_hit, selectOpcode_of_alpha_ne, fun hmiss ha hsmall => ?_, fun hmiss ha hsmall hmedium => ?_,
    fun hmiss ha hsmall hmedium => ?_⟩ <;> rw [selectOpcode_of_alpha_eq hmiss ha, selectDelta]
  · rw [if_pos hsmall]
  · rw [if_neg hsmall, if_pos hmedium]
  · rw [if_neg hsmall, if_neg hmedium]

/-! ### The choice rebuilds the pixel -/

/-- R206 to R208: with alpha unchanged, DIFF, LUMA and RGB give back the pixel whose deltas they carry. -/
theorem yieldedPixel_selectDelta {px : Pixel} {d : Dec} {dr dg db : Int} (ha : px.a = d.prev.a)
    (hr : addChannel d.prev.r dr = px.r) (hg : addChannel d.prev.g dg = px.g) (hb : addChannel d.prev.b db = px.b) :
    yieldedPixel (selectDelta px dr dg db) d = px := by
  have hsum : addDeltas d.prev dr dg db = px := by rw [addDeltas, hr, hg, hb, ← ha]
  unfold selectDelta
  split_ifs
  · exact hsum
  · rw [yieldedPixel, add_sub_cancel, add_sub_cancel, hsum]
  · rw [yieldedPixel, ← ha]

theorem yieldedPixel_selectOpcode (mode : DeltaArith) (cache : Cache) (px : Pixel) (d : Dec)
    (hcache : cacheRead cache (pixelHash px) = px → cacheRead d.cache (pixelHash px) = px) :
    yieldedPixel (selectOpcode mode cache d.prev px) d = px := by
  by_cases hhit : cacheRead cache (pixelHash px) = px
  · rw [selectOpcode_of_hit hhit]
    exact hcache hhit
  by_cases ha : px.a = d.prev.a
  · rw [selectOpcode_of_alpha_eq hhit ha]
    exact yieldedPixel_selectDelta ha (addChannel_channelDelta ..) (addChannel_channelDelta ..)
      (addChannel_channelDelta ..)
  · rw [selectOpcode_of_alpha_ne hhit ha]
    rfl

end Sys2Proof.Machine

namespace Sys2Proof.Claims

open Sys2Proof.Machine

/-- Settles O30: the signed byte of WRAP8 is the difference's residue in [-128, 127]. -/
theorem deltaIsPixelMinusPrevious : Obligations.DeltaIsPixelMinusPrevious := by
  intro x y
  have hwrap : channelDelta .wrap8 x y = _ := s8_eq _
  exact ⟨rfl, by omega, by omega, channelDelta_emod .wrap8 x y⟩

/-- Settles O32: by the case of the choice; the delta opcodes add back what was taken off, modulo 256. -/
theorem chosenOpcodeRebuildsPixel : Obligations.ChosenOpcodeRebuildsPixel :=
  yieldedPixel_selectOpcode

end Sys2Proof.Claims
end

