-- ==== Sys2Proof/Proofs/EncEmits.lean ====
section
/-! PROOF. ENC's pixel and finish steps as the bytes they emit (spec/42_encoder.md R164 to R176): one equation for each step,
and what emitting does to `OUT`. -/

namespace Sys2Proof

/-- The RUN byte is `0xC0` plus the length less 1 (R95). -/
theorem encode_run {len : BitVec 6} (h : len.toNat ≤ 61) :
    encode (.run (len.toNat + 1)) = [BitVec.ofNat 8 (0xC0 + len.toNat)] := by
  rw [(Format.run len h).encode_eq, List.cons.injEq]
  refine ⟨BitVec.eq_of_toNat_eq ?_, rfl⟩
  rw [Machine.toNat_append_eq_add, BitVec.toNat_ofNat, BitVec.toNat_ofNat]
  omega

end Sys2Proof

namespace Sys2Proof.Machine

/-! ### Emitting: room or none -/

/-- Emitting is all or nothing (R282). -/
theorem emitBytes_of_no_room {bs : List Byte} {s : State} (h : s.outRoom.toNat < s.enc.outlen.toNat + bs.length) :
    emitBytes bs s = .fault .outRoom := by
  rw [emitBytes, outHasRoom, if_neg (by simpa using h)]

theorem emitBytes_eq_fault_iff (bs : List Byte) (s : State) :
    emitBytes bs s = .fault .outRoom ↔ s.outRoom.toNat < s.enc.outlen.toNat + bs.length := by
  refine ⟨fun h => ?_, emitBytes_of_no_room⟩
  by_contra hroom
  rw [emitBytes_of_room (by omega)] at h
  cases h

/-- Bytes emitted from a state that writes where `s` does are emitted from `s`. -/
theorem emitted_emitAll {bs : List Byte} {s u : State} (hlen : u.enc.outlen = s.enc.outlen) (hbuf : u.outBuf = s.outBuf)
    (hroom : u.enc.outlen.toNat + bs.length ≤ u.outRoom.toNat) : Claims.Emitted bs s (emitAll bs u) := by
  have hbound := u.outRoom.isLt
  unfold Claims.Emitted
  rw [emitAll_outlen_toNat hroom, emitAll_outBuf bs u (by omega), hlen, hbuf]
  refine ⟨rfl, fun k hk => ?_, fun a ha => ?_⟩
  · rw [Memory.read_writeAll, if_pos (by omega), Nat.add_sub_cancel_left]
  · rw [Memory.read_writeAll, if_neg (by omega)]

/-- With room a step emits its bytes, and beside them changes what its update `u` of `s` changed. -/
theorem emitBytes_emitted {bs : List Byte} {s u : State} (hlen : u.enc.outlen = s.enc.outlen) (hbuf : u.outBuf = s.outBuf)
    (hspace : u.outRoom = s.outRoom) (hroom : s.enc.outlen.toNat + bs.length ≤ s.outRoom.toNat) :
    ∃ t, emitBytes bs u = .next t ∧ Claims.Emitted bs s t ∧
      t = { u with outBuf := t.outBuf, enc := { u.enc with outlen := t.enc.outlen } } := by
  rw [← hlen, ← hspace] at hroom
  exact ⟨emitAll bs u, emitBytes_of_room hroom, emitted_emitAll hlen hbuf hroom, emitAll_eq bs u⟩

/-! ### The pixel step -/

/-- What a pixel step changes for a pixel in a run, beside the bytes it emits (R164, R165). -/
theorem encSetRun_encTake (r : BitVec 6) (s : State) :
    encSetRun r (encTake s) = { s with enc := { s.enc with i := s.enc.i + 1, run := r } } := by
  rw [encSetRun, encTake]

/-- What a pixel step changes for any other pixel, beside the bytes it emits (R164, R174). -/
theorem encRecord_encSetRun_encTake (px : Pixel) (r : BitVec 6) (s : State) :
    encRecord px (encSetRun r (encTake s)) =
      { s with enc := { s.enc with i := s.enc.i + 1, run := r, cache := cacheWrite s.enc.cache px, prev := px } } := by
  rw [encRecord, encSetRun, encTake]

theorem implicitAlpha_eq_asEncoded (c : Byte) (p : Pixel) : implicitAlpha c p = Claims.asEncoded c p := rfl

/-- The end of a run in R166's terms: it is the 62nd pixel, or the last of the image. -/
theorem run_ends_iff {e : Enc} (hi : e.i.toNat < e.npix.toNat) :
    (e.run + 1 = 62 ∨ (e.i == e.npix - 1) = true) ↔ (e.run.toNat = 61 ∨ e.i.toNat + 1 = e.npix.toNat) := by
  rw [beq_iff_eq]
  exact or_congr (by bv_omega) (by bv_omega)

/-- A pixel equal to the previous one (R165, R166, R175). -/
theorem encMove_absorb {s : State} {p : Pixel} (hp : s.enc.phase = .pix) (hi : s.enc.i.toNat < s.enc.npix.toNat)
    (hrun : s.enc.run.toNat ≤ 61) (hread : Memory.read s.pixIn s.enc.i.toNat = some p)
    (heq : implicitAlpha s.enc.cfgChannels p = s.enc.prev) :
    encMove s =
      if s.enc.run.toNat = 61 ∨ s.enc.i.toNat + 1 = s.enc.npix.toNat then
        emitBytes [BitVec.ofNat 8 (0xC0 + s.enc.run.toNat)] (encSetRun 0 (encTake s))
      else .next (encSetRun (s.enc.run + 1) (encTake s)) := by
  have hsucc : (s.enc.run + 1).toNat = s.enc.run.toNat + 1 := by bv_omega
  rw [encMove_pixel hp hi hread, encPixelOf, if_pos heq, encAbsorb, encTake_enc_run, hsucc, encode_run hrun]
  exact if_congr (run_ends_iff hi) rfl rfl

/-- A pixel that differs from the previous one (R167 to R174). -/
theorem encMove_literal {s : State} {p : Pixel} (hp : s.enc.phase = .pix) (hi : s.enc.i.toNat < s.enc.npix.toNat)
    (hread : Memory.read s.pixIn s.enc.i.toNat = some p) (hne : implicitAlpha s.enc.cfgChannels p ≠ s.enc.prev) :
    encMove s =
      emitBytes (flushBytes s.enc.run ++
          encode (selectOpcode s.deltaArith s.enc.cache s.enc.prev (implicitAlpha s.enc.cfgChannels p)))
        (encRecord (implicitAlpha s.enc.cfgChannels p) (encSetRun 0 (encTake s))) := by
  rw [encMove_pixel hp hi hread, encPixelOf, if_neg hne]
  rfl

/-- What a pending run leaves to emit is its RUN byte (R167). -/
theorem flushBytes_eq_pendingBytes {e : Enc} (h : e.run.toNat ≤ 62) : flushBytes e.run = Claims.pendingBytes e := by
  unfold flushBytes Claims.pendingBytes
  split_ifs with hrun
  · rfl
  · have hpred : (e.run - 1).toNat = e.run.toNat - 1 := by bv_omega
    have hbyte := encode_run (len := e.run - 1) (by omega)
    rwa [hpred, Nat.sub_add_cancel (by bv_omega)] at hbyte

end Sys2Proof.Machine

namespace Sys2Proof.Claims

open Sys2Proof.Machine

/-- Settles O28: whether the run ends decides between growing it and emitting its byte. -/
theorem runPixelIsAbsorbedOrFlushed : Obligations.RunPixelIsAbsorbedOrFlushed := by
  intro s p hp hi hrun hread heq
  rw [encMove_absorb hp hi hrun hread heq, encSetRun_encTake, encSetRun_encTake]
  refine ⟨fun hshort hmore => ?_, fun hends hroom => ?_⟩
  · rw [if_neg (by omega)]
  · rw [if_pos hends]
    exact emitBytes_emitted rfl rfl rfl hroom

/-- Settles O29: the opcode is the model's choice, which meets the priority; the bytes then have room or not. -/
theorem literalPixelEmitsChosenOpcode : Obligations.LiteralPixelEmitsChosenOpcode := by
  rintro s p px hp hi hrun hread rfl hne
  refine ⟨_, selectOpcode_chosen s.deltaArith s.enc.cache s.enc.prev (asEncoded s.enc.cfgChannels p), ?_⟩
  rw [encMove_literal hp hi hread hne, flushBytes_eq_pendingBytes hrun, implicitAlpha_eq_asEncoded]
  refine ⟨fun hroom => ?_, fun hfull => emitBytes_of_no_room (by simpa using hfull)⟩
  obtain ⟨t, hnext, hemitted, ht⟩ := emitBytes_emitted
    (u := encRecord (asEncoded s.enc.cfgChannels p) (encSetRun 0 (encTake s))) (by simp) (by simp) (by simp) hroom
  rw [encRecord_encSetRun_encTake] at ht
  have hprev : t.enc.prev = asEncoded s.enc.cfgChannels p := by rw [ht]
  have hcache : t.enc.cache = cacheWrite s.enc.cache (asEncoded s.enc.cfgChannels p) := by rw [ht]
  refine ⟨t, hnext, hemitted, hprev, ?_, fun k hk => ?_, ?_⟩
  · rw [hcache, cacheRead_cacheWrite_hash]
  · rw [hcache, cacheRead_cacheWrite_of_ne _ _ hk]
  · rw [hprev, hcache]
    exact ht

/-- Settles O33: the finish step is an emission of the marker after the phase is set. -/
theorem encFinishWritesMarker : Obligations.EncFinishWritesMarker := by
  intro s hp hi hroom
  rw [encMove_finish hp hi]
  exact emitBytes_emitted (u := { s with enc := { s.enc with phase := .done } }) rfl rfl rfl hroom

end Sys2Proof.Claims
end

