-- ==== Sys2Proof/Proofs/EncStart.lean ====
section
/-! PROOF. ENC's start step (spec/42_encoder.md R161 to R163) and the empty image (R178). -/

namespace Sys2Proof.Machine

/-! ### The start step, when its condition is known -/

theorem encTooLarge_eq_false_iff (npix : Index) : encTooLarge npix = false ↔ 22 + 5 * npix.toNat < 2 ^ 64 := by
  rw [encTooLarge, decide_eq_false_iff_not, not_le]

/-- An illegal channel count ends the start before any byte (R162). -/
theorem encStart_of_illegal {s : State} (h : channelsLegal s.enc.channels = false) :
    encStart s = .next (raiseError .enc .channel 0 (encBegin s)) :=
  if_neg (Bool.not_eq_true _ ▸ h)

/-- A legal start that is not refused is the emission of the header in a fresh pass (R161, R163). -/
theorem encStart_of_launch {s : State} (hlegal : channelsLegal s.enc.channels = true)
    (hsize : encTooLarge (encBegin s).enc.npix = false)
    (hinput : Memory.present s.pixIn (encBegin s).enc.npix.toNat = true) :
    encStart s = emitBytes (headerBytes s.enc.width s.enc.height s.enc.channels s.enc.colorspace)
      { encBegin s with enc := { (encBegin s).enc with phase := .pix } } :=
  (if_pos hlegal).trans ((if_neg (Bool.not_eq_true _ ▸ hsize)).trans (if_pos hinput))

theorem headerBytes_length (w h : Word) (c cs : Byte) : (headerBytes w h c cs).length = 14 := rfl

/-! ### The stream in two parts -/

/-- Two runs of elements, one where the other ends, read as one. -/
theorem Memory.readAll_append {α : Type} {m : Memory α} {a k n : Nat} {xs ys : List α}
    (hxs : Memory.readAll m a k = some xs) (hys : Memory.readAll m (a + k) n = some ys) :
    Memory.readAll m a (k + n) = some (xs ++ ys) := by
  rw [readAll_eq_some_iff] at hxs hys ⊢
  obtain ⟨rfl, hxs⟩ := hxs
  obtain ⟨rfl, hys⟩ := hys
  refine ⟨List.length_append, fun j hj => ?_⟩
  by_cases hleft : j < xs.length
  · rw [hxs j hleft, List.getElem?_append_left hleft]
  · obtain ⟨d, rfl⟩ := Nat.exists_eq_add_of_le (not_lt.mp hleft)
    rw [← Nat.add_assoc, hys d (by omega), List.getElem?_append_right (by omega), Nat.add_sub_cancel_left]

end Sys2Proof.Machine

namespace Sys2Proof.Claims

open Sys2Proof.Machine

/-- Emitted bytes read back. -/
theorem Emitted.readAll {bs : List Byte} {s t : State} (h : Emitted bs s t) :
    Memory.readAll t.outBuf s.enc.outlen.toNat bs.length = some bs := by
  obtain ⟨-, hbytes, -⟩ := h
  exact (Memory.readAll_eq_some_iff _ _ _ _).mpr ⟨rfl, hbytes⟩

/-- Bytes below those emitted read as before. -/
theorem Emitted.readAll_below {bs : List Byte} {s t : State} (h : Emitted bs s t) {a n : Nat}
    (hn : a + n ≤ s.enc.outlen.toNat) : Memory.readAll t.outBuf a n = Memory.readAll s.outBuf a n := by
  obtain ⟨-, -, hframe⟩ := h
  exact Memory.readAll_congr fun x _ hx => hframe x (.inl (by omega))

/-- Settles O26: the error is taken in the fresh state. -/
theorem badChannelCountRaises : Obligations.BadChannelCountRaises := by
  intro s hthree hfour
  have hillegal : channelsLegal s.enc.channels = false := by
    rw [← Bool.not_eq_true, channelsLegal_iff, not_or]
    exact ⟨hthree, hfour⟩
  exact ⟨(encBegin s).enc.npix, encBegin_npix s, encStart_of_illegal hillegal⟩

/-- Settles O27: the three checks pass and the header is emitted from offset 0. -/
theorem encStartWritesHeader : Obligations.EncStartWritesHeader := by
  intro s hlegal hsize hinput hroom
  rw [← encBegin_npix] at hsize hinput
  rw [encStart_of_launch ((channelsLegal_iff _).mpr hlegal) ((encTooLarge_eq_false_iff _).mpr hsize) hinput]
  have hemits := emitBytes_emitted (bs := headerBytes s.enc.width s.enc.height s.enc.channels s.enc.colorspace)
    (s := encBegin s) (u := { encBegin s with enc := { (encBegin s).enc with phase := .pix } }) rfl rfl rfl
    (by simpa [encBegin, headerBytes_length] using hroom)
  obtain ⟨t, hnext, hemitted, ht⟩ := hemits
  have hlen : t.enc.outlen = 14 := BitVec.eq_of_toNat_eq hemitted.1
  refine ⟨t, (encBegin s).enc.npix, hnext, encBegin_npix s, hemitted.readAll, fun a ha => ?_, ?_⟩
  · obtain ⟨-, -, hframe⟩ := hemitted
    exact hframe a (.inr ha)
  · rw [hlen] at ht
    exact ht

/-- Settles O34: the start step writes the header, and with no pixel to take the next step writes the marker after it. -/
theorem emptyImageIsHeaderAndMarker : Obligations.EmptyImageIsHeaderAndMarker := by
  intro s hempty hlegal hroom
  have hnone : s.enc.width.toNat * s.enc.height.toNat = 0 := by
    rcases hempty with hw | hh
    · simp [hw]
    · simp [hh]
  obtain ⟨t, n, hstart, hn, hheader, -, ht⟩ :=
    encStartWritesHeader s hlegal (by omega) (by rw [hnone]; rfl) (by omega)
  have hlen : t.enc.outlen = 14 := by rw [ht]
  have hcount : t.enc.i = t.enc.npix := by
    rw [ht]
    exact BitVec.eq_of_toNat_eq (hnone.symm.trans hn.symm)
  have hspace : t.outRoom = s.outRoom := by rw [ht]
  obtain ⟨u, hfinish, hmarker, hu⟩ := encFinishWritesMarker t (by rw [ht]) hcount (by rw [hlen, hspace]; exact hroom)
  have hdone : u.enc.phase = .done := by rw [hu]
  have htotal : u.enc.outlen.toNat = 22 := by rw [hmarker.1, hlen]; rfl
  have hbelow := hmarker.readAll_below (a := 0) (n := 14) (by rw [hlen]; decide)
  have habove : Memory.readAll u.outBuf (0 + 14) 8 = some [0, 0, 0, 0, 0, 0, 0, 1] := by
    simpa [hlen] using hmarker.readAll
  refine ⟨t, u, hstart, hfinish, hdone, htotal, ?_⟩
  rw [encOutput, if_pos hdone, htotal]
  exact Memory.readAll_append (hbelow.trans hheader) habove

end Sys2Proof.Claims
end

