-- ==== Sys2Proof/Proofs/UnitStops.lean ====
section
/-! PROOF. When the units' steps stop (spec/42_encoder.md R181, spec/70_reset_and_hazards.md R281, R282). First what a step can
answer at all, then the condition of each way to stop. -/

namespace Sys2Proof.Machine

/-- An answer is a next state or one of two faults: no other fault, no refusal. -/
def StopsOnlyBy (f g : Fault) (r : Result) : Prop := (∃ t, r = .next t) ∨ r = .fault f ∨ r = .fault g

theorem StopsOnlyBy.fault {f g x : Fault} {r : Result} (h : StopsOnlyBy f g r) (hr : r = .fault x) : x = f ∨ x = g := by
  rcases h with ⟨t, rfl⟩ | rfl | rfl
  · cases hr
  · cases hr; exact .inl rfl
  · cases hr; exact .inr rfl

theorem StopsOnlyBy.not_refused {f g : Fault} {r : Result} (h : StopsOnlyBy f g r) (x : Refusal) : r ≠ .refused x := by
  rcases h with ⟨t, rfl⟩ | rfl | rfl <;> exact nofun

/-! ### ENC -/

theorem emitBytes_next_or_stuck (bs : List Byte) (s : State) :
    (∃ t, emitBytes bs s = .next t) ∨ emitBytes bs s = .fault .outRoom := by
  unfold emitBytes
  split_ifs
  · exact .inl ⟨_, rfl⟩
  · exact .inr rfl

/-- With its pixel there, a pixel step completes or lacks room. -/
theorem encPixelOf_next_or_stuck (p : Pixel) (s : State) :
    (∃ t, encPixelOf p s = .next t) ∨ encPixelOf p s = .fault .outRoom := by
  simp only [encPixelOf, encAbsorb, encLiteral]
  split_ifs
  · exact emitBytes_next_or_stuck ..
  · exact .inl ⟨_, rfl⟩
  · exact emitBytes_next_or_stuck ..

/-- Without its input pixel the pixel step is stuck (R181). -/
theorem encMove_of_absent {s : State} (hp : s.enc.phase = .pix) (hi : s.enc.i.toNat < s.enc.npix.toNat)
    (hread : Memory.read s.pixIn s.enc.i.toNat = none) : encMove s = .fault .pixInAbsent := by
  simp [encMove, encPixel, hp, hi, hread]

/-- ENC's turn completes, lacks room, or lacks its input pixel (R181). -/
theorem encMove_outcome (s : State) :
    (∃ t, encMove s = .next t) ∨ encMove s = .fault .outRoom ∨
    (encMove s = .fault .pixInAbsent ∧
      s.enc.phase = .pix ∧ s.enc.i.toNat < s.enc.npix.toNat ∧ Memory.read s.pixIn s.enc.i.toNat = none) := by
  by_cases hp : s.enc.phase = .pix
  case neg => exact .inl ⟨s, encMove_quiet hp⟩
  rcases lt_trichotomy s.enc.i.toNat s.enc.npix.toNat with hi | hi | hi
  · cases hread : Memory.read s.pixIn s.enc.i.toNat with
    | some p => exact (encMove_pixel hp hi hread ▸ encPixelOf_next_or_stuck p s).imp_right .inl
    | none => exact .inr (.inr ⟨encMove_of_absent hp hi hread, hp, hi, rfl⟩)
  · rw [encMove_finish hp (BitVec.eq_of_toNat_eq hi)]
    exact (emitBytes_next_or_stuck ..).imp_right .inl
  · refine .inl ⟨s, ?_⟩
    rw [encMove, hp]
    exact (if_neg (by omega)).trans (if_neg fun h => by simp [h] at hi)

theorem encMove_stopsOnlyBy (s : State) : StopsOnlyBy .pixInAbsent .outRoom (encMove s) := by
  rcases encMove_outcome s with hnext | hroom | ⟨habsent, -⟩
  · exact .inl hnext
  · exact .inr (.inr hroom)
  · exact .inr (.inl habsent)

theorem encMove_pixInAbsent_iff (s : State) :
    encMove s = .fault .pixInAbsent ↔
      s.enc.phase = .pix ∧ s.enc.i.toNat < s.enc.npix.toNat ∧ Memory.read s.pixIn s.enc.i.toNat = none := by
  constructor
  · intro h
    rcases encMove_outcome s with ⟨t, hnext⟩ | hroom | ⟨-, hwhy⟩
    · cases h.symm.trans hnext
    · cases h.symm.trans hroom
    · exact hwhy
  · rintro ⟨hp, hi, hread⟩
    exact encMove_of_absent hp hi hread

/-! ### DEC -/

/-- A run of elements cannot be read exactly when one of them is not there. -/
theorem Memory.readAll_eq_none_iff {α : Type} (m : Memory α) (a n : Nat) :
    Memory.readAll m a n = none ↔ ∃ k, k < n ∧ Memory.read m (a + k) = none := by
  induction n generalizing a with
  | zero => simp [Memory.readAll]
  | succ n ih =>
    have hsplit : (∃ k, k < n + 1 ∧ Memory.read m (a + k) = none) ↔
        Memory.read m a = none ∨ ∃ k, k < n ∧ Memory.read m (a + 1 + k) = none := by
      rw [Nat.exists_lt_succ_left]
      simp only [Nat.add_zero, Nat.add_assoc, Nat.add_comm 1]
    rw [hsplit, ← ih, Memory.readAll]
    cases Memory.read m a <;> cases Memory.readAll m (a + 1) n <;> simp

/-- R281: the fetch misses a byte of the opcode, if the opcode ends before the marker. -/
theorem fetch_eq_absent_iff (m : Memory Byte) (pos len : Nat) :
    fetch m pos len = .absent ↔
      Memory.read m pos = none ∨
      ∃ b0, Memory.read m pos = some b0 ∧ pos + oplen b0 + 8 ≤ len ∧
        ∃ k, k < oplen b0 ∧ Memory.read m (pos + k) = none := by
  unfold fetch
  cases hread : Memory.read m pos with
  | none => simp
  | some b0 =>
    simp only [reduceCtorEq, false_or, Option.some.injEq, exists_eq_left', ← Memory.readAll_eq_none_iff]
    split_ifs with hcut
    · simp [Nat.not_le.mpr hcut]
    · simp only [not_lt.mp hcut, true_and]
      cases Memory.readAll m pos (oplen b0) with
      | none => simp
      | some bytes => dsimp only; split <;> simp

theorem exec_next_or_stuck (i : Instr) (s : State) :
    (∃ t, exec i s = .next t) ∨ exec i s = .fault .pixOutRoom := by
  rw [exec_eq, yieldPixels]
  split_ifs
  · exact .inl ⟨_, rfl⟩
  · exact .inr rfl

/-- DEC's opcode step completes, lacks room, or lacks a byte of the opcode. -/
theorem decOpcode_outcome (s : State) :
    (∃ t, decOpcode s = .next t) ∨ decOpcode s = .fault .pixOutRoom ∨
    (decOpcode s = .fault .inAbsent ∧ fetch s.inBuf s.dec.pos.toNat s.dec.cfgLen.toNat = .absent) := by
  unfold decOpcode
  cases fetch s.inBuf s.dec.pos.toNat s.dec.cfgLen.toNat with
  | opcode i => exact (exec_next_or_stuck i s).imp_right .inl
  | truncated => exact .inl ⟨_, rfl⟩
  | unrecognized => exact .inl ⟨_, rfl⟩
  | absent => exact .inr (.inr ⟨rfl, rfl⟩)

theorem decOpcode_inAbsent_iff (s : State) :
    decOpcode s = .fault .inAbsent ↔ fetch s.inBuf s.dec.pos.toNat s.dec.cfgLen.toNat = .absent := by
  constructor
  · intro h
    rcases decOpcode_outcome s with ⟨t, hnext⟩ | hroom | ⟨-, hwhy⟩
    · cases h.symm.trans hnext
    · cases h.symm.trans hroom
    · exact hwhy
  · intro h
    rw [decOpcode, h]

theorem decMove_stopsOnlyBy (s : State) : StopsOnlyBy .inAbsent .pixOutRoom (decMove s) := by
  by_cases hp : s.dec.phase = .ops
  case neg => exact .inl ⟨s, decMove_quiet hp⟩
  rcases lt_trichotomy (s.dec.pos.toNat + 8) s.dec.cfgLen.toNat with hpos | hpos | hpos
  · rw [decMove_opcode hp hpos]
    rcases decOpcode_outcome s with hnext | hroom | ⟨habsent, -⟩
    · exact .inl hnext
    · exact .inr (.inr hroom)
    · exact .inr (.inl habsent)
  · exact .inl ⟨_, decMove_finish hp hpos⟩
  · refine .inl ⟨s, ?_⟩
    rw [decMove, hp]
    exact (if_neg (by omega)).trans (if_neg (by omega))

end Sys2Proof.Machine

namespace Sys2Proof.Claims

open Sys2Proof.Machine

/-- Settles O35: what each step can answer, and the condition under which its bytes or its input are missing. -/
theorem unitStepsStopExactly : Obligations.UnitStepsStopExactly := by
  intro s
  refine ⟨encMove_pixInAbsent_iff s, fun p hp hi hrun hread heq => ?absorb, fun hp hi => ?finish,
    fun f => (encMove_stopsOnlyBy s).fault, (encMove_stopsOnlyBy s).not_refused, fun hp hpos => ?opcode,
    fun f => (decMove_stopsOnlyBy s).fault, (decMove_stopsOnlyBy s).not_refused⟩
  case absorb =>
    rw [encMove_absorb hp hi hrun hread heq]
    split_ifs with hends
    · simpa [hends] using emitBytes_eq_fault_iff [BitVec.ofNat 8 (0xC0 + s.enc.run.toNat)] (encSetRun 0 (encTake s))
    · simp [hends]
  case finish =>
    rw [encMove_finish hp hi]
    exact emitBytes_eq_fault_iff Config.endMarker { s with enc := { s.enc with phase := .done } }
  case opcode =>
    rw [decMove_opcode hp hpos, decOpcode_inAbsent_iff]
    exact fetch_eq_absent_iff s.inBuf s.dec.pos.toNat s.dec.cfgLen.toNat

end Sys2Proof.Claims
end

