-- ==== Sys2Proof/Proofs/DecOpcodes.lean ====
section
/-! PROOF. What the six opcodes do (spec/43_decoder.md R204 to R211): each is one use of the shared operation, which with
room produces its pixels, advances `pos` and changes nothing else. -/

namespace Sys2Proof

/-! ### Operands by the tag (R98, R100) -/

section ByTag

variable {b0 : Byte}

theorem decode_of_tag_zero (h : tag b0 = 0) (rest : List Byte) :
    decode (b0 :: rest) = .ok (.index (payload b0), rest) := by
  obtain ⟨idx, rfl⟩ := exists_payload_of_tag h
  rw [payload_append]
  exact (Format.index idx).decode_append rest

theorem decode_of_tag_one (h : tag b0 = 1) (rest : List Byte) :
    decode (b0 :: rest) = .ok (.diff (biasedField b0 4 2 2) (biasedField b0 2 2 2) (biasedField b0 0 2 2), rest) := by
  obtain ⟨p, rfl⟩ := exists_payload_of_tag h
  obtain ⟨ur, ug, ub, rfl⟩ := exists_diffPayload p
  obtain ⟨hr, hg, hb⟩ := biasedField_diff ur ug ub
  exact hr ▸ hg ▸ hb ▸ (Format.diff ur ug ub).decode_append rest

theorem decode_of_tag_two (h : tag b0 = 2) (b1 : Byte) (rest : List Byte) :
    decode (b0 :: b1 :: rest) =
      .ok (.luma (biasedField b0 0 6 32) (biasedField b1 4 4 8) (biasedField b1 0 4 8), rest) := by
  obtain ⟨ug, rfl⟩ := exists_payload_of_tag h
  obtain ⟨urg, ubg, rfl⟩ := exists_append (m := 4) (n := 4) b1
  obtain ⟨hr, hb⟩ := biasedField_luma_residuals urg ubg
  exact biasedField_luma_green ug ▸ hr ▸ hb ▸ (Format.luma ug urg ubg).decode_append rest

end ByTag

end Sys2Proof

namespace Sys2Proof.Machine

/-! ### The pixel -/

/-- R210: a channel's sum is taken modulo 256. -/
theorem addChannel_toNat (c : Byte) (d : Int) : ((addChannel c d).toNat : Int) = (c.toNat + d) % 256 := by
  rw [addChannel, trunc8, BitVec.toNat_ofInt]
  exact Int.toNat_of_nonneg (Int.emod_nonneg _ (by decide))

/-! ### Its production -/

/-- Producing and advancing is all an opcode does (R203, R211). -/
theorem advance_produceN_eq (len n : Nat) (p : Pixel) (s : State) :
    advance len (produceN n p s) = { s with
      pixOut := (advance len (produceN n p s)).pixOut
      dec := { s.dec with
        prev := (advance len (produceN n p s)).dec.prev
        cache := (advance len (produceN n p s)).dec.cache
        pixcnt := (advance len (produceN n p s)).dec.pixcnt
        pos := (advance len (produceN n p s)).dec.pos } } := by
  have hframe := congrArg (advance len) (produceN_eq n p s)
  rw [advance_dec_pos, produceN_dec_pos]
  exact hframe

/-- With room, pixels land at the counter, which does not wrap, and the pixel is cached at its hash. -/
theorem produced_advance_produceN {len n : Nat} {p : Pixel} {s : State} (hn : 1 ≤ n)
    (hroom : s.dec.pixcnt.toNat + n ≤ s.pixOutRoom.toNat) :
    Claims.Produced len n p s (advance len (produceN n p s)) := by
  have hsome : n ≠ 0 := by omega
  have hbound := s.pixOutRoom.isLt
  have hcache : (advance len (produceN n p s)).dec.cache = cacheWrite s.dec.cache p := by
    rw [advance_dec_cache, produceN_dec_cache, if_neg hsome]
  have hpixels : (advance len (produceN n p s)).pixOut =
      Memory.writeAll s.pixOut s.dec.pixcnt.toNat (List.replicate n p) := produceN_pixOut n p s (by omega)
  refine ⟨?prev, ?entry, fun k hk => ?others, ?count, ?pos, fun j hj => ?inside, fun a ha => ?outside,
    advance_produceN_eq len n p s⟩
  case prev => rw [advance_dec_prev, produceN_dec_prev, if_neg hsome]
  case entry => rw [hcache, cacheRead_cacheWrite_hash]
  case others => rw [hcache, cacheRead_cacheWrite_of_ne _ _ hk]
  case count => rw [advance_dec_pixcnt, produceN_dec_pixcnt, toNat_add_ofNat_of_le hroom]
  case pos => rw [advance_dec_pos, produceN_dec_pos]
  case inside =>
    rw [hpixels, Memory.read_writeAll, List.length_replicate, if_pos (by omega), Nat.add_sub_cancel_left,
      List.getElem?_replicate, if_pos hj]
  case outside => rw [hpixels, Memory.read_writeAll, List.length_replicate, if_neg (by omega)]

/-- An opcode that has room for its pixels, at least one, completes and produces them. -/
theorem exec_produced {i : Instr} {s : State} (hn : 1 ≤ yieldedCount i)
    (hroom : s.dec.pixcnt.toNat + yieldedCount i ≤ s.pixOutRoom.toNat) :
    ∃ t, exec i s = .next t ∧ Claims.Produced i.length (yieldedCount i) (yieldedPixel i s.dec) s t := by
  rw [exec_eq, yieldPixels_of_room hroom]
  exact ⟨_, rfl, produced_advance_produceN hn hroom⟩

end Sys2Proof.Machine

namespace Sys2Proof.Claims

open Sys2Proof.Machine

/-- Settles O13: the exact match of its first byte, and the shared operation. -/
theorem rgbaProducesItsBytes : Obligations.RgbaProducesItsBytes :=
  ⟨fun r g b a => (Format.rgba r g b a).decode_append,
   fun r g b a _ => exec_produced (i := .rgba r g b a) (le_refl 1)⟩

/-- Settles O14: the exact match of its first byte, and the shared operation. -/
theorem rgbKeepsAlpha : Obligations.RgbKeepsAlpha :=
  ⟨fun r g b => (Format.rgb r g b).decode_append, fun r g b _ => exec_produced (i := .rgb r g b) (le_refl 1)⟩

/-- Settles O15: tag 00, and the shared operation on the pixel in the slot. -/
theorem indexProducesCachedPixel : Obligations.IndexProducesCachedPixel :=
  ⟨fun _ rest htag => decode_of_tag_zero htag rest, fun idx _ => exec_produced (i := .index idx) (le_refl 1)⟩

/-- Settles O16: tag 01, and the shared operation on the sums modulo 256. -/
theorem diffAddsModulo256 : Obligations.DiffAddsModulo256 := by
  refine ⟨fun _ rest htag => decode_of_tag_one htag rest, fun dr dg db s hroom => ?_⟩
  obtain ⟨t, hexec, hproduced⟩ := exec_produced (i := .diff dr dg db) (le_refl 1) hroom
  exact ⟨t, _, hexec, hproduced, addChannel_toNat _ _, addChannel_toNat _ _, addChannel_toNat _ _, rfl⟩

/-- Settles O17: tag 10, and the shared operation on the sums modulo 256. -/
theorem lumaAddsResiduals : Obligations.LumaAddsResiduals := by
  refine ⟨fun _ b1 rest htag => decode_of_tag_two htag b1 rest, fun dg drDg dbDg s hroom => ?_⟩
  obtain ⟨t, hexec, hproduced⟩ := exec_produced (i := .luma dg drDg dbDg) (le_refl 1) hroom
  exact ⟨t, _, hexec, hproduced, addChannel_toNat _ _, addChannel_toNat _ _, addChannel_toNat _ _, rfl⟩

/-- Settles O18: the shared operation on the previous pixel, `len` times. -/
theorem runRepeatsPreviousPixel : Obligations.RunRepeatsPreviousPixel :=
  fun len _ hlo _ hroom => exec_produced (i := .run len) hlo hroom

end Sys2Proof.Claims
end

