-- ==== Sys2Proof/Proofs/DecSteps.lean ====
section
/-! PROOF. DEC's own steps: what the fetch finds (spec/43_decoder.md R203, R216) and what the step then is (R200, R212). -/

namespace Sys2Proof

/-- R97 for every instruction, from its lemma a constructor. -/
theorem encodedLength (i : Instr) : Laws.EncodedLength.Statement i := by
  cases i with
  | rgba r g b a => exact Laws.EncodedLength.rgba r g b a
  | rgb r g b => exact Laws.EncodedLength.rgb r g b
  | index idx => exact Laws.EncodedLength.index idx
  | diff dr dg db => exact Laws.EncodedLength.diff dr dg db
  | luma dg drDg dbDg => exact Laws.EncodedLength.luma dg drDg dbDg
  | run len => exact Laws.EncodedLength.run len

end Sys2Proof

namespace Sys2Proof.Machine

/-! ### DEC's turn -/

theorem nextAgent_of_decsTurn {s : State} (h : Claims.DecsTurn s) : nextAgent s = .dec := by
  unfold nextAgent
  rcases h with hhead | ⟨hnone, hphase⟩
  · obtain ⟨rest, hturns⟩ := List.head?_eq_some_iff.mp hhead
    rw [hturns]
  · simp [hnone, decBusy, hphase]

theorem step_of_decsTurn {s : State} (h : Claims.DecsTurn s) : step s = decMove (popTurn s) :=
  step_of_nextAgent (nextAgent_of_decsTurn h)

/-! ### The fetch -/

/-- The first element read is the one at the start. -/
theorem Memory.readAll_succ_eq_some {α : Type} {m : Memory α} {a n : Nat} {vs : List α}
    (h : Memory.readAll m a (n + 1) = some vs) : ∃ v ws, vs = v :: ws ∧ ws.length = n ∧ Memory.read m a = some v := by
  obtain ⟨hlen, hread⟩ := (readAll_eq_some_iff m a (n + 1) vs).mp h
  obtain ⟨v, ws, rfl⟩ := List.exists_cons_of_length_eq_add_one hlen
  exact ⟨v, ws, rfl, Nat.succ.inj hlen, hread 0 (Nat.zero_lt_succ n)⟩

theorem one_le_oplen (b0 : Byte) : 1 ≤ oplen b0 := by
  unfold oplen
  split_ifs <;> decide

/-- R102: as many bytes as their first one asks for are an opcode. -/
theorem decode_readAll_oplen {m : Memory Byte} {pos : Nat} {b0 : Byte} {bytes : List Byte}
    (hread : Memory.read m pos = some b0) (hall : Memory.readAll m pos (oplen b0) = some bytes) :
    ∃ i, decode bytes = .ok (i, []) := by
  obtain ⟨n, hn⟩ := Nat.exists_eq_add_of_le' (one_le_oplen b0)
  rw [hn] at hall
  obtain ⟨b, ops, rfl, hlen, hfirst⟩ := Memory.readAll_succ_eq_some hall
  cases hread.symm.trans hfirst
  obtain ⟨i, hi⟩ := Format.exists_of_oplen (b := b0) (ops := ops) (by omega)
  exact ⟨i, by simpa using hi.decode_append []⟩

theorem fetch_ne_unrecognized (m : Memory Byte) (pos len : Nat) : fetch m pos len ≠ .unrecognized := by
  unfold fetch
  split
  case h_1 => exact nofun
  case h_2 b0 hread =>
    split_ifs
    · exact nofun
    · split
      case h_1 => exact nofun
      case h_2 bytes hall =>
        obtain ⟨i, hi⟩ := decode_readAll_oplen hread hall
        rw [hi]
        exact nofun

/-- R203's length check comes before any operand byte is read. -/
theorem fetch_of_cut {m : Memory Byte} {pos len : Nat} {b0 : Byte} (hread : Memory.read m pos = some b0)
    (hcut : len < pos + oplen b0 + 8) : fetch m pos len = .truncated := by
  simp [fetch, hread, hcut]

/-- Where the bytes of a well-formed opcode stand, the first of them tells their number (R97). -/
theorem first_byte_of_readAll {m : Memory Byte} {pos : Nat} {i : Instr} (hwf : i.wf = true)
    (hall : Memory.readAll m pos (encode i).length = some (encode i)) :
    ∃ b t, encode i = b :: t ∧ oplen b = (encode i).length ∧ Memory.read m pos = some b := by
  obtain ⟨hlen, b, t, hbytes, hfirst⟩ := encodedLength i hwf
  rw [hbytes] at hall
  obtain ⟨_, _, hcons, -, hread⟩ := Memory.readAll_succ_eq_some hall
  cases hcons
  exact ⟨b, t, hbytes, hfirst.trans hlen.symm, hread⟩

/-- The bytes of a well-formed opcode that ends before the marker are fetched as it. -/
theorem fetch_encode {m : Memory Byte} {pos len : Nat} {i : Instr} (hwf : i.wf = true)
    (hall : Memory.readAll m pos (encode i).length = some (encode i)) (hend : pos + (encode i).length + 8 ≤ len) :
    fetch m pos len = .opcode i := by
  obtain ⟨b, t, -, hfirst, hread⟩ := first_byte_of_readAll hwf hall
  have hdecode : decode (encode i) = .ok (i, []) := by simpa using Claims.decodingUndoesEncoding i [] hwf
  simp [fetch, hread, hfirst, not_lt.mpr hend, hall, hdecode]

/-! ### The step -/

/-- In a pass, on the bytes of a well-formed opcode that ends before the marker, DEC's move is the opcode's meaning. -/
theorem decMove_encode {s : State} {i : Instr} (hp : s.dec.phase = .ops) (hwf : i.wf = true)
    (hall : Memory.readAll s.inBuf s.dec.pos.toNat (encode i).length = some (encode i))
    (hend : s.dec.pos.toNat + (encode i).length + 8 ≤ s.dec.cfgLen.toNat) : decMove s = exec i s := by
  obtain ⟨b, t, -, hfirst, -⟩ := first_byte_of_readAll hwf hall
  have := one_le_oplen b
  rw [decMove_opcode hp (by omega), decOpcode, fetch_encode hwf hall hend]

theorem decMove_of_cut {s : State} {b0 : Byte} (hp : s.dec.phase = .ops)
    (hread : Memory.read s.inBuf s.dec.pos.toNat = some b0) (hpos : s.dec.pos.toNat + 8 < s.dec.cfgLen.toNat)
    (hcut : s.dec.cfgLen.toNat < s.dec.pos.toNat + oplen b0 + 8) :
    decMove s = .next (raiseError .dec .corruptOpcode detailTruncated s) := by
  rw [decMove_opcode hp hpos, decOpcode, fetch_of_cut hread hcut]

end Sys2Proof.Machine

namespace Sys2Proof.Claims

open Sys2Proof.Machine

/-- Settles O20: the bytes are fetched as the opcode, whose meaning the step is. -/
theorem stepRunsDecodedOpcode : Obligations.StepRunsDecodedOpcode := by
  intro s i hturn hp hwf hbytes hend
  rw [step_of_decsTurn hturn]
  exact decMove_encode (s := popTurn s) hp hwf ((Memory.readAll_eq_some_iff _ _ _ _).mpr ⟨rfl, hbytes⟩) hend

/-- Settles O21: the length check fails on the first byte. -/
theorem truncatedOpcodeRaises : Obligations.TruncatedOpcodeRaises := by
  intro s b0 hturn hp hread hpos hcut
  rw [step_of_decsTurn hturn]
  exact decMove_of_cut (s := popTurn s) hp hread hpos hcut

/-- Settles O22: what the fetch hands to the decoder are as many bytes as the first one asks for. -/
theorem noByteIsUnrecognized : Obligations.NoByteIsUnrecognized :=
  fetch_ne_unrecognized

/-- Settles O23: the finish step is the one enabled. -/
theorem decFinishSetsDone : Obligations.DecFinishSetsDone := by
  intro s hturn hp hpos
  rw [step_of_decsTurn hturn]
  exact decMove_finish (s := popTurn s) hp hpos

end Sys2Proof.Claims
end

