-- ==== Sys2Proof/Proofs/DecStart.lean ====
section
/-! PROOF. DEC's start step (spec/43_decoder.md R201, R202): the header checks in their order, the size of a stream in pixels
(spec/70_reset_and_hazards.md R284), and the header fields (spec/41_serdes.md R148). -/

namespace Sys2Proof

/-! ### What an opcode's bytes say of its pixels -/

/-- A first byte tells how many pixels its opcode yields (R204 to R209). -/
theorem Format.opcodeCount_eq {i : Instr} {b : Byte} {t : List Byte} (h : Format i (b :: t)) :
    Machine.opcodeCount b = Machine.yieldedCount i := by
  cases h with
  | rgba r g b a => rfl
  | rgb r g b => rfl
  | index idx => exact if_neg (by simp)
  | diff ur ug ub => exact if_neg (by simp)
  | luma ug urg ubg => exact if_neg (by simp)
  | run ul hul =>
    obtain ⟨hff, hfe⟩ := (append_ne_verbatim_iff 3#2 ul).mpr fun _ => hul
    rw [Machine.opcodeCount, if_pos ⟨tag_append .., hfe, hff⟩, payload_append, Machine.yieldedCount]

theorem opcodeCount_of_encode {i : Instr} {b : Byte} {t : List Byte} (hwf : i.wf = true) (h : encode i = b :: t) :
    Machine.opcodeCount b = Machine.yieldedCount i := by
  obtain ⟨bs, hbs⟩ := Format.exists_of_wf hwf
  obtain rfl : bs = b :: t := hbs.encode_eq.symm.trans h
  exact hbs.opcodeCount_eq

/-- Only an empty string and an opcode cut short do not decode (R102). -/
theorem length_lt_oplen_of_decode_error {b : Byte} {t : List Byte} {e : DecodeError}
    (h : decode (b :: t) = .error e) : (b :: t).length < oplen b := by
  by_contra hlong
  rw [not_lt, List.length_cons] at hlong
  have hpos := Machine.one_le_oplen b
  obtain ⟨i, hi⟩ := Format.exists_of_oplen (b := b) (ops := t.take (oplen b - 1)) (by rw [List.length_take]; omega)
  have hsplit := hi.decode_append (t.drop (oplen b - 1))
  rw [List.cons_append, List.take_append_drop, h] at hsplit
  cases hsplit

end Sys2Proof

namespace Sys2Proof.Machine

/-! ### Runs of elements in two parts -/

/-- A run of elements is there exactly when its two parts are, one where the other ends. -/
theorem Memory.readAll_append_iff {α : Type} {m : Memory α} {a n k : Nat} {xs ys : List α} (hn : xs.length = n) :
    Memory.readAll m a (n + k) = some (xs ++ ys) ↔
      Memory.readAll m a n = some xs ∧ Memory.readAll m (a + n) k = some ys := by
  refine ⟨fun h => ?_, fun ⟨hxs, hys⟩ => readAll_append hxs hys⟩
  subst hn
  rw [readAll_eq_some_iff, List.length_append] at h
  obtain ⟨hlen, hread⟩ := h
  rw [readAll_eq_some_iff, readAll_eq_some_iff]
  refine ⟨⟨rfl, fun j hj => ?_⟩, Nat.add_left_cancel hlen, fun j hj => ?_⟩
  · rw [hread j (by omega), List.getElem?_append_left hj]
  · rw [Nat.add_assoc, hread _ (by omega), List.getElem?_append_right (by omega), Nat.add_sub_cancel_left]

/-! ### The pixels of a stream (R284) -/

/-- Nothing is counted from an opcode that is cut short, nor past the region's end. -/
theorem streamYield_of_decode_error {m : Memory Byte} {stop pos fuel : Nat} {rest : List Byte} {e : DecodeError}
    (hrest : Memory.readAll m pos rest.length = some rest) (hstop : pos + rest.length = stop)
    (herror : decode rest = .error e) : streamYield m stop pos fuel = 0 := by
  cases fuel with
  | zero => rfl
  | succ k =>
    rw [streamYield]
    split
    case h_1 => rfl
    case h_2 b0 hread =>
      refine if_neg ?_
      have hpos := one_le_oplen b0
      cases rest with
      | nil => simp only [List.length_nil] at hstop; omega
      | cons b t =>
        obtain ⟨_, _, hcons, -, hfirst⟩ := Memory.readAll_succ_eq_some hrest
        cases hcons
        cases hread.symm.trans hfirst
        have := length_lt_oplen_of_decode_error herror
        omega

/-- An opcode that ends in the region counts with its pixels, and the count goes on after it. -/
theorem streamYield_opcode {m : Memory Byte} {stop pos fuel : Nat} {i : Instr} (hwf : i.wf = true)
    (hall : Memory.readAll m pos (encode i).length = some (encode i)) (hend : pos + (encode i).length ≤ stop) :
    streamYield m stop pos (fuel + 1) = yieldedCount i + streamYield m stop (pos + (encode i).length) fuel := by
  obtain ⟨b, t, hbytes, hfirst, hread⟩ := first_byte_of_readAll hwf hall
  simp only [streamYield, hread, hfirst, opcodeCount_of_encode hwf hbytes]
  exact if_pos hend

/-- The size check counts the pixels of the region's opcodes. -/
theorem streamYield_eq_totalYield {m : Memory Byte} {stop : Nat} {ops : List Instr} {rest : List Byte} {e : DecodeError}
    (hwf : ∀ i ∈ ops, i.wf = true) (herror : decode rest = .error e) {pos fuel : Nat}
    (hall : Memory.readAll m pos (ops.flatMap encode ++ rest).length = some (ops.flatMap encode ++ rest))
    (hstop : pos + (ops.flatMap encode ++ rest).length = stop) (hfuel : stop ≤ pos + fuel) :
    streamYield m stop pos fuel = Claims.totalYield ops := by
  induction ops generalizing pos fuel with
  | nil => exact streamYield_of_decode_error hall hstop herror
  | cons i ops ih =>
    obtain ⟨hi, hops⟩ := List.forall_mem_cons.mp hwf
    rw [List.flatMap_cons, List.append_assoc] at hall hstop
    rw [List.length_append] at hall hstop
    rw [Memory.readAll_append_iff rfl] at hall
    obtain ⟨hop, hmore⟩ := hall
    obtain ⟨b, t, -, hfirst, -⟩ := first_byte_of_readAll hi hop
    have hpos := one_le_oplen b
    obtain ⟨k, rfl⟩ := Nat.exists_eq_add_of_le' (show 1 ≤ fuel by omega)
    calc streamYield m stop pos (k + 1)
      _ = yieldedCount i + streamYield m stop (pos + (encode i).length) k := streamYield_opcode hi hop (by omega)
      _ = yieldedCount i + Claims.totalYield ops := by rw [ih hops hmore (by omega) (by omega)]
      _ = Claims.totalYield (i :: ops) := by rw [Claims.totalYield, Claims.totalYield, List.map_cons, List.sum_cons]

/-- The bound of R275 spares the count. -/
theorem decTooLarge_of_bound {m : Memory Byte} {len : Nat} (h : 62 * (len - 22) < 2 ^ 64) : decTooLarge m len = false :=
  if_pos h

/-- Without that bound the opcodes of the region decide. -/
theorem decTooLarge_of_region {m : Memory Byte} {len : Nat} {ops : List Instr} (hlen : 22 ≤ len)
    (hregion : Claims.RegionIs m len ops) (h : Claims.totalYield ops < 2 ^ 64) : decTooLarge m len = false := by
  obtain ⟨rest, e, hall, hwf, herror⟩ := hregion
  obtain ⟨hlength, -⟩ := (Memory.readAll_eq_some_iff _ _ _ _).mp hall
  have hyield := streamYield_eq_totalYield (stop := len - 8) (fuel := len - 22) hwf herror (hlength ▸ hall)
    (by omega) (by omega)
  unfold decTooLarge
  split_ifs
  · rfl
  · rw [hyield, decide_eq_false_iff_not]
    omega

/-! ### The header checks (R202) -/

theorem memRead_magic_iff (m : Memory Byte) :
    memRead m 0 4 = some 0x716F6966 ↔ Memory.readAll m 0 4 = some [0x71, 0x6F, 0x69, 0x66] :=
  memRead_eq_iff (bs := [0x71, 0x6F, 0x69, 0x66]) rfl

theorem memRead_marker_iff (m : Memory Byte) (a : Nat) :
    memRead m a 8 = some 1 ↔ Memory.readAll m a 8 = some [0, 0, 0, 0, 0, 0, 0, 1] :=
  memRead_eq_iff (bs := [0, 0, 0, 0, 0, 0, 0, 1]) rfl

section HeaderCheck

variable {m : Memory Byte} {len : Nat}

theorem headerCheck_of_short (h : len < 14) : headerCheck m len = some 1 := if_pos h

theorem headerCheck_of_bad_magic (hlen : 14 ≤ len) (hmagic : Memory.readAll m 0 4 ≠ some [0x71, 0x6F, 0x69, 0x66]) :
    headerCheck m len = some 2 := by
  rw [ne_eq, ← memRead_magic_iff] at hmagic
  rw [headerCheck, if_neg (not_lt.mpr hlen), if_pos hmagic, detailMagic]

theorem headerCheck_of_bad_marker (hlen : 14 ≤ len) (hmagic : Memory.readAll m 0 4 = some [0x71, 0x6F, 0x69, 0x66])
    (hmarker : len < 22 ∨ Memory.readAll m (len - 8) 8 ≠ some [0, 0, 0, 0, 0, 0, 0, 1]) :
    headerCheck m len = some 3 := by
  rw [← memRead_magic_iff] at hmagic
  rw [ne_eq, ← memRead_marker_iff] at hmarker
  rw [headerCheck, if_neg (not_lt.mpr hlen), if_neg (not_not.mpr hmagic), if_pos hmarker, detailMarker]

theorem headerCheck_of_framed (hlen : 22 ≤ len) (hmagic : Memory.readAll m 0 4 = some [0x71, 0x6F, 0x69, 0x66])
    (hmarker : Memory.readAll m (len - 8) 8 = some [0, 0, 0, 0, 0, 0, 0, 1]) : headerCheck m len = none := by
  rw [← memRead_magic_iff] at hmagic
  rw [← memRead_marker_iff] at hmarker
  rw [headerCheck, if_neg (by omega), if_neg (not_not.mpr hmagic), if_neg (by simp [hmarker, hlen])]

end HeaderCheck

/-! ### The header fields (R148) -/

theorem read32_of_readAll {m : Memory Byte} {a : Nat} {v : Word} (h : Memory.readAll m a 4 = some (be32 v)) :
    read32 m a = some v := by
  rw [read32, (memRead_eq_iff (n := 4) rfl).mpr h, beNat_be32, Option.map_some, BitVec.ofNat_toNat, BitVec.setWidth_eq]

/-- The 14 header bytes are the magic and the four fields, each at its offset. -/
theorem header_fields {m : Memory Byte} {w h : Word} {c cs : Byte}
    (hall : Memory.readAll m 0 14 = some (headerBytes w h c cs)) :
    Memory.readAll m 0 4 = some [0x71, 0x6F, 0x69, 0x66] ∧ read32 m 4 = some w ∧ read32 m 8 = some h ∧
      Memory.read m 12 = some c ∧ Memory.read m 13 = some cs := by
  obtain ⟨hleft, hbytes⟩ := (Memory.readAll_append_iff (n := 12) (k := 2) rfl).mp hall
  obtain ⟨hleft, hheight⟩ := (Memory.readAll_append_iff (n := 8) (k := 4) rfl).mp hleft
  obtain ⟨hmagic, hwidth⟩ := (Memory.readAll_append_iff (n := 4) (k := 4) rfl).mp hleft
  obtain ⟨-, hbyte⟩ := (Memory.readAll_eq_some_iff _ _ _ _).mp hbytes
  exact ⟨hmagic, read32_of_readAll hwidth, read32_of_readAll hheight, hbyte 0 (by decide), hbyte 1 (by decide)⟩

/-! ### The start step -/

/-- A length below 14 ends the start whatever `IN` holds; other lengths ask for the input first (log 9). -/
theorem decStart_of_check {s : State} {d : BitVec 4}
    (hpresent : 14 ≤ s.dec.len.toNat → Memory.present s.inBuf s.dec.len.toNat = true)
    (hcheck : headerCheck s.inBuf s.dec.len.toNat = some d) : decStart s = .next (Claims.afterFormatError d s) := by
  have hinput : ¬(14 ≤ s.dec.len.toNat ∧ Memory.present s.inBuf s.dec.len.toNat = false) :=
    fun ⟨hlen, habsent⟩ => by simp [hpresent hlen] at habsent
  unfold decStart
  simp only [show (decBegin s).dec.cfgLen = s.dec.len from rfl, show (decBegin s).inBuf = s.inBuf from rfl]
  rw [if_neg hinput, hcheck]
  rfl

/-- A stream that is present, framed and not too large starts a pass with its header's fields. -/
theorem decStart_of_framed {s : State} {w h : Word} {c cs : Byte} (hlen : 22 ≤ s.dec.len.toNat)
    (hsize : decTooLarge s.inBuf s.dec.len.toNat = false) (hpresent : Memory.present s.inBuf s.dec.len.toNat = true)
    (hheader : Memory.readAll s.inBuf 0 14 = some (headerBytes w h c cs))
    (hmarker : Memory.readAll s.inBuf (s.dec.len.toNat - 8) 8 = some [0, 0, 0, 0, 0, 0, 0, 1]) :
    decStart s = .next (decEnter w h c cs (decBegin s)) := by
  obtain ⟨hmagic, hwidth, hheight, hchannels, hspace⟩ := header_fields hheader
  have hcheck := headerCheck_of_framed hlen hmagic hmarker
  have hbegin : (decBegin s).dec.cfgLen = s.dec.len ∧ (decBegin s).inBuf = s.inBuf := ⟨rfl, rfl⟩
  unfold decStart decLaunch
  simp only [hbegin]
  simp [hpresent, hcheck, hsize, hwidth, hheight, hchannels, hspace]

end Sys2Proof.Machine

namespace Sys2Proof.Claims

open Sys2Proof.Machine

/-- Settles O24: each check is the first to fail on its stream. -/
theorem headerChecksInOrder : Obligations.HeaderChecksInOrder := by
  intro s
  refine ⟨fun hshort => ?_, fun hlen hpresent hmagic => ?_, fun hlen hpresent hmagic hmarker => ?_⟩
  · exact decStart_of_check (fun hlen => absurd hshort (not_lt.mpr hlen)) (headerCheck_of_short hshort)
  · exact decStart_of_check (fun _ => hpresent) (headerCheck_of_bad_magic hlen hmagic)
  · exact decStart_of_check (fun _ => hpresent) (headerCheck_of_bad_marker hlen hmagic hmarker)

/-- Settles O25: either form of the bound keeps the size check from refusing, and every other check passes. -/
theorem decStartBeginsPass : Obligations.DecStartBeginsPass := by
  intro s w h c cs hlen hbound hpresent hheader hmarker
  have hsize : decTooLarge s.inBuf s.dec.len.toNat = false := by
    rcases hbound with hbound | ⟨ops, hregion, hyield⟩
    · exact decTooLarge_of_bound hbound
    · exact decTooLarge_of_region hlen hregion hyield
  exact decStart_of_framed hlen hsize hpresent hheader hmarker

end Sys2Proof.Claims
end

