-- ==== Sys2Proof/Proofs/Moves.lean ====
section
/-! PROOF. Moves repeated: two runs of moves are one, and the last move of a run. -/

namespace Sys2Proof.Machine

section Moves

variable {f : State → Result} {m n : Nat} {s t u : State}

theorem moves_succ_iff : moves f (n + 1) s = .next t ↔ ∃ v, f s = .next v ∧ moves f n v = .next t := by
  rw [moves]
  cases f s <;> simp

theorem moves_trans (hst : moves f m s = .next t) (htu : moves f n t = .next u) : moves f (m + n) s = .next u := by
  induction m generalizing s with
  | zero => cases hst; rwa [Nat.zero_add]
  | succ m ih =>
    obtain ⟨v, hv, hmore⟩ := moves_succ_iff.mp hst
    rw [Nat.succ_add]
    exact moves_succ_iff.mpr ⟨v, hv, ih hmore⟩

theorem moves_one (h : f s = .next t) : moves f 1 s = .next t := moves_succ_iff.mpr ⟨t, h, rfl⟩

/-- The last of some moves that all answer. -/
theorem moves_succ_last (h : moves f (n + 1) s = .next t) : ∃ v, moves f n s = .next v ∧ f v = .next t := by
  induction n generalizing s with
  | zero =>
    obtain ⟨v, hv, hrest⟩ := moves_succ_iff.mp h
    cases hrest
    exact ⟨s, rfl, hv⟩
  | succ n ih =>
    obtain ⟨v, hv, hmore⟩ := moves_succ_iff.mp h
    obtain ⟨w, hw, hlast⟩ := ih hmore
    exact ⟨w, moves_succ_iff.mpr ⟨v, hv, hw⟩, hlast⟩

end Moves

end Sys2Proof.Machine
end

