-- ==== Sys2Proof/Proofs/EncStream.lean ====
section
/-! PROOF. A pass of ENC seen from its stream (spec/42_encoder.md R160 to R176): what is written stays written, so a buffer that
holds the stream of a later state holds that of an earlier one; and what each pixel step emits. -/

namespace Sys2Proof.Machine

/-! ### A buffer that holds what ENC has written -/

/-- The buffer holds what ENC has written so far, with 8 bytes of a stream of this length to come. -/
def Supplies (m : Memory Byte) (len : Nat) (e : State) : Prop :=
  e.enc.outlen.toNat + 8 ≤ len ∧ ∀ a, a < e.enc.outlen.toNat → Memory.read m a = Memory.read e.outBuf a

section Supplied

variable {m : Memory Byte} {len : Nat} {bs : List Byte} {s t : State}

theorem Supplies.of_emitted (h : Supplies m len t) (hemitted : Claims.Emitted bs s t) : Supplies m len s := by
  obtain ⟨hend, hsame⟩ := h
  obtain ⟨hlen, -, hframe⟩ := hemitted
  exact ⟨by omega, fun a ha => (hsame a (by omega)).trans (hframe a (.inl ha))⟩

/-- The emitted bytes stand in the buffer where ENC wrote them. -/
theorem Supplies.readAll (h : Supplies m len t) (hemitted : Claims.Emitted bs s t) :
    Memory.readAll m s.enc.outlen.toNat bs.length = some bs := by
  obtain ⟨-, hsame⟩ := h
  have hlen := hemitted.1
  exact (Memory.readAll_congr fun x _ hx => hsame x (by omega)).trans hemitted.readAll

theorem emitted_nil (hlen : t.enc.outlen = s.enc.outlen) (hbuf : t.outBuf = s.outBuf) : Claims.Emitted [] s t :=
  ⟨by rw [hlen]; rfl, nofun, fun a _ => by rw [hbuf]⟩

theorem encFinish_emitted (h : encFinish s = .next t) : Claims.Emitted Config.endMarker s t := by
  obtain ⟨hroom, rfl⟩ := encFinish_next h
  exact emitted_emitAll rfl rfl hroom

/-- Whatever a move of ENC does, it does not write below what is written. -/
theorem encMove_emitted (h : encMove s = .next t) : ∃ bs, Claims.Emitted bs s t := by
  rcases encMove_cases h with ⟨rfl, _⟩ | ⟨_, _, _, _, hpx⟩ | ⟨_, _, hfin⟩
  · exact ⟨[], emitted_nil rfl rfl⟩
  · rcases encPixelOf_cases hpx with ⟨_, _, hroom, rfl⟩ | ⟨_, _, rfl⟩ | ⟨_, hroom, rfl⟩
    · exact ⟨_, emitted_emitAll (by simp) (by simp) hroom⟩
    · exact ⟨[], emitted_nil rfl rfl⟩
    · exact ⟨_, emitted_emitAll (by simp) (by simp) hroom⟩
  · exact ⟨_, encFinish_emitted hfin⟩

theorem Supplies.of_moves {n : Nat} (h : Supplies m len t) (hmoves : moves encMove n s = .next t) :
    Supplies m len s := by
  induction n generalizing s with
  | zero => cases hmoves; exact h
  | succ n ih =>
    obtain ⟨v, hv, hmore⟩ := moves_succ_iff.mp hmoves
    obtain ⟨bs, hemitted⟩ := encMove_emitted hv
    exact (ih hmore).of_emitted hemitted

end Supplied

/-! ### How far ENC is -/

/-- The image a pass of ENC encodes: the pixels of `PIXIN`, opaque for 3 channels. -/
def imageOf (s : State) (j : Nat) : Option Pixel :=
  (Memory.read s.pixIn j).map (implicitAlpha s.enc.cfgChannels)

/-- What of ENC's registers the stream so far depends on, the counters as numbers. -/
structure Progress where
  prev : Pixel
  cache : Cache
  taken : Nat
  run : Nat
  written : Nat

def progress (e : Enc) : Progress := ⟨e.prev, e.cache, e.i.toNat, e.run.toNat, e.outlen.toNat⟩

theorem progress_emitAll {bs : List Byte} {s : State} (hroom : s.enc.outlen.toNat + bs.length ≤ s.outRoom.toNat) :
    progress (emitAll bs s).enc = { progress s.enc with written := s.enc.outlen.toNat + bs.length } := by
  simp [progress, emitAll_outlen_toNat hroom]

@[simp] theorem progress_prev (e : Enc) : (progress e).prev = e.prev := rfl
@[simp] theorem progress_cache (e : Enc) : (progress e).cache = e.cache := rfl
@[simp] theorem progress_taken (e : Enc) : (progress e).taken = e.i.toNat := rfl
@[simp] theorem progress_run (e : Enc) : (progress e).run = e.run.toNat := rfl
@[simp] theorem progress_written (e : Enc) : (progress e).written = e.outlen.toNat := rfl

/-- ENC chooses RUN for no pixel outside a run, and every other opcode yields one pixel. -/
theorem yieldedCount_selectOpcode (mode : DeltaArith) (cache : Cache) (prev px : Pixel) :
    yieldedCount (selectOpcode mode cache prev px) = 1 := by
  unfold selectOpcode selectDelta
  split_ifs <;> rfl

/-- What the pixel step on the pixel `p` emits, and how it moves ENC on (R164 to R174). -/
theorem encPixelOf_progress {s t : State} {p : Pixel} (hi : s.enc.i.toNat < s.enc.npix.toNat)
    (hrun : s.enc.run.toNat ≤ 61) (h : encPixelOf p s = .next t) :
    (implicitAlpha s.enc.cfgChannels p = s.enc.prev ∧ Claims.Emitted (encode (.run (s.enc.run.toNat + 1))) s t ∧
      progress t.enc = { progress s.enc with
        taken := s.enc.i.toNat + 1, run := 0, written := s.enc.outlen.toNat + 1 }) ∨
    (implicitAlpha s.enc.cfgChannels p = s.enc.prev ∧
      progress t.enc = { progress s.enc with taken := s.enc.i.toNat + 1, run := s.enc.run.toNat + 1 }) ∨
    ∃ op, op = selectOpcode s.deltaArith s.enc.cache s.enc.prev (implicitAlpha s.enc.cfgChannels p) ∧
      Claims.Emitted (flushBytes s.enc.run ++ encode op) s t ∧
      progress t.enc = {
        prev := implicitAlpha s.enc.cfgChannels p
        cache := cacheWrite s.enc.cache (implicitAlpha s.enc.cfgChannels p)
        taken := s.enc.i.toNat + 1
        run := 0
        written := s.enc.outlen.toNat + (flushBytes s.enc.run ++ encode op).length } := by
  have hgrown : (s.enc.run + 1).toNat = s.enc.run.toNat + 1 := by bv_omega
  rw [← toNat_succ_of_lt hi, ← hgrown]
  rcases encPixelOf_cases h with ⟨heq, _, hroom, rfl⟩ | ⟨heq, _, rfl⟩ | ⟨_, hroom, rfl⟩
  · exact .inl ⟨heq, emitted_emitAll (by simp) (by simp) hroom, progress_emitAll hroom⟩
  · exact .inr (.inl ⟨heq, rfl⟩)
  · exact .inr (.inr ⟨_, rfl, emitted_emitAll (by simp) (by simp) hroom, progress_emitAll hroom⟩)

/-! ### The pass, pixel by pixel -/

/-- A pass of ENC that began in `e` and has taken `m` pixels. -/
structure PassAt (e : State) (m : Nat) (s : State) : Prop where
  phase : s.enc.phase = .pix
  taken : s.enc.i.toNat = m
  npix : s.enc.npix = e.enc.npix
  image : imageOf s = imageOf e
  run : RunBounded s

theorem encPixelOf_npix_image {p : Pixel} {s t : State} (h : encPixelOf p s = .next t) :
    t.enc.npix = s.enc.npix ∧ imageOf t = imageOf s := by
  rcases encPixelOf_cases h with ⟨_, _, _, rfl⟩ | ⟨_, _, rfl⟩ | ⟨_, _, rfl⟩ <;> simp [imageOf, funext_iff]

/-- While pixels are left ENC's move is the pixel step on the next one. -/
theorem PassAt.pixel {e s t : State} {m : Nat} (hs : PassAt e m s) (hm : m < e.enc.npix.toNat)
    (h : encMove s = .next t) : ∃ p, Memory.read s.pixIn m = some p ∧ encPixelOf p s = .next t := by
  have hi : s.enc.i.toNat < s.enc.npix.toNat := by rw [hs.taken, hs.npix]; exact hm
  rcases encMove_cases h with ⟨_, hquiet⟩ | ⟨_, _, p, hread, hpx⟩ | ⟨_, hend, _⟩
  · exact absurd (hquiet hs.phase) (by omega)
  · exact ⟨p, hs.taken ▸ hread, hpx⟩
  · exact absurd (congrArg BitVec.toNat hend) (by omega)

theorem PassAt.succ {e s t : State} {m : Nat} (hs : PassAt e m s) (hm : m < e.enc.npix.toNat)
    (h : encMove s = .next t) : PassAt e (m + 1) t := by
  obtain ⟨p, -, hpx⟩ := hs.pixel hm h
  obtain ⟨hphase, -, hcount⟩ := encPixelOf_pass hpx
  obtain ⟨hnpix, himage⟩ := encPixelOf_npix_image hpx
  have hi : s.enc.i.toNat < s.enc.npix.toNat := by rw [hs.taken, hs.npix]; exact hm
  exact {
    phase := hphase.trans hs.phase
    taken := by rw [hcount, toNat_succ_of_lt hi, hs.taken]
    npix := hnpix.trans hs.npix
    image := himage.trans hs.image
    run := encMove_keeps_runBounded hs.run h }

theorem encMoves_passAt {e s : State} (he : PassAt e 0 e) {m : Nat} (hm : m ≤ e.enc.npix.toNat)
    (h : moves encMove m e = .next s) : PassAt e m s := by
  induction m generalizing s with
  | zero => cases h; exact he
  | succ m ih =>
    obtain ⟨v, hv, hlast⟩ := moves_succ_last h
    exact (ih (by omega) hv).succ hm hlast

/-- A pass that ends after a step a pixel and one more took every pixel, with no run pending, and finished. -/
theorem encPass_last {e t : State} (he : PassAt e 0 e) (h : moves encMove (e.enc.npix.toNat + 1) e = .next t) :
    ∃ r, moves encMove e.enc.npix.toNat e = .next r ∧ PassAt e e.enc.npix.toNat r ∧ r.enc.run = 0 ∧
      encFinish r = .next t := by
  obtain ⟨r, hpixels, hlast⟩ := moves_succ_last h
  have hr := encMoves_passAt he (le_refl _) hpixels
  have htaken : r.enc.i = r.enc.npix := BitVec.eq_of_toNat_eq (by rw [hr.taken, hr.npix])
  obtain ⟨-, hend⟩ := hr.run
  obtain ⟨-, hnone⟩ := hend hr.phase
  exact ⟨r, hpixels, hr, hnone htaken, encMove_finish hr.phase htaken ▸ hlast⟩

end Sys2Proof.Machine
end

