-- ==== Sys2Proof/Proofs/DecFollows.lean ====
section
/-! PROOF. DEC on ENC's stream, as a simulation: each pixel step of ENC is matched by the DEC moves, none to two, that run the
opcodes it emitted. DEC is behind ENC by the pending run, and its cache holds a pixel wherever ENC's does, though the two are
not the same everywhere: DEC writes the cache for a run and ENC does not (spec/90_conflicts.md C8). -/

namespace Sys2Proof.Machine

/-- A state of DEC's pass that began in `d`: no opcode changes anything else. -/
def SamePass (d u : State) : Prop :=
  ∃ prev cache pixcnt pos pixOut,
    u = { d with pixOut := pixOut, dec := { d.dec with prev := prev, cache := cache, pixcnt := pixcnt, pos := pos } }

/-- DEC, in its pass from `d`, has run every opcode ENC emitted on its way to `g`. The pending run is what DEC's pixels lack of
ENC's. `hits` and `own` are about the caches: DEC's holds every pixel ENC could find in its own, and the pixel ENC could find
in the slot of `prev`, which DEC overwrites in a run, is `prev`. -/
structure Follows (img : Nat → Option Pixel) (d : State) (g : Progress) (u : State) : Prop where
  frame : SamePass d u
  pos : u.dec.pos.toNat = g.written
  prev : u.dec.prev = g.prev
  count : u.dec.pixcnt.toNat + g.run = g.taken
  shown : ∀ j, j < u.dec.pixcnt.toNat → Memory.read u.pixOut j = img j
  pending : ∀ j, u.dec.pixcnt.toNat ≤ j → j < g.taken → img j = some g.prev
  hits : ∀ q, cacheRead g.cache (pixelHash q) = q → cacheRead u.dec.cache (pixelHash q) = q
  own : ∀ q, pixelHash q = pixelHash g.prev → cacheRead g.cache (pixelHash q) = q → q = g.prev

section Simulation

variable {img : Nat → Option Pixel} {d u v : State} {g : Progress}

theorem SamePass.stream (h : SamePass d u) :
    u.dec.phase = d.dec.phase ∧ u.inBuf = d.inBuf ∧ u.dec.cfgLen = d.dec.cfgLen ∧ u.pixOutRoom = d.pixOutRoom := by
  obtain ⟨_, _, _, _, _, rfl⟩ := h
  exact ⟨rfl, rfl, rfl, rfl⟩

theorem SamePass.header (h : SamePass d u) :
    u.dec.hdrWidth = d.dec.hdrWidth ∧ u.dec.hdrHeight = d.dec.hdrHeight ∧ u.dec.hdrChannels = d.dec.hdrChannels ∧
      u.dec.hdrColorspace = d.dec.hdrColorspace := by
  obtain ⟨_, _, _, _, _, rfl⟩ := h
  exact ⟨rfl, rfl, rfl, rfl⟩

theorem samePass_of_produced {len n : Nat} {p : Pixel} (h : Claims.Produced len n p u v) (hu : SamePass d u) :
    SamePass d v := by
  obtain ⟨_, _, _, _, _, rfl⟩ := hu
  obtain ⟨-, -, -, -, -, -, -, hframe⟩ := h
  exact ⟨_, _, _, _, _, hframe⟩

/-- A pixel equal to `prev` makes the pending run longer and asks nothing of DEC (R165). -/
theorem Follows.absorb (h : Follows img d g u) (hpx : img g.taken = some g.prev) :
    Follows img d { g with taken := g.taken + 1, run := g.run + 1 } u where
  frame := h.frame
  pos := h.pos
  prev := h.prev
  count := congrArg (· + 1) h.count
  shown := h.shown
  pending j hlo hhi := by
    rcases Nat.lt_succ_iff_lt_or_eq.mp hhi with hlt | rfl
    · exact h.pending j hlo hlt
    · exact hpx
  hits := h.hits
  own := h.own

/-- Pixels produced as the image has them bring DEC up to ENC, with no run pending. -/
theorem Follows.produced {len n taken : Nat} {p : Pixel} {cache : Cache} (h : Follows img d g u)
    (hproduced : Claims.Produced len n p u v) (hpos : v.dec.pos.toNat = g.written + len)
    (htaken : u.dec.pixcnt.toNat + n = taken)
    (himage : ∀ j, u.dec.pixcnt.toNat ≤ j → j < taken → img j = some p)
    (hothers : ∀ q, pixelHash q ≠ pixelHash p → cacheRead cache (pixelHash q) = q → cacheRead g.cache (pixelHash q) = q)
    (hown : ∀ q, pixelHash q = pixelHash p → cacheRead cache (pixelHash q) = q → q = p) :
    Follows img d { prev := p, cache := cache, taken := taken, run := 0, written := g.written + len } v := by
  have hframe := samePass_of_produced hproduced h.frame
  obtain ⟨hprev, hentry, hcache, hcount, -, hinside, houtside, -⟩ := hproduced
  refine ⟨hframe, hpos, hprev, hcount.trans htaken, fun j hj => ?shown, fun j hlo hhi => ?pending, fun q hq => ?hits, hown⟩
  case shown =>
    by_cases hold : j < u.dec.pixcnt.toNat
    · rw [houtside j (.inl hold), h.shown j hold]
    · obtain ⟨k, rfl⟩ := Nat.exists_eq_add_of_le (not_lt.mp hold)
      rw [hinside k (by omega), himage _ (by omega) (by omega)]
  case pending => exact absurd hhi (by simp only; omega)
  case hits =>
    by_cases hslot : pixelHash q = pixelHash p
    · rw [hslot, hentry, hown q hslot hq]
    · rw [hcache _ hslot, h.hits q (hothers q hslot hq)]

/-- In a pass, where the stream holds an opcode and `PIXOUT` has room, DEC's move produces its pixels. -/
theorem Follows.decMove_produced {i : Instr} (h : Follows img d g u) (hphase : d.dec.phase = .ops) (hwf : i.wf = true)
    (hall : Memory.readAll d.inBuf g.written (encode i).length = some (encode i))
    (hend : g.written + (encode i).length + 8 ≤ d.dec.cfgLen.toNat) (hsome : 1 ≤ yieldedCount i)
    (hroom : u.dec.pixcnt.toNat + yieldedCount i ≤ d.pixOutRoom.toNat) :
    ∃ v, decMove u = .next v ∧ Claims.Produced (encode i).length (yieldedCount i) (yieldedPixel i u.dec) u v ∧
      v.dec.pos.toNat = g.written + (encode i).length := by
  obtain ⟨hu, hinBuf, hlen, hspace⟩ := h.frame.stream
  rw [← h.pos, ← hinBuf] at hall
  rw [← h.pos, ← hlen] at hend
  rw [← hspace] at hroom
  obtain ⟨v, hexec, hproduced⟩ := exec_produced hsome hroom
  rw [← encode_length] at hproduced
  refine ⟨v, (decMove_encode (hu.trans hphase) hwf hall hend).trans hexec, hproduced, ?_⟩
  obtain ⟨-, -, -, -, hpos, -⟩ := hproduced
  rw [hpos, toNat_add_ofNat_of_le (len := u.dec.cfgLen) (by omega), h.pos]

/-- DEC runs the RUN that ends a pending run (R205). -/
theorem Follows.flush (h : Follows img d g u) (hphase : d.dec.phase = .ops) (hlo : 1 ≤ g.run) (hhi : g.run ≤ 62)
    (hall : Memory.readAll d.inBuf g.written (encode (.run g.run)).length = some (encode (.run g.run)))
    (hend : g.written + 1 + 8 ≤ d.dec.cfgLen.toNat) (hroom : g.taken ≤ d.pixOutRoom.toNat) :
    ∃ v, decMove u = .next v ∧ Follows img d { g with run := 0, written := g.written + 1 } v := by
  have hcount := h.count
  obtain ⟨v, hmove, hproduced, hpos⟩ := h.decMove_produced (i := .run g.run) hphase
    ((Instr.wf_run_iff _).mpr ⟨hlo, hhi⟩) hall hend hlo (hcount ▸ hroom)
  rw [yieldedPixel, h.prev] at hproduced
  exact ⟨v, hmove, h.produced hproduced hpos hcount h.pending (fun _ _ hq => hq) h.own⟩

/-- DEC runs the opcode ENC chose for a pixel and has the pixel (R206 to R210). -/
theorem Follows.literal {mode : DeltaArith} {px : Pixel} {op : Instr} (h : Follows img d g u)
    (hphase : d.dec.phase = .ops) (hrun : g.run = 0) (hpx : img g.taken = some px)
    (hop : op = selectOpcode mode g.cache g.prev px)
    (hall : Memory.readAll d.inBuf g.written (encode op).length = some (encode op))
    (hend : g.written + (encode op).length + 8 ≤ d.dec.cfgLen.toNat) (hroom : g.taken + 1 ≤ d.pixOutRoom.toNat) :
    ∃ v, decMove u = .next v ∧ Follows img d
      { prev := px, cache := cacheWrite g.cache px, taken := g.taken + 1, run := 0,
        written := g.written + (encode op).length } v := by
  have hcount := h.count
  have hone : yieldedCount op = 1 := by rw [hop]; exact yieldedCount_selectOpcode ..
  have hpixel : yieldedPixel op u.dec = px := by
    rw [hop, ← h.prev]
    exact yieldedPixel_selectOpcode mode g.cache px u.dec (h.hits px)
  obtain ⟨v, hmove, hproduced, hpos⟩ := h.decMove_produced (i := op) hphase (hop ▸ selectOpcode_wf ..) hall hend
    (by omega) (by omega)
  rw [hone, hpixel] at hproduced
  refine ⟨v, hmove, h.produced hproduced hpos (by omega) (fun j hlo hhi => ?image) (fun q hslot hq => ?others)
    fun q hslot hq => ?own⟩
  case image => rw [show j = g.taken by omega, hpx]
  case others => rwa [cacheRead_cacheWrite_of_ne _ _ hslot] at hq
  case own => rw [← hq, hslot, cacheRead_cacheWrite_hash]

/-- DEC runs the pending run's opcode, if there is one (R167). -/
theorem Follows.flushPending {run : BitVec 6} (h : Follows img d g u) (hphase : d.dec.phase = .ops)
    (hg : g.run = run.toNat) (hrun : run.toNat ≤ 62)
    (hall : Memory.readAll d.inBuf g.written (flushBytes run).length = some (flushBytes run))
    (hend : g.written + (flushBytes run).length + 8 ≤ d.dec.cfgLen.toNat) (hroom : g.taken ≤ d.pixOutRoom.toNat) :
    ∃ n v, moves decMove n u = .next v ∧
      Follows img d { g with run := 0, written := g.written + (flushBytes run).length } v := by
  unfold flushBytes at hall hend ⊢
  split_ifs at hall hend ⊢ with hzero
  · have hnone : g.run = 0 := by simp [hg, hzero]
    exact ⟨0, u, rfl, by rw [← hnone]; exact h⟩
  · rw [← hg] at hall hend ⊢
    obtain ⟨v, hmove, hv⟩ := h.flush hphase (by bv_omega) (hg ▸ hrun) hall hend hroom
    exact ⟨1, v, moves_one hmove, hv⟩

/-- The simulation's step: DEC's moves for a pixel step of ENC. -/
theorem Follows.pixelStep {s t : State} {p : Pixel} (h : Follows img d (progress s.enc) u)
    (hphase : d.dec.phase = .ops) (hi : s.enc.i.toNat < s.enc.npix.toNat) (hrun : s.enc.run.toNat ≤ 61)
    (hroom : s.enc.npix.toNat ≤ d.pixOutRoom.toNat)
    (hpx : img s.enc.i.toNat = some (implicitAlpha s.enc.cfgChannels p))
    (hsupplies : Supplies d.inBuf d.dec.cfgLen.toNat t) (hstep : encPixelOf p s = .next t) :
    ∃ n v, moves decMove n u = .next v ∧ Follows img d (progress t.enc) v := by
  have htaken : (progress s.enc).taken + 1 ≤ d.pixOutRoom.toNat := hi.trans_le hroom
  have ⟨hend, _⟩ := hsupplies
  rcases encPixelOf_progress hi hrun hstep with ⟨heq, hemitted, ht⟩ | ⟨heq, ht⟩ | ⟨op, hop, hemitted, ht⟩
  case inl =>
    rw [hemitted.1] at hend
    obtain ⟨v, hmove, hv⟩ := (h.absorb (hpx.trans (congrArg some heq))).flush hphase (Nat.le_add_left 1 _)
      (Nat.succ_le_succ hrun) (hsupplies.readAll hemitted) hend htaken
    exact ⟨1, v, moves_one hmove, ht ▸ hv⟩
  case inr.inl => exact ⟨0, u, rfl, ht ▸ h.absorb (hpx.trans (congrArg some heq))⟩
  case inr.inr =>
    have hall := hsupplies.readAll hemitted
    rw [List.length_append, Memory.readAll_append_iff rfl] at hall
    obtain ⟨hflush, hopcode⟩ := hall
    rw [hemitted.1, List.length_append, ← Nat.add_assoc, ← progress_written] at hend
    rw [List.length_append, ← Nat.add_assoc] at ht
    obtain ⟨n, w, hmoves, hw⟩ := h.flushPending hphase rfl (by omega) hflush (by omega) (by omega)
    obtain ⟨v, hmove, hv⟩ := hw.literal hphase rfl hpx hop hopcode hend htaken
    exact ⟨n + 1, v, moves_trans hmoves (moves_one hmove), ht ▸ hv⟩

/-- Where ENC wrote the end marker DEC finishes (R212). -/
theorem Follows.finish (h : Follows img d g u) (hphase : d.dec.phase = .ops) (hend : g.written + 8 = d.dec.cfgLen.toNat) :
    decMove u = .next (decFinish u) := by
  obtain ⟨hu, -, hlen, -⟩ := h.frame.stream
  exact decMove_finish (hu.trans hphase) (by rw [h.pos, hlen, hend])

/-- While ENC takes pixels, DEC on the stream that comes of it follows. -/
theorem encMoves_followed {e s : State} (he : PassAt e 0 e) (hd : Follows (imageOf e) d (progress e.enc) d)
    (hphase : d.dec.phase = .ops) (hroom : e.enc.npix.toNat ≤ d.pixOutRoom.toNat) {m : Nat} (hm : m ≤ e.enc.npix.toNat)
    (hsupplies : Supplies d.inBuf d.dec.cfgLen.toNat s) (hmoves : moves encMove m e = .next s) :
    ∃ n u, moves decMove n d = .next u ∧ Follows (imageOf e) d (progress s.enc) u := by
  induction m generalizing s with
  | zero => cases hmoves; exact ⟨0, d, rfl, hd⟩
  | succ m ih =>
    obtain ⟨r, hbefore, hlast⟩ := moves_succ_last hmoves
    have hr := encMoves_passAt he (by omega) hbefore
    obtain ⟨p, hread, hpx⟩ := hr.pixel hm hlast
    obtain ⟨bs, hemitted⟩ := encMove_emitted hlast
    obtain ⟨n, u, hn, hu⟩ := ih (by omega) (hsupplies.of_emitted hemitted) hbefore
    have himage : imageOf e r.enc.i.toNat = some (implicitAlpha r.enc.cfgChannels p) := by
      rw [← hr.image, imageOf, hr.taken, hread, Option.map_some]
    obtain ⟨k, v, hk, hv⟩ := hu.pixelStep hphase (by rw [hr.taken, hr.npix]; exact hm) hr.run.1 (hr.npix ▸ hroom)
      himage hsupplies hpx
    exact ⟨n + k, v, moves_trans hn hk, hv⟩

end Simulation

end Sys2Proof.Machine
end

