-- ==== Sys2Proof/Proofs/RoundTrip.lean ====
section
/-! PROOF. DEC's pass on the bytes an ENC pass wrote gives its image back (spec/43_decoder.md R215): the two passes begin alike,
and DEC follows ENC to the end. -/

namespace Sys2Proof.Machine

/-! ### Both passes begin alike -/

/-- What a start of ENC that begins a pass leaves (R161, R163). -/
theorem encStart_pass {s e : State} (hstart : encStart s = .next e) (hp : e.enc.phase = .pix) :
    PassAt e 0 e ∧ progress e.enc = ⟨Pixel.seed, Cache.clear, 0, 0, 14⟩ ∧
    imageOf e = (fun j => (Memory.read s.pixIn j).map (implicitAlpha s.enc.channels)) ∧
    Memory.present s.pixIn e.enc.npix.toNat = true ∧
    Memory.readAll e.outBuf 0 14 =
      some (headerBytes s.enc.width s.enc.height s.enc.channels s.enc.colorspace) := by
  have hrun := encStart_runBounded hstart
  rcases encStart_next hstart with ⟨_, rfl⟩ | ⟨_, _, hinput, hroom, rfl⟩
  · simp at hp
  · have hemitted := emitted_emitAll (s := encBegin s)
      (bs := headerBytes s.enc.width s.enc.height s.enc.channels s.enc.colorspace)
      (u := { encBegin s with enc := { (encBegin s).enc with phase := .pix } }) rfl rfl
      (by simpa [headerBytes_length, encBegin] using hroom)
    refine ⟨⟨hp, by simp [encBegin], rfl, rfl, hrun⟩, ?_, ?_, by simpa using hinput, hemitted.readAll⟩
    · rw [progress, hemitted.1]
      simp [encBegin, headerBytes_length]
    · simp [imageOf, encBegin, funext_iff]

/-- DEC's fresh pass follows ENC's: R31's cache and R30's seed are the same, and no pixel ENC could find shares the slot of
the seed. -/
theorem follows_decEnter (img : Nat → Option Pixel) (w h : Word) (c cs : Byte) (s : State) :
    Follows img (decEnter w h c cs (decBegin s)) ⟨Pixel.seed, Cache.clear, 0, 0, 14⟩ (decEnter w h c cs (decBegin s)) where
  frame := ⟨_, _, _, _, _, rfl⟩
  pos := rfl
  prev := rfl
  count := rfl
  shown j hj := absurd hj (Nat.not_lt_zero j)
  pending j _ hj := absurd hj (Nat.not_lt_zero j)
  hits _ hq := hq
  own q hslot hq := by
    rw [cacheRead_clear_pixelHash_eq_iff] at hq
    subst hq
    exact absurd hslot (by decide)

/-- A start of DEC on a framed stream that is not refused begins a pass. -/
theorem decStart_framed_next {s d : State} {w h : Word} {c cs : Byte} (hlen : 22 ≤ s.dec.len.toNat)
    (hheader : Memory.readAll s.inBuf 0 14 = some (headerBytes w h c cs))
    (hmarker : Memory.readAll s.inBuf (s.dec.len.toNat - 8) 8 = some [0, 0, 0, 0, 0, 0, 0, 1])
    (hstart : decStart s = .next d) : d = decEnter w h c cs (decBegin s) := by
  obtain ⟨hmagic, -⟩ := header_fields hheader
  rcases decStart_next hstart with ⟨x, hfails, -⟩ | ⟨-, hpresent, hsize, -⟩
  · rw [headerCheck_of_framed hlen hmagic hmarker] at hfails
    cases hfails
  · rw [decStart_of_framed hlen hsize hpresent hheader hmarker] at hstart
    cases hstart
    rfl

/-! ### The stream handed over -/

/-- Keeping the entries below an index keeps what is read there. -/
theorem Memory.read_filter_of_lt {α : Type} (m : Memory α) {n a : Nat} (ha : a < n) :
    Memory.read (m.filter fun c => decide (c.1 < n)) a = Memory.read m a := by
  induction m with
  | nil => rfl
  | cons c t ih =>
    obtain ⟨b, v⟩ := c
    rw [List.filter_cons, Memory.read_cons]
    by_cases hb : b < n
    · rw [if_pos (by simpa using hb), Memory.read_cons, ih]
    · rw [if_neg (by simpa using hb), ih, if_neg (by omega)]

theorem read_handOver {t : State} {a : Nat} (room : Index) (ha : a < t.enc.outlen.toNat) :
    Memory.read (Claims.handOver room t).inBuf a = Memory.read t.outBuf a := Memory.read_filter_of_lt _ ha

/-- After the finish step the buffer handed over supplies all that was written before it, and then the end marker. -/
theorem supplies_handOver {s t : State} {room : Index} (h : encFinish s = .next t) :
    t.enc.outlen.toNat = s.enc.outlen.toNat + 8 ∧
    Supplies (Claims.handOver room t).inBuf t.enc.outlen.toNat s ∧
    Memory.readAll (Claims.handOver room t).inBuf (t.enc.outlen.toNat - 8) 8 = some [0, 0, 0, 0, 0, 0, 0, 1] := by
  have hemitted := encFinish_emitted h
  have hmarker := hemitted.readAll
  obtain ⟨hlen, -, hframe⟩ := hemitted
  refine ⟨hlen, ⟨hlen.ge, fun a ha => ?_⟩, ?_⟩
  · exact (read_handOver room (by omega)).trans (hframe a (.inl ha))
  · rw [hlen, show s.enc.outlen.toNat + Config.endMarker.length - 8 = s.enc.outlen.toNat from Nat.add_sub_cancel ..]
    exact (Memory.readAll_congr fun a _ ha => read_handOver room (hlen ▸ ha)).trans hmarker

end Sys2Proof.Machine

namespace Sys2Proof.Claims

open Sys2Proof.Machine

/-- Settles O60: DEC follows ENC to its last pixel, where no run is pending and the end marker stands. -/
theorem decodingAnEncodedImageGivesItBack : Obligations.DecodingAnEncodedImageGivesItBack := by
  intro s e t d room hstart hp hmoves hroom hdec
  obtain ⟨he, hbegin, himage, hpresent, hheader⟩ := encStart_pass hstart hp
  obtain ⟨r, hpixels, hr, hrun, hlast⟩ := encPass_last he hmoves
  obtain ⟨hlen, hsupplies, hmarker⟩ := supplies_handOver (room := room) hlast
  have hfollows : Follows (imageOf e) _ (progress e.enc) _ := hbegin ▸ follows_decEnter (imageOf e)
    s.enc.width s.enc.height s.enc.channels s.enc.colorspace (handOver room t)
  obtain rfl : d = decEnter s.enc.width s.enc.height s.enc.channels s.enc.colorspace (decBegin (handOver room t)) := by
    have hwritten : e.enc.outlen.toNat = 14 := congrArg Progress.written hbegin
    obtain ⟨hlong, hsame⟩ := hsupplies.of_moves hpixels
    rw [hwritten] at hlong hsame
    exact decStart_framed_next hlong ((Memory.readAll_congr fun a _ => hsame a).trans hheader) hmarker hdec
  obtain ⟨n, u, hn, hu⟩ := encMoves_followed he hfollows rfl hroom (le_refl _) hsupplies hpixels
  have hcount : u.dec.pixcnt = e.enc.npix := BitVec.eq_of_toNat_eq (by simpa [hrun, hr.taken] using hu.count)
  obtain ⟨hwidth, hheight, hchannels, hspace⟩ := hu.frame.header
  refine ⟨n + 1, decFinish u, moves_trans hn (moves_one (hu.finish rfl hlen.symm)), rfl, hwidth, hheight, hchannels, hspace,
    hcount, fun j hj => ?_⟩
  obtain ⟨p, hread⟩ := Memory.read_of_present hpresent hj
  refine ⟨p, hread, ?_⟩
  rw [decFinish_pixOut, hu.shown j (hcount ▸ hj), himage, ← implicitAlpha_eq_asEncoded]
  exact congrArg (Option.map _) hread

end Sys2Proof.Claims
end

