-- ==== Sys2Proof/Proofs/ErrorRegisters.lean ====
section
/-! PROOF. The error registers of each unit stay at a combination the spec lists (spec/60_exceptions.md R246, spec/10_state.md
R36): a unit outside ERROR holds zeros, ENC fails with its channel error only, DEC with a header check's format error or a
truncated opcode. -/

namespace Sys2Proof.Machine

/-- The half of `ErrorRegistersLegal` about ENC's registers. -/
def Enc.ErrorsLegal (e : Enc) : Prop :=
  (e.phase = .error → e.errcode = 2 ∧ e.errdetail = 0) ∧ (e.phase ≠ .error → e.errcode = 0 ∧ e.errdetail = 0)

/-- The half of `ErrorRegistersLegal` about DEC's registers. -/
def Dec.ErrorsLegal (d : Dec) : Prop :=
  (d.phase = .error →
    (d.errcode = 1 ∧ (d.errdetail = 1 ∨ d.errdetail = 2 ∨ d.errdetail = 3)) ∨ (d.errcode = 4 ∧ d.errdetail = 1)) ∧
  (d.phase ≠ .error → d.errcode = 0 ∧ d.errdetail = 0)

theorem errorRegistersLegal_iff (s : State) : ErrorRegistersLegal s ↔ s.enc.ErrorsLegal ∧ s.dec.ErrorsLegal :=
  and_assoc.symm

/-! ### ENC -/

theorem Enc.ErrorsLegal.of_no_error {e : Enc} (hp : e.phase ≠ .error) (hcode : e.errcode = 0) (hdetail : e.errdetail = 0) :
    e.ErrorsLegal :=
  ⟨fun h => absurd h hp, fun _ => ⟨hcode, hdetail⟩⟩

theorem encPixelOf_errors {p : Pixel} {s t : State} (h : encPixelOf p s = .next t) :
    t.enc.errcode = s.enc.errcode ∧ t.enc.errdetail = s.enc.errdetail := by
  rcases encPixelOf_cases h with ⟨_, _, _, rfl⟩ | ⟨_, _, rfl⟩ | ⟨_, _, rfl⟩ <;> simp

/-- A step of ENC's pass raises no error: it leaves the zeros of the pass as they are. -/
theorem encMove_keeps_errorsLegal {s t : State} (hs : s.enc.ErrorsLegal) (h : encMove s = .next t) :
    t.enc.ErrorsLegal := by
  rcases encMove_cases h with ⟨rfl, _⟩ | ⟨hp, _, _, _, hpx⟩ | ⟨hp, _, hfin⟩
  case inl => exact hs
  all_goals obtain ⟨hcode, hdetail⟩ := hs.2 (by simp [hp])
  case inr.inl =>
    obtain ⟨hphase, -⟩ := encPixelOf_pass hpx
    obtain ⟨hcode', hdetail'⟩ := encPixelOf_errors hpx
    exact .of_no_error (by simp [hphase, hp]) (hcode'.trans hcode) (hdetail'.trans hdetail)
  case inr.inr =>
    obtain ⟨-, rfl⟩ := encFinish_next hfin
    exact .of_no_error (by simp) (by simpa using hcode) (by simpa using hdetail)

/-- ENC's start raises ChannelError, with detail 0, or clears the registers and enters the pass (R161, R162). -/
theorem encStart_errorsLegal {s t : State} (h : encStart s = .next t) : t.enc.ErrorsLegal := by
  rcases encStart_next h with ⟨_, rfl⟩ | ⟨_, _, _, _, rfl⟩
  · exact ⟨fun _ => ⟨rfl, rfl⟩, fun hp => absurd rfl hp⟩
  · exact .of_no_error (by simp) (by simp [encBegin]) (by simp [encBegin])

theorem hostMove_keeps_enc_errorsLegal {s t : State} (hs : s.enc.ErrorsLegal) (h : hostMove s = .next t) :
    t.enc.ErrorsLegal := by
  rcases hostMove_enc h with he | ⟨_, _, _, _, _, he⟩ | ⟨_, _, _, _, hstart⟩ | he
  · exact he ▸ hs
  · rw [he]
    exact hs
  · exact encStart_errorsLegal hstart
  · exact he ▸ .of_no_error nofun rfl rfl

/-! ### DEC -/

theorem Dec.ErrorsLegal.of_no_error {d : Dec} (hp : d.phase ≠ .error) (hcode : d.errcode = 0) (hdetail : d.errdetail = 0) :
    d.ErrorsLegal :=
  ⟨fun h => absurd h hp, fun _ => ⟨hcode, hdetail⟩⟩

/-- An opcode that completes writes neither the phase nor the error registers; one that does not is truncated, since no byte
is unrecognized (R216). -/
theorem decOpcode_keeps_errorsLegal {s t : State} (hs : s.dec.ErrorsLegal) (h : decOpcode s = .next t) :
    t.dec.ErrorsLegal := by
  rcases decOpcode_cases h with ⟨i, _, hexec⟩ | ⟨_, rfl⟩ | ⟨hfetch, _⟩
  · obtain ⟨-, rfl⟩ := exec_next hexec
    unfold Dec.ErrorsLegal at hs ⊢
    simpa using hs
  · exact ⟨fun _ => .inr ⟨rfl, rfl⟩, fun hp => absurd rfl hp⟩
  · exact absurd hfetch (fetch_ne_unrecognized _ _ _)

theorem decMove_keeps_errorsLegal {s t : State} (hs : s.dec.ErrorsLegal) (h : decMove s = .next t) :
    t.dec.ErrorsLegal := by
  rcases decMove_cases h with ⟨rfl, _⟩ | ⟨_, _, hop⟩ | ⟨hp, _, rfl⟩
  · exact hs
  · exact decOpcode_keeps_errorsLegal hs hop
  · obtain ⟨hcode, hdetail⟩ := hs.2 (by simp [hp])
    exact .of_no_error (by simp) hcode hdetail

/-- DEC's start raises FormatError with a header check's detail, or clears the registers and enters the pass (R201, R202). -/
theorem decStart_errorsLegal {s t : State} (h : decStart s = .next t) : t.dec.ErrorsLegal := by
  rcases decStart_next h with ⟨_, hcheck, rfl⟩ | ⟨_, _, _, _, _, _, _, _, _, _, _, rfl⟩
  · exact ⟨fun _ => .inl ⟨rfl, headerCheck_some hcheck⟩, fun hp => absurd rfl hp⟩
  · exact .of_no_error nofun rfl rfl

theorem hostMove_keeps_dec_errorsLegal {s t : State} (hs : s.dec.ErrorsLegal) (h : hostMove s = .next t) :
    t.dec.ErrorsLegal := by
  rcases hostMove_dec h with hd | ⟨_, _, hd⟩ | ⟨_, _, _, hstart⟩ | hd
  · exact hd ▸ hs
  · rw [hd]
    exact hs
  · exact decStart_errorsLegal hstart
  · exact hd ▸ .of_no_error nofun rfl rfl

end Sys2Proof.Machine

namespace Sys2Proof.Claims

open Sys2Proof.Machine

/-- Settles O54: a unit's registers are written by its own moves, its start and reset, and each leaves them legal. -/
theorem everyStepKeepsErrorRegistersLegal : Obligations.EveryStepKeepsErrorRegistersLegal := by
  intro s t hs h
  rw [errorRegistersLegal_iff] at hs ⊢
  obtain ⟨henc, hdec⟩ := hs
  rcases step_cases h with hmove | hmove | hmove
  · exact ⟨encMove_keeps_errorsLegal (s := popTurn s) henc hmove, encMove_dec hmove ▸ hdec⟩
  · exact ⟨decMove_enc hmove ▸ henc, decMove_keeps_errorsLegal (s := popTurn s) hdec hmove⟩
  · exact ⟨hostMove_keeps_enc_errorsLegal (s := popTurn s) henc hmove,
      hostMove_keeps_dec_errorsLegal (s := popTurn s) hdec hmove⟩

end Sys2Proof.Claims
end

