-- ==== Sys2Proof/Proofs/ErrorEntryAndExit.lean ====
section
/-! PROOF. How a unit enters ERROR (spec/60_exceptions.md R247) and leaves it (R251): its own turn never does, and of the host's
moves only a start command it takes (R258) and power-on reset write its phase. -/

namespace Sys2Proof.Machine

/-! ### The start commands -/

theorem encCommand_of_no_start {v : Word} (hv : v.getLsbD 0 = false) (s : State) : encCommand v s = .next s := by
  rw [encCommand, hv]
  rfl

theorem encCommand_of_busy {s : State} (hp : s.enc.phase = .pix) (v : Word) : encCommand v s = .next s := by
  simp [encCommand, encBusy, hp]

theorem encCommand_of_start {v : Word} {s : State} (hv : v.getLsbD 0 = true) (hp : s.enc.phase ≠ .pix) :
    encCommand v s = encStart s := by
  rw [encCommand, hv, encBusy, beq_false_of_ne hp]
  rfl

theorem decCommand_of_no_start {v : Word} (hv : v.getLsbD 0 = false) (s : State) : decCommand v s = .next s := by
  rw [decCommand, hv]
  rfl

theorem decCommand_of_busy {s : State} (hp : s.dec.phase = .ops) (v : Word) : decCommand v s = .next s := by
  simp [decCommand, decBusy, hp]

theorem decCommand_of_start {v : Word} {s : State} (hv : v.getLsbD 0 = true) (hp : s.dec.phase ≠ .ops) :
    decCommand v s = decStart s := by
  rw [decCommand, hv, decBusy, beq_false_of_ne hp]
  rfl

/-- A command to ENC changes its phase with START = 1 only, and leaves DEC alone. -/
theorem encCommand_next {v : Word} {s t : State} (h : encCommand v s = .next t) :
    (t.enc.phase = s.enc.phase ∨ v.getLsbD 0 = true) ∧ t.dec = s.dec := by
  unfold encCommand at h
  split_ifs at h with hstart
  · exact ⟨.inr (Bool.and_eq_true_iff.mp hstart).1, encStart_dec h⟩
  · cases h
    exact ⟨.inl rfl, rfl⟩

/-- A command to DEC changes its phase with START = 1 only, and leaves ENC alone. -/
theorem decCommand_next {v : Word} {s t : State} (h : decCommand v s = .next t) :
    (t.dec.phase = s.dec.phase ∨ v.getLsbD 0 = true) ∧ t.enc = s.enc := by
  unfold decCommand at h
  split_ifs at h with hstart
  · exact ⟨.inr (Bool.and_eq_true_iff.mp hstart).1, decStart_enc h⟩
  · cases h
    exact ⟨.inl rfl, rfl⟩

/-! ### The host's moves that reach a phase -/

theorem regAt_eq_encCtrl {off : Nat} (h : regAt off = some .encCtrl) : off = 0x00 := by
  unfold regAt at h
  split at h <;> cases h
  rfl

theorem regAt_eq_decCtrl {off : Nat} (h : regAt off = some .decCtrl) : off = 0x40 := by
  unfold regAt at h
  split at h <;> cases h
  rfl

/-- A write reaches a unit's phase through the two control registers only. -/
theorem writeReg_phases {r : Reg} {v : Word} {s t : State} (h : writeReg r v s = .next t) :
    (r = .encCtrl ∧ encCommand v s = .next t) ∨ (r = .decCtrl ∧ decCommand v s = .next t) ∨
    (t.enc.phase = s.enc.phase ∧ t.dec.phase = s.dec.phase) := by
  cases r
  case encCtrl => exact .inl ⟨rfl, h⟩
  case decCtrl => exact .inr (.inl ⟨rfl, h⟩)
  case encWidth | encHeight | encChannels | encColorspace | decLenLo | decLenHi =>
    simp only [writeReg, writeEncConfig, writeDecLen] at h
    split_ifs at h <;> cases h <;> exact .inr (.inr ⟨rfl, rfl⟩)
  all_goals
    cases h
    exact .inr (.inr ⟨rfl, rfl⟩)

/-- Only reset and the write of a register reach the units; every other move is a read or about a buffer. -/
theorem perform_units {m : HostMove} {s t : State} (h : perform m s = .next t) :
    m = .powerOnReset ∨ (∃ off r v, m = .regWrite .word off v ∧ regAt off = some r ∧ writeReg r v s = .next t) ∨
    (t.enc = s.enc ∧ t.dec = s.dec) := by
  cases m with
  | powerOnReset => exact .inl rfl
  | regWrite size off v =>
    cases size
    case word =>
      cases hreg : regAt off with
      | none =>
        cases (perform_write_reserved hreg v s).symm.trans h
        exact .inr (.inr ⟨rfl, rfl⟩)
      | some r =>
        simp only [perform, writeAt, hreg] at h
        exact .inr (.inl ⟨off, r, v, rfl, hreg, h⟩)
    all_goals cases h
  | regRead size off =>
    cases size
    case word =>
      cases h
      rw [readReg_spec]
      exact .inr (.inr ⟨rfl, rfl⟩)
    all_goals cases h
  | readOut a =>
    cases h
    rw [readOut_spec]
    exact .inr (.inr ⟨rfl, rfl⟩)
  | readPixOut i =>
    cases h
    rw [readPixOut_spec]
    exact .inr (.inr ⟨rfl, rfl⟩)
  | _ =>
    simp only [perform, placePixIn, placeIn, provideOut, providePixOut, outToIn] at h
    split_ifs at h
    cases h
    exact .inr (.inr ⟨rfl, rfl⟩)

/-- What takes a unit out of ERROR (R251): power-on reset, or START = 1 written to its control register at offset `ctrl`. -/
def Restarts (ctrl : Nat) (m : HostMove) : Prop :=
  m = .powerOnReset ∨ ∃ v : Word, m = .regWrite .word ctrl v ∧ v.getLsbD 0 = true

theorem perform_phases {m : HostMove} {s t : State} (h : perform m s = .next t) :
    (t.enc.phase = s.enc.phase ∨ Restarts 0x00 m) ∧ (t.dec.phase = s.dec.phase ∨ Restarts 0x40 m) := by
  rcases perform_units h with rfl | ⟨off, r, v, rfl, hreg, hwrite⟩ | ⟨he, hd⟩
  case inl => exact ⟨.inr (.inl rfl), .inr (.inl rfl)⟩
  case inr.inr => exact ⟨.inl (by rw [he]), .inl (by rw [hd])⟩
  case inr.inl =>
    rcases writeReg_phases hwrite with ⟨rfl, hcmd⟩ | ⟨rfl, hcmd⟩ | ⟨he, hd⟩
    · obtain ⟨he, hd⟩ := encCommand_next hcmd
      obtain rfl := regAt_eq_encCtrl hreg
      exact ⟨he.imp_right fun hv => .inr ⟨v, rfl, hv⟩, .inl (by rw [hd])⟩
    · obtain ⟨hd, he⟩ := decCommand_next hcmd
      obtain rfl := regAt_eq_decCtrl hreg
      exact ⟨.inl (by rw [he]), hd.imp_right fun hv => .inr ⟨v, rfl, hv⟩⟩
    · exact ⟨.inl he, .inl hd⟩

theorem hostMove_phases {s t : State} (h : hostMove s = .next t) :
    (t.enc.phase = s.enc.phase ∨ ∃ m rest, s.host = m :: rest ∧ Restarts 0x00 m) ∧
    (t.dec.phase = s.dec.phase ∨ ∃ m rest, s.host = m :: rest ∧ Restarts 0x40 m) := by
  rcases hostMove_cases h with rfl | ⟨m, rest, hhost, hm⟩
  · exact ⟨.inl rfl, .inl rfl⟩
  · obtain ⟨he, hd⟩ := perform_phases hm
    exact ⟨he.imp_right fun hr => ⟨m, rest, hhost, hr⟩, hd.imp_right fun hr => ⟨m, rest, hhost, hr⟩⟩

/-! ### The units' own turns -/

/-- ENC's own turn does not leave ERROR (R248). -/
theorem encMove_keeps_error {s t : State} (hp : s.enc.phase = .error) (h : encMove s = .next t) :
    t.enc.phase = .error := by
  cases (encMove_quiet (by simp [hp])).symm.trans h
  exact hp

/-- DEC's own turn does not leave ERROR (R248). -/
theorem decMove_keeps_error {s t : State} (hp : s.dec.phase = .error) (h : decMove s = .next t) :
    t.dec.phase = .error := by
  cases (decMove_quiet (by simp [hp])).symm.trans h
  exact hp

end Sys2Proof.Machine

namespace Sys2Proof.Claims

open Sys2Proof.Machine

/-- Settles O37: by the definition of taking an error and the table of codes. -/
theorem errorEntryRecordsKind : Obligations.ErrorEntryRecordsKind :=
  fun _ _ _ => ⟨rfl, rfl, rfl, rfl, rfl, rfl, rfl⟩

/-- Settles O38: the units' turns keep a unit in ERROR there, and a move of the host that changes its phase restarts it. -/
theorem errorLeftOnlyByStartOrReset : Obligations.ErrorLeftOnlyByStartOrReset := by
  intro s t h
  rcases step_cases h with hmove | hmove | hmove
  · exact ⟨fun hp hleft => absurd (encMove_keeps_error (s := popTurn s) hp hmove) hleft,
      fun hp hleft => absurd (encMove_dec hmove ▸ hp) hleft⟩
  · exact ⟨fun hp hleft => absurd (decMove_enc hmove ▸ hp) hleft,
      fun hp hleft => absurd (decMove_keeps_error (s := popTurn s) hp hmove) hleft⟩
  · obtain ⟨henc, hdec⟩ := hostMove_phases hmove
    exact ⟨fun hp hleft => henc.resolve_left fun hsame => hleft (hsame.trans hp),
      fun hp hleft => hdec.resolve_left fun hsame => hleft (hsame.trans hp)⟩

/-- Settles O39: a write at a control register's offset is the unit's command. -/
theorem startCommandOnlyWhenNotBusy : Obligations.StartCommandOnlyWhenNotBusy :=
  fun v s => ⟨fun hp => encCommand_of_busy hp v, fun hp => decCommand_of_busy hp v,
    fun hv => ⟨encCommand_of_no_start hv s, decCommand_of_no_start hv s⟩, encCommand_of_start, decCommand_of_start⟩

end Sys2Proof.Claims
end

