-- ==== Sys2Proof/Proofs/EncPassEnds.lean ====
section
/-! PROOF. A pass of ENC that has its input and room for R179's bound ends in DONE (spec/70_reset_and_hazards.md R291): a step a
pixel, none of which can be stuck, and then the finish step. -/

namespace Sys2Proof.Machine

/-- A pass of ENC that cannot get stuck: the invariants R179's bound rests on, every input pixel, and room for the bound. -/
structure EncReady (s : State) : Prop where
  phase : s.enc.phase = .pix
  run : RunBounded s
  alpha : EncAlphaOpaque s
  output : OutputBounded s
  input : Memory.present s.pixIn s.enc.npix.toNat = true
  room : 22 + 5 * s.enc.npix.toNat ≤ s.outRoom.toNat

theorem bytesPerPixel_le_five (c : Byte) : bytesPerPixel c ≤ 5 := by
  unfold bytesPerPixel
  split_ifs <;> decide

/-- Room for what is owed and the longest opcode the pass can choose is room for any pixel step. -/
theorem encPixelOf_of_room {s : State} (hs : EncAlphaOpaque s) (hp : s.enc.phase = .pix) (p : Pixel)
    (hroom : bytesOwed s.enc + bytesPerPixel s.enc.cfgChannels ≤ s.outRoom.toNat) :
    ∃ t, encPixelOf p s = .next t := by
  have hone := one_le_bytesPerPixel s.enc.cfgChannels
  have hopcode := hs.selectOpcode_length_le hp p
  unfold bytesOwed at hroom
  simp only [encPixelOf, encAbsorb, encLiteral]
  split_ifs
  · refine ⟨_, emitBytes_of_room ?_⟩
    simp [encode_length, Instr.length]
    omega
  · exact ⟨_, rfl⟩
  · refine ⟨_, emitBytes_of_room ?_⟩
    simp [encode_length, flushBytes_length]
    omega

/-- While pixels are left, the pixel step completes and the pass goes on. -/
theorem EncReady.pixel {s : State} (hs : EncReady s) (hi : s.enc.i.toNat < s.enc.npix.toNat) :
    ∃ t, encMove s = .next t ∧ EncReady t ∧ t.enc.npix = s.enc.npix ∧ t.enc.i.toNat = s.enc.i.toNat + 1 := by
  have howed := ((outputBounded_iff s).mp hs.output).1 hs.phase
  have hbound : bytesPerPixel s.enc.cfgChannels * (s.enc.i.toNat + 1) ≤ 5 * s.enc.npix.toNat :=
    Nat.mul_le_mul (bytesPerPixel_le_five _) hi
  rw [Nat.mul_succ] at hbound
  have henough := hs.room
  obtain ⟨p, hread⟩ := Memory.read_of_present hs.input hi
  obtain ⟨t, hpx⟩ := encPixelOf_of_room hs.alpha hs.phase p (by omega)
  have hmove : encMove s = .next t := (encMove_pixel hs.phase hi hread).trans hpx
  obtain ⟨hphase, -, hcount⟩ := encPixelOf_pass hpx
  obtain ⟨hnpix, -⟩ := encPixelOf_npix_image hpx
  have hframe : t.pixIn = s.pixIn ∧ t.outRoom = s.outRoom := by
    obtain ⟨e, o, rfl⟩ := encMove_writes_encPart hmove
    exact ⟨rfl, rfl⟩
  obtain ⟨hpixIn, houtRoom⟩ := hframe
  refine ⟨t, hmove, ?_, hnpix, by rw [hcount, toNat_succ_of_lt hi]⟩
  exact {
    phase := hphase.trans hs.phase
    run := encMove_keeps_runBounded hs.run hmove
    alpha := encMove_keeps_encAlphaOpaque hs.alpha hmove
    output := encMove_keeps_outputBounded hs.output hs.alpha hmove
    input := by rw [hpixIn, hnpix]; exact hs.input
    room := by rw [houtRoom, hnpix]; exact hs.room }

/-- As many steps as pixels are left, or fewer, take as many pixels. -/
theorem EncReady.pixels {s : State} (hs : EncReady s) {m : Nat} (hm : s.enc.i.toNat + m ≤ s.enc.npix.toNat) :
    ∃ t, moves encMove m s = .next t ∧ EncReady t ∧ t.enc.npix = s.enc.npix ∧ t.enc.i.toNat = s.enc.i.toNat + m := by
  induction m with
  | zero => exact ⟨s, rfl, hs, rfl, rfl⟩
  | succ m ih =>
    obtain ⟨t, hmoves, ht, hnpix, hi⟩ := ih (by omega)
    obtain ⟨u, hmove, hu, hnpix', hi'⟩ := ht.pixel (by rw [hi, hnpix]; omega)
    exact ⟨u, moves_trans hmoves (moves_one hmove), hu, hnpix'.trans hnpix, by rw [hi', hi, Nat.add_assoc]⟩

/-- With every pixel taken the bound leaves room for the end marker. -/
theorem EncReady.finish {s : State} (hs : EncReady s) (hi : s.enc.i = s.enc.npix) :
    ∃ t, encMove s = .next t ∧ t.enc.phase = .done := by
  obtain ⟨howed, -⟩ := hs.output.1 hs.phase
  have henough := hs.room
  rw [hi] at howed
  obtain ⟨t, hmove, -, ht⟩ := Claims.encFinishWritesMarker s hs.phase hi (by omega)
  exact ⟨t, hmove, by rw [ht]⟩

end Sys2Proof.Machine

namespace Sys2Proof.Claims

open Sys2Proof.Machine

/-- Settles O58: no pixel step can be stuck, so the pass takes its pixels one a step, and then finishes. -/
theorem encPassEndsInDone : Obligations.EncPassEndsInDone := by
  intro s hp hrun halpha houtput hinput hroom
  have hs : EncReady s := ⟨hp, hrun, halpha, houtput, hinput, hroom⟩
  obtain ⟨hi, -⟩ := hrun.2 hp
  refine ⟨fun m hm => ?_, ?_⟩
  · obtain ⟨t, hmoves, ht, -⟩ := hs.pixels (m := m) (by omega)
    exact ⟨t, hmoves, ht.phase⟩
  · obtain ⟨t, hmoves, ht, hnpix, htaken⟩ := hs.pixels (m := s.enc.npix.toNat - s.enc.i.toNat) (by omega)
    obtain ⟨u, hmove, hdone⟩ := ht.finish (BitVec.eq_of_toNat_eq (by rw [htaken, hnpix]; omega))
    exact ⟨u, moves_trans hmoves (moves_one hmove), hdone⟩

end Sys2Proof.Claims
end

