-- ==== Sys2Proof/Proofs/OpcodeRoom.lean ====
section
/-! PROOF. How many pixels an opcode yields, and that it stops exactly when `PIXOUT` lacks room for them
(spec/70_reset_and_hazards.md R282). -/

namespace Sys2Proof.Machine

/-! ### How many pixels -/

/-- A well-formed opcode yields one pixel at least, and 62 at most (R204 to R209). -/
theorem yieldedCount_bounds {i : Instr} (h : i.wf = true) : 1 ≤ yieldedCount i ∧ yieldedCount i ≤ 62 := by
  cases i with
  | run len => exact (Instr.wf_run_iff len).mp h
  | rgba | rgb | index | diff | luma => exact ⟨le_refl 1, by simp [yieldedCount]⟩

theorem Instr.one_le_length (i : Instr) : 1 ≤ i.length := by
  cases i <;> simp [Instr.length]

/-! ### Room for them -/

theorem yieldPixels_eq_fault_iff (len count : Nat) (p : Pixel) (s : State) :
    yieldPixels len count p s = .fault .pixOutRoom ↔ s.pixOutRoom.toNat < s.dec.pixcnt.toNat + count := by
  simp [yieldPixels, pixOutHasRoom]

end Sys2Proof.Machine

namespace Sys2Proof.Claims

open Sys2Proof.Machine

/-- Settles O19: every opcode is one use of the shared operation, which completes or lacks room. -/
theorem opcodeStopsExactlyWithoutRoom : Obligations.OpcodeStopsExactlyWithoutRoom := by
  intro i s
  have hstops : StopsOnlyBy .pixOutRoom .pixOutRoom (exec i s) := (exec_next_or_stuck i s).imp_right .inl
  exact ⟨exec_eq i s ▸ yieldPixels_eq_fault_iff .., fun _ hf => or_self_iff.mp (hstops.fault hf), hstops.not_refused⟩

end Sys2Proof.Claims
end

