-- ==== Sys2Proof/Proofs/DecPassEnds.lean ====
section
/-! PROOF. A pass of DEC that has its input and room for the longest runs ends (spec/70_reset_and_hazards.md R291): each step
ends it or runs an opcode, which moves `pos` and yields 62 pixels at most. -/

namespace Sys2Proof.Machine

/-- The bytes of the opcode region that DEC has not taken yet. -/
def bytesLeft (d : Dec) : Nat := d.cfgLen.toNat - 8 - d.pos.toNat

/-- A pass of DEC that cannot get stuck: `pos` in its region, every input byte, and room for 62 pixels a byte that is left. -/
structure DecReady (s : State) : Prop where
  phase : s.dec.phase = .ops
  pos : PosInRegion s
  input : Memory.present s.inBuf s.dec.cfgLen.toNat = true
  room : s.dec.pixcnt.toNat + 62 * bytesLeft s.dec ≤ s.pixOutRoom.toNat

/-- Where every byte of the stream is present, the fetch finds an opcode, or one cut short. -/
theorem fetch_of_present {m : Memory Byte} {pos len : Nat} (hm : Memory.present m len = true) (hpos : pos < len) :
    (∃ i, i.wf = true ∧ fetch m pos len = .opcode i) ∨ fetch m pos len = .truncated := by
  cases h : fetch m pos len with
  | opcode i =>
    obtain ⟨_, _, _, -, -, -, hdecode⟩ := fetch_opcode h
    obtain ⟨_, hformat, -⟩ := Format.exists_of_decode hdecode
    exact .inl ⟨i, hformat.wf, rfl⟩
  | truncated => exact .inr rfl
  | unrecognized => exact absurd h (fetch_ne_unrecognized m pos len)
  | absent =>
    rcases (fetch_eq_absent_iff m pos len).mp h with hnone | ⟨b0, -, hend, k, hk, hnone⟩
    · obtain ⟨v, hv⟩ := Memory.read_of_present hm hpos
      cases hv.symm.trans hnone
    · obtain ⟨v, hv⟩ := Memory.read_of_present hm (a := pos + k) (by omega)
      cases hv.symm.trans hnone

/-- An opcode step has room for its pixels, and pays for them with its bytes. -/
theorem DecReady.opcode {s : State} (hs : DecReady s) {i : Instr} (hwf : i.wf = true)
    (hpos : s.dec.pos.toNat + 8 < s.dec.cfgLen.toNat)
    (hfetch : fetch s.inBuf s.dec.pos.toNat s.dec.cfgLen.toNat = .opcode i) :
    ∃ t, decMove s = .next t ∧ DecReady t ∧ bytesLeft t.dec < bytesLeft s.dec := by
  have hend := fetch_opcode_length hfetch
  have hlength := Instr.one_le_length i
  obtain ⟨hone, hmost⟩ := yieldedCount_bounds hwf
  have hroom := hs.room
  unfold bytesLeft at hroom
  obtain ⟨t, hexec, -, -, -, hcount, hadvance, -, -, hframe⟩ := exec_produced (i := i) (s := s) hone (by omega)
  have hmove : decMove s = .next t := by rw [decMove_opcode hs.phase hpos, decOpcode, hfetch]; exact hexec
  have htaken : t.dec.pos.toNat = s.dec.pos.toNat + i.length := by
    rw [hadvance]
    exact toNat_add_ofNat_of_le (len := s.dec.cfgLen) (by omega)
  have hsame : t.dec.phase = s.dec.phase ∧ t.dec.cfgLen = s.dec.cfgLen ∧ t.inBuf = s.inBuf ∧
      t.pixOutRoom = s.pixOutRoom := by
    rw [hframe]
    exact ⟨rfl, rfl, rfl, rfl⟩
  obtain ⟨hphase, hlen, hinput, hspace⟩ := hsame
  refine ⟨t, hmove, ⟨hphase.trans hs.phase, decMove_keeps_posInRegion hs.pos hmove, ?_, ?_⟩, ?_⟩
  · rw [hinput, hlen]
    exact hs.input
  · rw [bytesLeft, hcount, hspace, hlen, htaken]
    omega
  · rw [bytesLeft, bytesLeft, hlen, htaken]
    omega

/-- Each step ends the pass, or leaves fewer bytes. -/
theorem DecReady.step {s : State} (hs : DecReady s) :
    ∃ t, decMove s = .next t ∧
      ((t.dec.phase = .done ∨ t.dec.phase = .error) ∨ (DecReady t ∧ bytesLeft t.dec < bytesLeft s.dec)) := by
  obtain ⟨-, hregion⟩ := hs.pos.1 hs.phase
  rcases Nat.eq_or_lt_of_le hregion with hend | hpos
  case inl => exact ⟨_, decMove_finish hs.phase hend, .inl (.inl (by simp))⟩
  case inr =>
    rcases fetch_of_present (pos := s.dec.pos.toNat) hs.input (by omega) with ⟨i, hwf, hfetch⟩ | hcut
    · obtain ⟨t, hmove, hnext⟩ := hs.opcode hwf hpos hfetch
      exact ⟨t, hmove, .inr hnext⟩
    · refine ⟨raiseError .dec .corruptOpcode detailTruncated s, ?_, .inl (.inr (by simp))⟩
      rw [decMove_opcode hs.phase hpos, decOpcode, hcut]

/-- So with fewer bytes left than `n`, `n` steps are enough. -/
theorem DecReady.ends {n : Nat} {s : State} (hs : DecReady s) (hn : bytesLeft s.dec < n) :
    ∃ k t, k ≤ n ∧ moves decMove k s = .next t ∧ (t.dec.phase = .done ∨ t.dec.phase = .error) := by
  induction n generalizing s with
  | zero => exact absurd hn (Nat.not_lt_zero _)
  | succ n ih =>
    obtain ⟨t, hmove, hended | ⟨ht, hless⟩⟩ := hs.step
    · exact ⟨1, t, Nat.le_add_left 1 n, moves_one hmove, hended⟩
    · obtain ⟨k, u, hk, hmoves, hended⟩ := ih ht (by omega)
      exact ⟨k + 1, u, Nat.succ_le_succ hk, moves_succ_iff.mpr ⟨t, hmove, hmoves⟩, hended⟩

end Sys2Proof.Machine

namespace Sys2Proof.Claims

open Sys2Proof.Machine

/-- Settles O59: the bytes left in the opcode region are the measure. -/
theorem decPassEnds : Obligations.DecPassEnds := by
  intro s hp hpos hinput hroom
  exact DecReady.ends ⟨hp, hpos, hinput, hroom⟩ (Nat.lt_succ_self _)

end Sys2Proof.Claims
end

