-- ==== Sys2Proof/Proofs/StartStops.lean ====
section
/-! PROOF. When the start steps are refused or stuck (spec/70_reset_and_hazards.md R280 to R282, R284): an equation for each
way a start stops, and that there is no other. -/

namespace Sys2Proof.Machine

/-- One missing element is enough for an input not to be present. -/
theorem Memory.present_eq_false_of_read {α : Type} {m : Memory α} {n : Nat} (h : ∃ a, a < n ∧ Memory.read m a = none) :
    Memory.present m n = false := by
  obtain ⟨a, ha, hnone⟩ := h
  rw [← Bool.not_eq_true]
  intro hpresent
  obtain ⟨v, hv⟩ := Memory.read_of_present hpresent ha
  cases hv.symm.trans hnone

/-! ### ENC -/

theorem encTooLarge_eq_true_iff (npix : Index) : encTooLarge npix = true ↔ 2 ^ 64 ≤ 22 + 5 * npix.toNat := by
  rw [encTooLarge, decide_eq_true_eq]

theorem encStart_of_too_large {s : State} (hlegal : channelsLegal s.enc.channels = true)
    (hsize : encTooLarge (encBegin s).enc.npix = true) : encStart s = .refused .launchTooLarge :=
  (if_pos hlegal).trans (if_pos hsize)

theorem encStart_of_absent {s : State} (hlegal : channelsLegal s.enc.channels = true)
    (hsize : encTooLarge (encBegin s).enc.npix = false)
    (hinput : Memory.present s.pixIn (encBegin s).enc.npix.toNat = false) : encStart s = .refused .launchInputAbsent :=
  (if_pos hlegal).trans ((if_neg (Bool.not_eq_true _ ▸ hsize)).trans (if_neg (Bool.not_eq_true _ ▸ hinput)))

/-- A launch writes the header at offset 0, so it is stuck with room for fewer than 14 bytes (R163, R282). -/
theorem encStart_of_no_room {s : State} (hlegal : channelsLegal s.enc.channels = true)
    (hsize : encTooLarge (encBegin s).enc.npix = false)
    (hinput : Memory.present s.pixIn (encBegin s).enc.npix.toNat = true) (hroom : s.outRoom.toNat < 14) :
    encStart s = .fault .outRoom := by
  rw [encStart_of_launch hlegal hsize hinput]
  exact emitBytes_of_no_room (by simpa [encBegin, headerBytes_length] using hroom)

/-- The start step of ENC completes, is refused for one of two reasons, or lacks room for the header. -/
theorem encStart_outcome (s : State) :
    (∃ t, encStart s = .next t) ∨ encStart s = .fault .outRoom ∨
    encStart s = .refused .launchTooLarge ∨ encStart s = .refused .launchInputAbsent := by
  cases hlegal : channelsLegal s.enc.channels with
  | false => exact .inl ⟨_, encStart_of_illegal hlegal⟩
  | true =>
    cases hsize : encTooLarge (encBegin s).enc.npix with
    | true => exact .inr (.inr (.inl (encStart_of_too_large hlegal hsize)))
    | false =>
      cases hinput : Memory.present s.pixIn (encBegin s).enc.npix.toNat with
      | false => exact .inr (.inr (.inr (encStart_of_absent hlegal hsize hinput)))
      | true =>
        rw [encStart_of_launch hlegal hsize hinput]
        exact (emitBytes_next_or_stuck ..).imp_right .inl

/-! ### DEC -/

/-- An opcode yields at most 62 pixels and takes at least one byte (R275's bound). -/
theorem totalYield_le {ops : List Instr} (hwf : ∀ i ∈ ops, i.wf = true) :
    Claims.totalYield ops ≤ 62 * (ops.flatMap encode).length := by
  induction ops with
  | nil => exact le_refl 0
  | cons i ops ih =>
    obtain ⟨hi, hops⟩ := List.forall_mem_cons.mp hwf
    obtain ⟨-, hmost⟩ := yieldedCount_bounds hi
    have hlength := Instr.one_le_length i
    have hrest := ih hops
    simp only [Claims.totalYield, List.map_cons, List.sum_cons, List.flatMap_cons, List.length_append, encode_length]
      at hrest ⊢
    omega

/-- A region that yields 2^64 pixels is too long for R275's bound, and the count finds them all. -/
theorem decTooLarge_of_totalYield {m : Memory Byte} {len : Nat} {ops : List Instr} (hlen : 22 ≤ len)
    (hregion : Claims.RegionIs m len ops) (h : 2 ^ 64 ≤ Claims.totalYield ops) : decTooLarge m len = true := by
  obtain ⟨rest, e, hall, hwf, herror⟩ := hregion
  obtain ⟨hlength, -⟩ := (Memory.readAll_eq_some_iff _ _ _ _).mp hall
  have hyield := streamYield_eq_totalYield (stop := len - 8) (fuel := len - 22) hwf herror (hlength ▸ hall)
    (by omega) (by omega)
  have hbound := totalYield_le hwf
  rw [List.length_append] at hlength
  rw [decTooLarge, if_neg (by omega), hyield, decide_eq_true h]

theorem decStart_of_absent {s : State} (hlen : 14 ≤ s.dec.len.toNat)
    (hinput : Memory.present s.inBuf s.dec.len.toNat = false) : decStart s = .refused .launchInputAbsent :=
  if_pos ⟨hlen, hinput⟩

/-- A stream that is present and framed is refused when it yields too many pixels. -/
theorem decStart_of_too_large {s : State} (hinput : Memory.present s.inBuf s.dec.len.toNat = true)
    (hcheck : headerCheck s.inBuf s.dec.len.toNat = none) (hsize : decTooLarge s.inBuf s.dec.len.toNat = true) :
    decStart s = .refused .launchTooLarge := by
  have hbegin : (decBegin s).dec.cfgLen = s.dec.len ∧ (decBegin s).inBuf = s.inBuf := ⟨rfl, rfl⟩
  unfold decStart decLaunch
  simp only [hbegin]
  simp [hinput, hcheck, hsize]

/-- The start step of DEC completes, or is refused for one of two reasons. -/
theorem decStart_outcome (s : State) :
    (∃ t, decStart s = .next t) ∨ decStart s = .refused .launchTooLarge ∨ decStart s = .refused .launchInputAbsent := by
  unfold decStart
  dsimp only
  split_ifs
  · exact .inr (.inr rfl)
  · split
    · exact .inl ⟨_, rfl⟩
    · unfold decLaunch
      split_ifs
      · exact .inr (.inl rfl)
      · split
        · exact .inl ⟨_, rfl⟩
        · exact .inr (.inr rfl)

end Sys2Proof.Machine

namespace Sys2Proof.Claims

open Sys2Proof.Machine

/-- Settles O36: each stop by the check that makes it, and the rest by all that a start can answer. -/
theorem startsAreRefusedOrStuck : Obligations.StartsAreRefusedOrStuck := by
  intro s
  rw [← encBegin_npix]
  refine ⟨fun hchannels => ?enc, fun f hf => ?encFault, fun r hr => ?encRefusal,
    fun hlen habsent => decStart_of_absent hlen (Memory.present_eq_false_of_read habsent),
    fun w h c cs ops hlen hinput hheader hmarker hregion hyield => ?decSize, fun f hf => ?decFault, fun r hr => ?decRefusal⟩
  case enc =>
    have hlegal := (channelsLegal_iff _).mpr hchannels
    refine ⟨fun hlarge => encStart_of_too_large hlegal ((encTooLarge_eq_true_iff _).mpr hlarge), fun hfits => ?_⟩
    have hsize := (encTooLarge_eq_false_iff _).mpr hfits
    exact ⟨fun habsent => encStart_of_absent hlegal hsize (Memory.present_eq_false_of_read habsent),
      encStart_of_no_room hlegal hsize⟩
  case encFault =>
    rcases encStart_outcome s with ⟨t, h⟩ | h | h | h <;> cases h.symm.trans hf
    rfl
  case encRefusal =>
    rcases encStart_outcome s with ⟨t, h⟩ | h | h | h <;> cases h.symm.trans hr
    · exact .inl rfl
    · exact .inr rfl
  case decSize =>
    obtain ⟨hmagic, -⟩ := header_fields hheader
    exact decStart_of_too_large hinput (headerCheck_of_framed hlen hmagic hmarker)
      (decTooLarge_of_totalYield hlen hregion hyield)
  case decFault =>
    rcases decStart_outcome s with ⟨t, h⟩ | h | h <;> cases h.symm.trans hf
  case decRefusal =>
    rcases decStart_outcome s with ⟨t, h⟩ | h | h <;> cases h.symm.trans hr
    · exact .inl rfl
    · exact .inr rfl

end Sys2Proof.Claims
end

