-- ==== Sys2Proof/Proofs/HostKeepsBuffers.lean ====
section
/-! PROOF. While a unit is busy the host's turn leaves its buffers and the room for its output alone
(spec/70_reset_and_hazards.md R280 to R282): every move that writes a buffer or changes a room, and every start, asks the unit
not to be busy. -/

namespace Sys2Proof.Machine

/-- ENC's input, its output and the room for it are as they were. -/
def EncBuffersKept (s t : State) : Prop := t.pixIn = s.pixIn ∧ t.outBuf = s.outBuf ∧ t.outRoom = s.outRoom

/-- DEC's input, its output and the room for it are as they were. -/
def DecBuffersKept (s t : State) : Prop := t.inBuf = s.inBuf ∧ t.pixOut = s.pixOut ∧ t.pixOutRoom = s.pixOutRoom

/-- A start of ENC writes no buffer but `OUT`. -/
theorem encStart_keeps_decBuffers {s t : State} (h : encStart s = .next t) : DecBuffersKept s t := by
  rcases encStart_next h with ⟨_, rfl⟩ | ⟨_, _, _, _, rfl⟩ <;> simp [DecBuffersKept, encBegin]

/-- A start of DEC writes no buffer. -/
theorem decStart_keeps_encBuffers {s t : State} (h : decStart s = .next t) : EncBuffersKept s t := by
  rcases decStart_next h with ⟨_, _, rfl⟩ | ⟨_, _, _, _, _, _, _, _, _, _, _, rfl⟩ <;> exact ⟨rfl, rfl, rfl⟩

theorem writeReg_keeps_busy_buffers {r : Reg} {v : Word} {s t : State} (h : writeReg r v s = .next t) :
    (s.enc.phase = .pix → EncBuffersKept s t) ∧ (s.dec.phase = .ops → DecBuffersKept s t) := by
  rcases writeReg_cases h with rfl | ⟨_, _, _, _, _, rfl⟩ | ⟨_, _, rfl⟩ | ⟨hidle, hstart⟩ | ⟨hidle, hstart⟩
  case inr.inr.inr.inl => exact ⟨fun hbusy => absurd hbusy hidle, fun _ => encStart_keeps_decBuffers hstart⟩
  case inr.inr.inr.inr => exact ⟨fun _ => decStart_keeps_encBuffers hstart, fun hbusy => absurd hbusy hidle⟩
  all_goals exact ⟨fun _ => ⟨rfl, rfl, rfl⟩, fun _ => ⟨rfl, rfl, rfl⟩⟩

theorem perform_keeps_busy_buffers {m : HostMove} {s t : State} (h : perform m s = .next t) :
    (s.enc.phase = .pix → EncBuffersKept s t) ∧ (s.dec.phase = .ops → DecBuffersKept s t) := by
  rcases perform_cases h with ⟨_, _, _, _, _, _, rfl⟩ | ⟨_, _, hw⟩ | ⟨hidle, _, _, rfl⟩ | ⟨hidle, _, _, rfl⟩ |
    ⟨hidle, _, rfl⟩ | ⟨hidle, _, rfl⟩ | ⟨hidle, _, rfl⟩ | rfl
  · exact ⟨fun _ => ⟨rfl, rfl, rfl⟩, fun _ => ⟨rfl, rfl, rfl⟩⟩
  · exact writeReg_keeps_busy_buffers hw
  · exact ⟨fun hbusy => absurd hbusy hidle, fun _ => ⟨rfl, rfl, rfl⟩⟩
  · exact ⟨fun _ => ⟨rfl, rfl, rfl⟩, fun hbusy => absurd hbusy hidle⟩
  · exact ⟨fun hbusy => absurd hbusy hidle, fun _ => ⟨rfl, rfl, rfl⟩⟩
  · exact ⟨fun _ => ⟨rfl, rfl, rfl⟩, fun hbusy => absurd hbusy hidle⟩
  · exact ⟨fun _ => ⟨rfl, rfl, rfl⟩, fun hbusy => absurd hbusy hidle⟩
  · exact ⟨fun _ => ⟨rfl, rfl, rfl⟩, fun _ => ⟨rfl, rfl, rfl⟩⟩

end Sys2Proof.Machine

namespace Sys2Proof.Claims

open Sys2Proof.Machine

/-- Settles O48: whichever move is the host's next. -/
theorem buffersAreFixedDuringAPass : Obligations.BuffersAreFixedDuringAPass := by
  intro s t h
  rcases hostMove_cases h with rfl | ⟨m, rest, -, hm⟩
  · exact ⟨fun _ => ⟨rfl, rfl, rfl⟩, fun _ => ⟨rfl, rfl, rfl⟩⟩
  · exact perform_keeps_busy_buffers (s := { s with host := rest }) hm

end Sys2Proof.Claims
end

