-- ==== Sys2Proof/Proofs/PowerOnReset.lean ====
section
/-! PROOF. Power-on reset (spec/70_reset_and_hazards.md R270): the registers read 0 after it (spec/10_state.md R55), and an
output whose DONE the host has read stays guaranteed (spec/20_memory.md R76). -/

namespace Sys2Proof.Machine

/-! ### The registers -/

/-- Both units are idle, so every register reads as what it holds. -/
theorem regSettled_powerOnReset (r : Reg) (s : State) : regSettled r (powerOnReset s) = true := by
  cases r <;> rfl

/-- R55: no field a register shows has another reset value than 0, and no flag of STATUS stands in IDLE. -/
theorem regValue_reset (r : Reg) : regValue r State.reset = 0 := by
  cases r <;> decide

/-- A register shows a field of a unit, and reset puts both units where `State.reset` has them. -/
theorem regValue_powerOnReset (r : Reg) (s : State) : regValue r (powerOnReset s) = regValue r State.reset := by
  cases r <;> rfl

theorem reads_powerOnReset {off : Nat} (h : regAt off ≠ none) (s : State) : Claims.Reads off 0 (powerOnReset s) := by
  obtain ⟨r, hr⟩ := Option.ne_none_iff_exists'.mp h
  rw [← regValue_reset r, ← regValue_powerOnReset r s]
  exact reads_of_settled hr (regSettled_powerOnReset r s)

/-! ### The output -/

theorem readReg_outBuf (off : Nat) (s : State) : (readReg off s).outBuf = s.outBuf := by
  rw [readReg_spec]

theorem readReg_pixOut (off : Nat) (s : State) : (readReg off s).pixOut = s.pixOut := by
  rw [readReg_spec]

/-- After the host's read of ENC_STATUS with DONE = 1, reset takes no byte of `OUT` from it. -/
theorem readOut_after_done_and_reset {s : State} {a : Index} {b : Byte} (hdone : s.enc.phase = .done)
    (ha : a.toNat < s.enc.outlen.toNat) (hb : Memory.read s.outBuf a.toNat = some b) :
    readOut a (powerOnReset (readReg 0x04 s)) = reply (.outByte a b) (powerOnReset (readReg 0x04 s)) :=
  readOut_of_valid (by rwa [powerOnReset_outValid, readReg_encStatus_outValid hdone])
    (by rwa [powerOnReset_outBuf, readReg_outBuf])

/-- After the host's read of DEC_STATUS with DONE = 1, reset takes no pixel of `PIXOUT` from it. -/
theorem readPixOut_after_done_and_reset {s : State} {i : Index} {p : Pixel} (hdone : s.dec.phase = .done)
    (hi : i.toNat < s.dec.pixcnt.toNat) (hp : Memory.read s.pixOut i.toNat = some p) :
    readPixOut i (powerOnReset (readReg 0x44 s)) = reply (.pixel i p) (powerOnReset (readReg 0x44 s)) :=
  readPixOut_of_valid (by rwa [powerOnReset_pixOutValid, readReg_decStatus_pixOutValid hdone])
    (by rwa [powerOnReset_pixOut, readReg_pixOut])

end Sys2Proof.Machine

namespace Sys2Proof.Claims

open Sys2Proof.Machine

/-- Settles O46: reset keeps the buffers and the guaranteed lengths. -/
theorem resetKeepsGuaranteedOutput : Obligations.ResetKeepsGuaranteedOutput := by
  intro s
  refine ⟨fun hdone => ⟨readReg 0x04 s, _, rfl, rfl, readReg_outBuf 0x04 s, fun a b ha hb => ?_⟩,
    fun hdone => ⟨readReg 0x44 s, _, rfl, rfl, readReg_pixOut 0x44 s, fun i p hi hp => ?_⟩⟩
  · exact ⟨_, rfl, congrArg State.replies (readOut_after_done_and_reset hdone ha hb)⟩
  · exact ⟨_, rfl, congrArg State.replies (readPixOut_after_done_and_reset hdone hi hp)⟩

/-- Settles O47: the reset values are R55's, and each register reads as what it holds. -/
theorem powerOnResetValues : Obligations.PowerOnResetValues :=
  fun s => ⟨powerOnReset s, rfl, rfl, rfl, rfl, rfl, rfl, rfl, rfl, rfl, fun _ hoff => reads_powerOnReset hoff s⟩

end Sys2Proof.Claims
end
